-- ==== Sys2Proof/Word.lean ====
section
/-! DEFINITION. The plainest types: the byte every cell and data line holds, and the store address. -/

namespace Sys2Proof

/-- `DATA_W` = 8: the width of `D` and of every stored cell (spec/00_scope.md R11). -/
abbrev Byte := BitVec 8

/-- `NV_ADDR_W` = 16: a serial-store address (spec/00_scope.md R11). -/
abbrev StoreAddr := BitVec 16

end Sys2Proof
end

