-- ==== Sys2Proof/Config.lean ====
section
/-! DEFINITION. The parameters of spec/00_scope.md R11 as plain data, and the values the spec leaves free as constants
without a body. -/

namespace Sys2Proof

/-- `CK_FN` (R11, R236) as data. The source gives no algorithm (spec/91_not_in_source.md N19), so statements over all
configurations cover the uninterpreted ones; `sumBelow` is the illustration of spec/95_test_vectors.md (log 22). -/
inductive CkFn where
  /-- `[(SHADOW[0] + ... + SHADOW[n-1]) mod 256]`, the illustration of the test vectors. -/
  | sumBelow (n : Nat)
  /-- A total function of the region nothing else is known of. -/
  | uninterpreted (id : Nat)
deriving DecidableEq, Repr

/-- The OPEN parameters (R11). A state carries one, so every statement over all states covers every parameter value
(log 1). Durations are not here: no rule depends on one (log 29). -/
structure Config where
  /-- `LEN`, the length of ShadowMemoryRegion in bytes. -/
  len : Nat
  /-- `AH_W`, `AL_W`: address bits captured in the first and in the second sub-phase. -/
  ahW : Nat
  alW : Nat
  /-- `LOCAL_W`, the width of a local address. -/
  localW : Nat
  /-- `BASE_OFFSET` of the region in local RAM. -/
  baseOffset : Nat
  /-- `SEC_LEN`, `SEC_AH_W`, `SEC_AL_W`, `SEC_BASE_OFFSET`: the same four for the secondary register file. -/
  secLen : Nat
  secAhW : Nat
  secAlW : Nat
  secBaseOffset : Nat
  /-- `PROBE_MAX`, the threshold of the activity probe. -/
  probeMax : Nat
  /-- `DIRPAT_OUT`, `DIRPAT_IN`: uninterpreted bit patterns. -/
  dirpatOut : Nat
  dirpatIn : Nat
  /-- `EXPECTED_SEQ_IDS`, `EXPECTED_MOV_IDS`: finite sets, as lists (log 21). -/
  expectedSeq : List Nat
  expectedMov : List Nat
  /-- `CK_OFFSET`, `CK_LEN`: the place of the checksum field. -/
  ckOffset : Nat
  ckLen : Nat
  /-- `CK_FN`. -/
  ckFn : CkFn
  /-- `WAC_ENABLED`, `WAC_W`. -/
  wacEnabled : Bool
  wacW : Nat
deriving DecidableEq, Repr

/-- The constraints of the table of R11 (and R66: aligned bases; R22: disjoint windows). -/
def Config.wf (g : Config) : Bool :=
  decide (1 ≤ g.len) && decide (g.len ≤ 2 ^ (g.ahW + g.alW)) && decide (g.len ≤ 65536)
    && decide (g.alW < g.ahW) && decide (1 ≤ g.alW) && decide (g.ahW + g.alW ≤ g.localW)
    && decide (g.baseOffset < 2 ^ g.localW) && decide (g.baseOffset % 2 ^ (g.ahW + g.alW) = 0)
    && decide (1 ≤ g.secLen) && decide (g.secLen ≤ 2 ^ (g.secAhW + g.secAlW))
    && decide (g.secAlW < g.secAhW) && decide (1 ≤ g.secAlW)
    && decide (g.secAhW + g.secAlW ≤ g.localW)
    && decide (g.secBaseOffset < 2 ^ g.localW)
    && decide (g.secBaseOffset % 2 ^ (g.secAhW + g.secAlW) = 0)
    && decide (g.secBaseOffset + g.secLen ≤ g.baseOffset ∨ g.baseOffset + g.len ≤ g.secBaseOffset)
    && decide (g.dirpatOut ≠ g.dirpatIn) && decide (g.ckOffset + g.ckLen ≤ g.len)

/-- DESIGN CHOICE (log 1): the configuration of `State.reset`, the illustration T32 of spec/95_test_vectors.md. -/
def Config.t32 : Config where
  len := 32
  ahW := 7
  alW := 4
  localW := 32
  baseOffset := 0x20040000
  secLen := 16
  secAhW := 3
  secAlW := 1
  secBaseOffset := 0x20041000
  probeMax := 1000
  dirpatOut := 255
  dirpatIn := 0
  expectedSeq := [0, 1, 2]
  expectedMov := [0, 1, 2, 3]
  ckOffset := 31
  ckLen := 1
  ckFn := .sumBelow 31
  wacEnabled := false
  wacW := 8

/-! Free values: nothing constrains them. Each is applied to the counter `State.fresh` (log 7). -/

/-- A byte the spec writes `any` (R12). -/
opaque Config.freeByte : Nat → Byte

/-- A one-bit value the spec writes `any`. -/
opaque Config.freeBit : Nat → Bool

/-- A value of a register whose width is a parameter, where the spec writes `any`; the user truncates it. -/
opaque Config.freeNat : Nat → Nat

/-- An identifier set the spec writes `any`. -/
opaque Config.freeIds : Nat → List Nat

/-- What the status register holds after WRSR, from the counter, its old value and the byte sent: the write mask is not in
the source (R198; log 17). -/
opaque Config.statusAfter : Nat → Byte → Byte → Byte

/-- Whether a direction pattern that is neither `DIRPAT_OUT` nor `DIRPAT_IN` turns the data lines outward: the patterns are
uninterpreted (R33; log 31). -/
opaque Config.drives : Nat → Bool

/-- Byte `j` of an uninterpreted `CK_FN` of the region's bytes (R236; log 22). -/
opaque Config.ckByte : Nat → List Byte → Nat → Byte

end Sys2Proof
end

