-- ==== Sys2Proof/Syntax.lean ====
section
/-! DEFINITION. The 22 operations of the opcode map (spec/30_encoding.md R96) as one inductive, and the packets that carry
their encodings through the block's three ports. -/

namespace Sys2Proof

/-- The two channels (spec/00_scope.md R10): primary, the ShadowMemoryRegion window, and secondary, the register window. -/
inductive Channel where
  | primary
  | secondary
deriving DecidableEq, Repr

/-- The direction of a bus cycle: `rd`, the host reads; `wr`, the host writes (R25). -/
inductive Dir where
  | rd
  | wr
deriving DecidableEq, Repr

/-- The operations (R96). Operands are what the rule of each operation lists; the table gives them no bits. -/
inductive Instr where
  /-- Primary read; the levels of `AMUX` in the first and in the second sub-phase (R141). -/
  | prd (first second : Nat)
  /-- Primary write; the same and the byte the host drives on `D` (R151). -/
  | pwr (first second : Nat) (data : Byte)
  /-- Secondary read (R161). -/
  | srd (first second : Nat)
  /-- Secondary write (R163). -/
  | swr (first second : Nat) (data : Byte)
  /-- Strobe not asserted; `CHSEL` and `DIR` are not looked at (R117). -/
  | nocyc (chsel dir : Bool)
  /-- Write-enable (R195). -/
  | wren
  /-- Write-disable (R196). -/
  | wrdi
  /-- Read-status (R197). -/
  | rdsr
  /-- Write-status (R198). -/
  | wrsr (v : Byte)
  /-- Read-memory: store address and count of response bytes (R200). -/
  | read (a : StoreAddr) (n : Nat)
  /-- Write-memory: store address and payload (R201). -/
  | write (a : StoreAddr) (p : List Byte)
  /-- The boot sequence (R230). -/
  | boot
  /-- The activity probe (R231). -/
  | probe
  /-- The restore pass (R214). -/
  | restore
  /-- Engine arming: the region base and the direction-pattern pair (R171). -/
  | arm (base patOut patIn : Nat)
  /-- The consistency repair (R236). -/
  | repair
  /-- Driver read (R211). -/
  | nvRead (addr : StoreAddr) (n : Nat)
  /-- Driver write (R212). -/
  | nvWrite (addr : StoreAddr) (bytes : List Byte)
  /-- One step of the continuous backup (R216). -/
  | backupTick
  /-- The full synchronous sweep (R218). -/
  | writeAllNow
  /-- Full-image export (R240). -/
  | exportImage
  /-- Image import; the elements are integers (R241). -/
  | importImage (src : List Int)
deriving DecidableEq, Repr

/-- The six wire commands as the wire engine sends them (R92, R96). -/
inductive WireCmd where
  | wren
  | wrdi
  | rdsr
  | wrsr (v : Byte)
  | read (a : StoreAddr) (n : Nat)
  | write (a : StoreAddr) (p : List Byte)
deriving DecidableEq, Repr

/-- An argument of a `CALL`: "arguments passed as values, no bits" (R90; log 13). -/
inductive Arg where
  | addr (a : StoreAddr)
  | nat (n : Nat)
  | bytes (bs : List Byte)
  | ints (zs : List Int)
deriving DecidableEq, Repr

/-- What one encoded operation is, at the port it arrives at. The three number spaces are separate (R90; log 13). -/
inductive Packet where
  /-- The sample vector `STROBE, CHSEL, DIR` (bit 2, 1, 0) and, sampled later in the cycle, the two `AMUX` sub-phases and
  the data lines (R91). -/
  | bus (vector : BitVec 3) (first second : Nat) (data : Byte)
  /-- The bytes sent in one frame and the number of response bytes clocked out (R92, R191). -/
  | wire (tx : List Byte) (n : Nat)
  /-- A call selector and its arguments (R96). -/
  | call (selector : Byte) (args : List Arg)
deriving DecidableEq, Repr

/-- Why a packet is no instruction. -/
inductive DecodeError where
  /-- Empty frame, or a first byte outside the six opcodes (R203). -/
  | unknownWireOpcode
  /-- Bytes after the opcode of WREN or WRDI (spec/93 U21). -/
  | extraBytes
  /-- A frame too short or too long for its format (R92; log 32). -/
  | badFrameLength
  /-- A response count the format does not have (R92; log 32). -/
  | badResponseCount
  /-- A selector outside the eleven calls (R96). -/
  | unknownSelector
  /-- Arguments that are not those of the call (R96; log 32). -/
  | badArguments
deriving DecidableEq, Repr

end Sys2Proof
end

