-- ==== Sys2Proof/WellFormed.lean ====
section
/-! DEFINITION. Which instruction terms have an encoding. -/

namespace Sys2Proof

/-- Only the response count of READ has a bound of its own: n ≥ 1 (spec/30_encoding.md R92, R200). Every other operand may
hold every value of its type: a payload of any length is stored as it is sent (spec/93 U21), `AMUX` levels above the captured
bits are ignored (R133), the calls check their own arguments when they run. -/
def Instr.wf : Instr → Bool
  | .read _ n => decide (1 ≤ n)
  | .prd _ _ | .pwr _ _ _ | .srd _ _ | .swr _ _ _ | .nocyc _ _ => true
  | .wren | .wrdi | .rdsr | .wrsr _ | .write _ _ => true
  | .boot | .probe | .restore | .arm _ _ _ | .repair => true
  | .nvRead _ _ | .nvWrite _ _ | .backupTick | .writeAllNow => true
  | .exportImage | .importImage _ => true

end Sys2Proof
end

