-- ==== Sys2Proof/Decode.lean ====
section
/-! DEFINITION. Decoding of the three ports' encodings (spec/30_encoding.md), total and rejecting by name, and the encoder. -/

namespace Sys2Proof

/-! ### Address bytes on the wire (R63, R93) -/

/-- `addr_hi` = `a[15:8]`. -/
def addrHi (a : StoreAddr) : Byte := a.extractLsb' 8 8

/-- `addr_lo` = `a[7:0]`. -/
def addrLo (a : StoreAddr) : Byte := a.extractLsb' 0 8

/-- `a = (addr_hi << 8) | addr_lo`: big-endian (R63, R93). -/
def addrOf (hi lo : Byte) : StoreAddr := hi ++ lo

/-! ### Wire frames (R92, R96) -/

/-- The bytes the driver sends for a command, byte 0 first (R92). -/
def WireCmd.tx : WireCmd → List Byte
  | .wren => [0x06]
  | .wrdi => [0x04]
  | .rdsr => [0x05]
  | .wrsr v => [0x01, v]
  | .read a _ => [0x03, addrHi a, addrLo a]
  | .write a p => 0x02 :: addrHi a :: addrLo a :: p

/-- The number of response bytes a command asks for (R92). -/
def WireCmd.count : WireCmd → Nat
  | .rdsr => 1
  | .read _ n => n
  | .wren | .wrdi | .wrsr _ | .write _ _ => 0

/-- WREN, WRDI: the opcode alone (R92); extra bytes are refused (spec/93 U21). -/
def decodeWire0 (i : Instr) (rest : List Byte) (n : Nat) : Except DecodeError Instr :=
  match rest with
  | [] => if n = 0 then .ok i else .error .badResponseCount
  | _ :: _ => .error .extraBytes

/-- RDSR: the opcode sent, one byte received (R92). -/
def decodeRdsr (rest : List Byte) (n : Nat) : Except DecodeError Instr :=
  match rest with
  | [] => if n = 1 then .ok .rdsr else .error .badResponseCount
  | _ :: _ => .error .badFrameLength

/-- WRSR: opcode and status byte sent (R92). -/
def decodeWrsr (rest : List Byte) (n : Nat) : Except DecodeError Instr :=
  match rest with
  | [v] => if n = 0 then .ok (.wrsr v) else .error .badResponseCount
  | [] => .error .badFrameLength
  | _ :: _ :: _ => .error .badFrameLength

/-- READ: opcode and two address bytes sent, n ≥ 1 bytes received (R92). -/
def decodeRead (rest : List Byte) (n : Nat) : Except DecodeError Instr :=
  match rest with
  | [hi, lo] => if 1 ≤ n then .ok (.read (addrOf hi lo) n) else .error .badResponseCount
  | _ => .error .badFrameLength

/-- WRITE: opcode, two address bytes and the payload sent; any payload length (R92, R201). -/
def decodeWrite (rest : List Byte) (n : Nat) : Except DecodeError Instr :=
  match rest with
  | hi :: lo :: p => if n = 0 then .ok (.write (addrOf hi lo) p) else .error .badResponseCount
  | _ => .error .badFrameLength

/-- "A decoder of frames tells the format from byte 0 alone" (R99); the six opcodes of R96. -/
def decodeWire (tx : List Byte) (n : Nat) : Except DecodeError Instr :=
  match tx with
  | [] => .error .unknownWireOpcode
  | op :: rest =>
    if op = 0x06 then decodeWire0 .wren rest n
    else if op = 0x04 then decodeWire0 .wrdi rest n
    else if op = 0x05 then decodeRdsr rest n
    else if op = 0x01 then decodeWrsr rest n
    else if op = 0x03 then decodeRead rest n
    else if op = 0x02 then decodeWrite rest n
    else .error .unknownWireOpcode

/-! ### Bus-cycle vectors (R91, R96) -/

/-- All eight vectors are defined (R97): bit 2 is `STROBE`, bit 1 `CHSEL`, bit 0 `DIR`. -/
def decodeBus (vector : BitVec 3) (first second : Nat) (data : Byte) : Instr :=
  if vector = 0b101 then .prd first second
  else if vector = 0b100 then .pwr first second data
  else if vector = 0b111 then .srd first second
  else if vector = 0b110 then .swr first second data
  else .nocyc (vector.getLsbD 1) (vector.getLsbD 0)

/-! ### Calls (R96) -/

/-- A call without arguments. -/
def decodeCall0 (i : Instr) (args : List Arg) : Except DecodeError Instr :=
  match args with
  | [] => .ok i
  | _ :: _ => .error .badArguments

/-- `arm`: region base, direction-pattern pair. -/
def decodeArm (args : List Arg) : Except DecodeError Instr :=
  match args with
  | [.nat base, .nat o, .nat i] => .ok (.arm base o i)
  | _ => .error .badArguments

/-- `nv_read`: addr, n. -/
def decodeNvRead (args : List Arg) : Except DecodeError Instr :=
  match args with
  | [.addr a, .nat n] => .ok (.nvRead a n)
  | _ => .error .badArguments

/-- `nv_write`: addr, bytes. -/
def decodeNvWrite (args : List Arg) : Except DecodeError Instr :=
  match args with
  | [.addr a, .bytes bs] => .ok (.nvWrite a bs)
  | _ => .error .badArguments

/-- `import`: an array of integers. -/
def decodeImport (args : List Arg) : Except DecodeError Instr :=
  match args with
  | [.ints zs] => .ok (.importImage zs)
  | _ => .error .badArguments

/-- The call selectors of R96. -/
def decodeCall (selector : Byte) (args : List Arg) : Except DecodeError Instr :=
  if selector = 0x00 then decodeCall0 .boot args
  else if selector = 0x01 then decodeCall0 .probe args
  else if selector = 0x02 then decodeCall0 .restore args
  else if selector = 0x03 then decodeArm args
  else if selector = 0x04 then decodeCall0 .repair args
  else if selector = 0x05 then decodeNvRead args
  else if selector = 0x06 then decodeNvWrite args
  else if selector = 0x07 then decodeCall0 .backupTick args
  else if selector = 0x08 then decodeCall0 .writeAllNow args
  else if selector = 0x09 then decodeCall0 .exportImage args
  else if selector = 0x0A then decodeImport args
  else .error .unknownSelector

/-- Decoding of any packet. -/
def decode (p : Packet) : Except DecodeError Instr :=
  match p with
  | .bus v f sec d => .ok (decodeBus v f sec d)
  | .wire tx n => decodeWire tx n
  | .call sel args => decodeCall sel args

/-! ### The opcode table's words -/

/-- The bytes of a word of `k` bytes, byte 0 first. -/
def wordBytes : Nat → Nat → List Byte
  | 0, _ => []
  | k + 1, w => BitVec.ofNat 8 w :: wordBytes k (w / 256)

/-- `bs` continued by zeros to at least `k` bytes: the operand bytes the table gives no bits. -/
def padTo (k : Nat) (bs : List Byte) : List Byte := bs ++ List.replicate (k - bs.length) 0

/-- The arguments of a call whose argument values are all zero (empty sequences), by selector. -/
def zeroArgs (selector : Byte) : List Arg :=
  if selector = 0x03 then [.nat 0, .nat 0, .nat 0]
  else if selector = 0x05 then [.addr 0, .nat 0]
  else if selector = 0x06 then [.addr 0, .bytes []]
  else if selector = 0x0A then [.ints []]
  else []

/-- The packet of a word of the opcode table. The table's three number spaces overlap, so a word alone does not say its port:
fewer than 8 bits is a `BUSCYC` vector; otherwise byte 0 is taken as a wire opcode where it is one of the six, else as a
`CALL` selector (log 13). A response, which no bit asks for, is one byte long. -/
def tablePacket (nbits w : Nat) : Packet :=
  if nbits < 8 then .bus (BitVec.ofNat 3 w) 0 0 0
  else
    let bs := wordBytes (nbits / 8) w
    let op := BitVec.ofNat 8 w
    if op = 0x06 ∨ op = 0x04 then .wire bs 0
    else if op = 0x05 then .wire bs 1
    else if op = 0x01 then .wire (padTo 2 bs) 0
    else if op = 0x03 then .wire (padTo 3 bs) 1
    else if op = 0x02 then .wire (padTo 3 bs) 0
    else .call op (zeroArgs op)

/-- The instruction the decoder reads from a word of the opcode table. -/
def decodeTableWord (nbits w : Nat) : Option Instr :=
  match decode (tablePacket nbits w) with
  | .ok i => some i
  | .error _ => none

/-! ### The encoder -/

/-- A wire command as its packet. -/
def WireCmd.packet (c : WireCmd) : Packet := .wire c.tx c.count

/-- The vector of a strobe-less sample. -/
def nocycVector (chsel dir : Bool) : BitVec 3 := BitVec.ofBool false ++ (BitVec.ofBool chsel ++ BitVec.ofBool dir)

/-- The packet of an instruction, from the tables of R91, R92 and R96. -/
def encode : Instr → Packet
  | .prd f sec => .bus 0b101 f sec 0
  | .pwr f sec d => .bus 0b100 f sec d
  | .srd f sec => .bus 0b111 f sec 0
  | .swr f sec d => .bus 0b110 f sec d
  | .nocyc c d => .bus (nocycVector c d) 0 0 0
  | .wren => WireCmd.packet .wren
  | .wrdi => WireCmd.packet .wrdi
  | .rdsr => WireCmd.packet .rdsr
  | .wrsr v => WireCmd.packet (.wrsr v)
  | .read a n => WireCmd.packet (.read a n)
  | .write a p => WireCmd.packet (.write a p)
  | .boot => .call 0x00 []
  | .probe => .call 0x01 []
  | .restore => .call 0x02 []
  | .arm b o i => .call 0x03 [.nat b, .nat o, .nat i]
  | .repair => .call 0x04 []
  | .nvRead a n => .call 0x05 [.addr a, .nat n]
  | .nvWrite a bs => .call 0x06 [.addr a, .bytes bs]
  | .backupTick => .call 0x07 []
  | .writeAllNow => .call 0x08 []
  | .exportImage => .call 0x09 []
  | .importImage zs => .call 0x0A [.ints zs]

end Sys2Proof
end

