-- ==== Sys2Proof/Machine/State.lean ====
section
/-! DEFINITION. The state of the block as plain data, its reset value, and the reasons a step can stop. -/

namespace Sys2Proof.Machine

/-- The class of a bus cycle (spec/40_bus_cycle_classifier.md R113). -/
inductive CycleClass where
  | prd
  | pwr
  | srd
  | swr
deriving DecidableEq, Repr

/-- The classifier's state variable (spec/10_state.md R27). -/
inductive Cls where
  /-- `C_IDLE`. -/
  | idle
  /-- `C_SETTLE`: strobe seen, waiting out the settle delay. -/
  | settle
  /-- `C_BUSY(k)`. -/
  | busy (k : CycleClass)
  /-- `C_RELEASE`: completion received, waiting for the strobe to be deasserted. -/
  | release
deriving DecidableEq, Repr

/-- Ring position of a read chain (R32): `RD_ADDR`, `RD_LOOKUP`, `RD_DATAOUT`. -/
inductive RdRing where
  | addr
  | lookup
  | dataout
deriving DecidableEq, Repr

/-- Ring position of a write chain (R32): `WR_ADDR`, `WR_DATAIN`, `WR_STORE`. -/
inductive WrRing where
  | addr
  | datain
  | store
deriving DecidableEq, Repr

/-- The model's own: which of R131, R132, R133, R134 an address capture unit does next (log 11). -/
inductive AcuPos where
  | wait
  | high
  | low
  | emit
deriving DecidableEq, Repr

/-- The model's own: which of R142, R143, R144 a read responder does next (log 11). -/
inductive RrPos where
  | wait
  | taken
  | driving
deriving DecidableEq, Repr

/-- `DDIR` (R30): `inward` is IN, `outward` is OUT. -/
inductive DataDir where
  | inward
  | outward
deriving DecidableEq, Repr

/-- The boot sequencer's state variable (R37): `B_RESET`, `B_PROBE`, `B_RESTORE`, `B_ARM`, `B_REPAIR`, `B_RUNNING`,
`B_FAULT`. -/
inductive BootState where
  | bReset
  | bProbe
  | bRestore
  | bArm
  | bRepair
  | bRunning
  | bFault
deriving DecidableEq, Repr

/-- The causes in `FAULT` (R40). -/
inductive FaultCause where
  | engineArm
  | busActivity
deriving DecidableEq, Repr

/-- `FAULT`, a subset of ENGINE_ARM and BUS_ACTIVITY (R40). -/
structure FaultSet where
  engineArm : Bool
  busActivity : Bool
deriving DecidableEq, Repr

/-- The operation a transport failure is logged with: read, write, wren (spec/60_exceptions.md R252), and the three commands
no operation of the spec issues (log 19). -/
inductive XferOp where
  | read
  | write
  | wren
  | wrdi
  | rdsr
  | wrsr
deriving DecidableEq, Repr

/-- The events of `LOG` (R41). -/
inductive LogEvent where
  /-- `TRANSPORT_FAIL(op, addr, n)`. -/
  | transportFail (op : XferOp) (addr n : Nat)
  /-- `CHECKSUM_FIXED`. -/
  | checksumFixed
  /-- `IMPORT_REJECTED(n)`. -/
  | importRejected (n : Nat)
deriving DecidableEq, Repr

/-- One frame as it went over the serial interface: bytes sent, bytes received (spec/70 R302). -/
structure FrameRecord where
  tx : List Byte
  rx : List Byte
deriving DecidableEq, Repr

/-- What a call answers (spec/30_encoding.md R96, column "result"). -/
inductive CallResult where
  | none
  /-- A call without a result has returned. -/
  | done
  /-- `Ok` of `arm`, `ok` of `probe`. -/
  | ok
  /-- `Err(EngineFault)` with the two identifier sets got (R251). -/
  | engineFault (seqIds movIds : List Nat)
  /-- `BusActivityFault` with the count (R255). -/
  | busActivityFault (count : Nat)
  /-- The bytes of `nv_read`, of a response, of a software read. -/
  | bytes (bs : List Byte)
  /-- The integers of `export`. -/
  | ints (zs : List Nat)
  /-- `import` accepted or rejected. -/
  | accepted
  | rejected
deriving DecidableEq, Repr

/-- The registers, ring positions and single-slot queues of one channel (R28, R29, R31, R32). An empty queue is `none`. -/
structure Chan where
  baseReg : Nat
  ahi : Nat
  alo : Nat
  akind : Dir
  din : Byte
  laRd : Nat
  laWr : Nat
  rdata : Byte
  wdata : Byte
  rdRing : RdRing
  wrRing : WrRing
  trigRd : Option Unit
  trigWr : Option Unit
  idxRd : Option Nat
  idxWr : Option Nat
  doutQ : Option Byte
  dinQ : Option Byte
  acu : AcuPos
  rr : RrPos
deriving DecidableEq, Repr

/-- The host's lines (spec/00_scope.md R7): `STROBE`, `CHSEL`, `DIR`, the levels of `AMUX` in the two sub-phases (R64; the
environment switches them, R133), `D` as the host drives it, and whether the host has given "data valid" (R152; log 12). -/
structure Lines where
  strobe : Bool
  chsel : Bool
  dir : Bool
  amuxFirst : Nat
  amuxSecond : Nat
  d : Byte
  dataValid : Bool
deriving DecidableEq, Repr

/-- The agents of the block that take steps of their own (R10). -/
inductive Agent where
  | cls
  | acu (c : Channel)
  | rr (c : Channel)
  | wc (c : Channel)
  | rdChain (c : Channel)
  | wrChain (c : Channel)
  | bootSeq
deriving DecidableEq, Repr

/-- The outcome of one frame, chosen by the environment (spec/46 R191), or a RESET inside it (spec/70 R281). -/
inductive FrameOutcome where
  /-- `Ok`. -/
  | ok
  /-- `Short(rx)`: the bytes that arrived, whatever they are; those beyond n - 1 are dropped (log 34). -/
  | short (rx : List Byte)
  /-- `Fail`. -/
  | fail
  /-- Power is lost or RESET arrives during the frame (log 27). -/
  | cut
deriving DecidableEq, Repr

/-- What the host, the bus engine or power does between two steps of a software call (R76, R210, R295, R303; log 9). -/
inductive HostAct where
  /-- A whole bus cycle on a channel: the two `AMUX` levels and, for a write, the data byte. -/
  | cycle (c : Channel) (d : Dir) (first second : Nat) (data : Byte)
  /-- The strobe is asserted and gone before the re-check (R112). -/
  | glitch
  /-- The host sets its lines: the beginning or the end of a cycle, or a strobe that sticks (R119). -/
  | lines (l : Lines)
  /-- One agent of the bus engine takes its next step, if it has one. -/
  | agent (a : Agent)
  /-- RESET (R281). -/
  | reset
deriving DecidableEq, Repr

/-- One event of the environment's script (spec/30_encoding.md R100), or a raw move of a line or an agent (log 37). -/
inductive Event where
  /-- An encoded operation at one of the three ports. -/
  | packet (p : Packet)
  /-- Hardware reset. -/
  | reset
  /-- One scheduler tick. -/
  | tick
  /-- `HOST GLITCH`. -/
  | glitch
  /-- A software read of `SHADOW[i]` or `SECREG[i]`. -/
  | swRead (c : Channel) (i : Nat)
  /-- The host sets its lines. -/
  | lines (l : Lines)
  /-- One agent takes its next step, if it has one. -/
  | agent (a : Agent)
deriving DecidableEq, Repr

/-- The environment's choices as plain data (log 8): each list is read from its head, and an empty one means the default. -/
structure Env where
  /-- The script: what step takes next. -/
  events : List Event
  /-- Outcomes of the coming frames; none left: Ok. -/
  outcomes : List FrameOutcome
  /-- Answers of the platform's allocation (R171); none left: the expected sets. -/
  allocs : List (List Nat × List Nat)
  /-- Transition counts of the coming probes (R231); none left: 0. -/
  probes : List Nat
  /-- Host and engine activity before each coming software byte access and driver frame; none left: quiet. -/
  races : List (List HostAct)
deriving DecidableEq, Repr

/-- Names of the single-slot queues (R28). -/
inductive QueueName where
  | trig (k : CycleClass)
  | idxq (c : Channel) (d : Dir)
  | doutq (c : Channel)
  | dinq (c : Channel)
  | done
deriving DecidableEq, Repr

/-- Why the machine stops: model faults (spec/60_exceptions.md R258), "the run is marked, the state is never final". -/
inductive Fault where
  /-- Raised by an address capture unit on a window address at or above LEN (SEC_LEN) (R135). Safe. -/
  | indexOutOfRange (c : Channel) (addr : Nat)
  /-- Raised by a push to a full queue (R28). Safe: unreachable while R118 holds. -/
  | queueOverflow (q : QueueName)
  /-- Raised by a pop from an empty queue (R28). Safe: every pop of the engine stands behind a test. -/
  | queueUnderflow (q : QueueName)
  /-- Raised by a mover's access to a local address outside both windows, which is outside the spec (R21; log 23). Safe. -/
  | localUnmapped (la : Nat)
  /-- Raised by a software access to a region index that does not exist (R60; log 26). Safe. -/
  | regionIndex (c : Channel) (i : Nat)
deriving DecidableEq, Repr

/-- Why a step is refused: the refusals of R258 and the packets no rule describes. All safe. -/
inductive Refusal where
  /-- The instruction has no meaning yet; raised by exec's arms only. -/
  | notModelled (mnemonic : String)
  /-- `arm` while `ARMED` = 1 (R171). -/
  | alreadyArmed
  /-- `arm` with a base that has low A_W bits set (R171). -/
  | baseMisaligned
  /-- `restore` or `import` while `ARMED` = 1 (R62, R214, R241). -/
  | softwareWriteWhileArmed
  /-- `nv_read` or `nv_write` past store address 0xFFFF (R211, R212). -/
  | nvRangeOverflow
  /-- A frame that is empty or begins with none of the six opcodes (R203). -/
  | unknownWireOpcode
  /-- Any other packet that is no instruction; raised by step (log 32). -/
  | undecodable (e : DecodeError)
deriving DecidableEq, Repr

/-- The whole machine. -/
structure State where
  /-- The parameters (R11); no step changes them. -/
  cfg : Config
  /-- `LOCALRAM` (R21), which holds `SHADOW` (R20) and `SECREG` (R22). -/
  ram : List Host.Cell
  /-- `NV` (R23). -/
  nv : List Host.Cell
  /-- `WEL`, `SR` (R24). -/
  wel : Bool
  sr : Byte
  /-- `CLS` (R27). -/
  cls : Cls
  /-- `DONE` (R28). -/
  done : Option Unit
  /-- The primary and the secondary channel (R28 to R32). -/
  chP : Chan
  chS : Chan
  /-- `DDIR`, `DOUT` (R30). -/
  ddir : DataDir
  dout : Byte
  /-- `FAB_BASE`, `DIRPAT`, `ARMED`, `SEQ_IDS`, `MOV_IDS` (R33). -/
  fabBase : Nat
  dirpat : Nat × Nat
  armed : Bool
  seqIds : List Nat
  movIds : List Nat
  /-- `CURSOR`, `PAUSED` (R34, R35). -/
  cursor : Nat
  paused : Bool
  /-- `NV_SEL`, `FRAME` (R36). -/
  nvSel : Bool
  frame : List Byte
  /-- `BOOT`, `PROBE_COUNT` (R37, R38). -/
  boot : BootState
  probeCount : Nat
  /-- `FAULT`, `LOG` (R40, R41). -/
  fault : FaultSet
  log : List LogEvent
  /-- `WAC` (R42): index and counter, zero when unlisted. -/
  wac : List (Nat × Nat)
  /-- The host's lines (R7). -/
  lines : Lines
  /-- What the last call answered (R96). -/
  result : CallResult
  /-- The bytes the host sampled and the frames sent: the two traces of R302. -/
  sampled : List Byte
  frames : List FrameRecord
  /-- The environment's choices (log 8). -/
  env : Env
  /-- The counter of the free values (log 7). -/
  fresh : Nat
deriving DecidableEq, Repr

/-- DESIGN CHOICE (log 3): the values of the working registers at reset, which R52 leaves unspecified. Queues and rings as
R52 says. -/
def Chan.reset : Chan where
  baseReg := 0
  ahi := 0
  alo := 0
  akind := .rd
  din := 0
  laRd := 0
  laWr := 0
  rdata := 0
  wdata := 0
  rdRing := .addr
  wrRing := .addr
  trigRd := none
  trigWr := none
  idxRd := none
  idxWr := none
  doutQ := none
  dinQ := none
  acu := .wait
  rr := .wait

/-- A silent host (log 12). -/
def Lines.quiet : Lines where
  strobe := false
  chsel := false
  dir := false
  amuxFirst := 0
  amuxSecond := 0
  d := 0
  dataValid := false

/-- An environment with nothing pending (log 8). -/
def Env.silent : Env where
  events := []
  outcomes := []
  allocs := []
  probes := []
  races := []

/-- The block right after power-up (R52, R280). Where R52 says "unspecified" the value is the model's (logs 1, 3, 4, 6, 7). -/
def State.reset : State where
  cfg := Config.t32
  ram := []
  nv := []
  wel := false
  sr := 0
  cls := .idle
  done := none
  chP := Chan.reset
  chS := Chan.reset
  ddir := .inward
  dout := 0
  fabBase := 0
  dirpat := (0, 0)
  armed := false
  seqIds := []
  movIds := []
  cursor := 0
  paused := false
  nvSel := false
  frame := []
  boot := .bReset
  probeCount := 0
  fault := ⟨false, false⟩
  log := []
  wac := []
  lines := Lines.quiet
  result := .none
  sampled := []
  frames := []
  env := Env.silent
  fresh := 0

end Sys2Proof.Machine
end

