-- ==== Sys2Proof/Machine/Operands.lean ====
section
/-! DEFINITION. Every operand form: the class of a cycle, window and local addresses, chunks, reductions (spec/49 R244). -/

namespace Sys2Proof.Machine

/-! ### Classes -/

/-- The class picked from `CHSEL` and `DIR` (R113). -/
def classify (chsel dir : Bool) : CycleClass :=
  match chsel, dir with
  | false, true => .prd
  | false, false => .pwr
  | true, true => .srd
  | true, false => .swr

/-- The channel a class is served by (R114). -/
def CycleClass.channel : CycleClass → Channel
  | .prd | .pwr => .primary
  | .srd | .swr => .secondary

/-- The direction of a class. -/
def CycleClass.dir : CycleClass → Dir
  | .prd | .srd => .rd
  | .pwr | .swr => .wr

/-- The level of `CHSEL` for a channel (R7). -/
def chselOf : Channel → Bool
  | .primary => false
  | .secondary => true

/-- The level of `DIR` for a direction (R7). -/
def dirLevel : Dir → Bool
  | .rd => true
  | .wr => false

/-! ### Window and local addresses (R61, R94, R132, R133) -/

/-- `AH_W` or `SEC_AH_W`. -/
def ahWidth (g : Config) : Channel → Nat
  | .primary => g.ahW
  | .secondary => g.secAhW

/-- `AL_W` or `SEC_AL_W`. -/
def alWidth (g : Config) : Channel → Nat
  | .primary => g.alW
  | .secondary => g.secAlW

/-- `A_W` or `SEC_A_W`. -/
def addrWidth (g : Config) (c : Channel) : Nat := ahWidth g c + alWidth g c

/-- `LEN` or `SEC_LEN`. -/
def windowLen (g : Config) : Channel → Nat
  | .primary => g.len
  | .secondary => g.secLen

/-- `BASE_OFFSET` or `SEC_BASE_OFFSET`. -/
def windowBase (g : Config) : Channel → Nat
  | .primary => g.baseOffset
  | .secondary => g.secBaseOffset

/-- The low `w` bits of a value: `v[w-1:0]`. -/
def lowBits (w v : Nat) : Nat := v % 2 ^ w

/-- `addr = (AHI << AL_W) | ALO` (R133). -/
def windowAddr (g : Config) (c : Channel) (ahi alo : Nat) : Nat := (ahi <<< alWidth g c) ||| alo

/-- `LA = BASEREG_c | addr`, LOCAL_W bits (R133). -/
def localAddr (g : Config) (base addr : Nat) : Nat := lowBits g.localW (base ||| addr)

/-- Whether a local address lies in a channel's window (R21). -/
def inWindow (g : Config) (c : Channel) (la : Nat) : Bool :=
  decide (windowBase g c ≤ la) && decide (la < windowBase g c + windowLen g c)

/-! ### Chunks (R95, R244) -/

/-- `CHUNK` = 16 (R11). -/
def chunk : Nat := 16

/-- `ceil(L/16)` (R244). -/
def chunkCount (l : Nat) : Nat := (l + 15) / 16

/-- `min(16, LEN - i)` (R95). -/
def chunkLen (len i : Nat) : Nat := min 16 (len - i)

/-- `bytes` cut at multiples of 16 counted from its start, `k` pieces (R95, R212). -/
def chunksOf : Nat → List Byte → List (List Byte)
  | 0, _ => []
  | k + 1, bs => bs.take 16 :: chunksOf k (bs.drop 16)

/-- `CURSOR` after its advance: +16, wrapped to zero at LEN (R216). -/
def nextCursor (len cursor : Nat) : Nat := if len ≤ cursor + 16 then 0 else cursor + 16

/-- A store address from a number below 65536; the address inside a frame wraps (R72, R93). -/
def storeAddr (a : Nat) : StoreAddr := BitVec.ofNat 16 a

/-! ### Reductions -/

/-- `src[i] mod 256`, the non-negative remainder (R241, R244). -/
def byteOfInt (z : Int) : Byte := BitVec.ofInt 8 z

/-- Equality of two identifier sets given as lists (R171; log 21). -/
def sameIds (a b : List Nat) : Bool := a.all (fun x => b.contains x) && b.all (fun x => a.contains x)

end Sys2Proof.Machine
end

