-- ==== Sys2Proof/Machine/Flags.lean ====
section
/-! DEFINITION. The one-bit status values and what sets and clears them (spec/10_state.md R48). -/

namespace Sys2Proof.Machine

/-- `ARMED <- 1`: the end of a successful `arm` (R171). -/
def State.setArmed (s : State) : State := { s with armed := true }

/-- What applying a direction pattern makes of `DDIR` (R33): `DIRPAT_OUT` makes it OUT, `DIRPAT_IN` makes it IN, and what any
other pattern does is free (log 31). -/
def patternDir (g : Config) (p : Nat) : DataDir :=
  if p = g.dirpatOut then .outward
  else if p = g.dirpatIn then .inward
  else if Config.drives p then .outward
  else .inward

/-- A pattern is written to the data lines' direction control (R143, R144). -/
def State.applyPattern (s : State) (p : Nat) : State := { s with ddir := patternDir s.cfg p }

/-- `DDIR <- IN` (R259). -/
def State.releaseData (s : State) : State := { s with ddir := .inward }

/-- Whether the bus engine takes steps: armed (R84, R110) and not in the fault state, where no bus cycle is served (R259;
log 25). -/
def State.engineRuns (s : State) : Bool := s.armed && decide (s.boot ≠ .bFault)

/-- `WEL` (R195, R196, R201). -/
def State.setWel (s : State) (b : Bool) : State := { s with wel := b }

/-- `PAUSED` (R218). -/
def State.setPaused (s : State) (b : Bool) : State := { s with paused := b }

/-- `BOOT` is `B_RUNNING` or `B_FAULT`, which it leaves only by RESET (R230). -/
def BootState.final (b : BootState) : Bool := decide (b = .bRunning) || decide (b = .bFault)

/-- `FAULT` is non-empty (R40). -/
def FaultSet.raised (f : FaultSet) : Bool := f.engineArm || f.busActivity

/-- `FAULT ∪ {cause}` (R232, R235). -/
def FaultSet.add (f : FaultSet) : FaultCause → FaultSet
  | .engineArm => { f with engineArm := true }
  | .busActivity => { f with busActivity := true }

end Sys2Proof.Machine
end

