-- ==== Sys2Proof/Machine/Ops.lean ====
section
/-! DEFINITION. The named operations over memories, queues, registers, the serial interface, and entering and leaving the
fault state. -/

namespace Sys2Proof.Machine

/-! ### Sparse memories in one canonical form -/

/-- The value at an address: what an unlisted address reads as is `d`. -/
def sparseRead {α : Type} (d : α) : List (Nat × α) → Nat → α
  | [], _ => d
  | (b, w) :: r, a => if a = b then w else sparseRead d r a

/-- Write `v` at `a`: addresses stay strictly rising, and an entry equal to `d` is not kept. -/
def sparseWrite {α : Type} [DecidableEq α] (d : α) : List (Nat × α) → Nat → α → List (Nat × α)
  | [], a, v => if v = d then [] else [(a, v)]
  | (b, w) :: r, a, v =>
    if a < b then (if v = d then (b, w) :: r else (a, v) :: (b, w) :: r)
    else if a = b then (if v = d then r else (a, v) :: r)
    else (b, w) :: sparseWrite d r a v

/-- The canonical form from address `lo` on: strictly rising, nothing equal to `d`. -/
def sparseWf {α : Type} [DecidableEq α] (d : α) (lo : Nat) : List (Nat × α) → Bool
  | [] => true
  | (a, v) :: r => decide (lo ≤ a) && decide (v ≠ d) && sparseWf d (a + 1) r

/-- What an unlisted byte reads as: DESIGN CHOICE (log 4). -/
def Memory.unlisted : Byte := 0

/-- One byte. -/
def Memory.read (m : List Host.Cell) (a : Nat) : Byte := sparseRead Memory.unlisted m a

/-- One byte written. -/
def Memory.write (m : List Host.Cell) (a : Nat) (v : Byte) : List Host.Cell := sparseWrite Memory.unlisted m a v

/-- Bytes written at rising addresses. -/
def Memory.writeList (m : List Host.Cell) (a : Nat) : List Byte → List Host.Cell
  | [] => m
  | b :: bs => Memory.writeList (Memory.write m a b) (a + 1) bs

/-- The canonical form. -/
def Memory.wf (m : List Host.Cell) : Bool := sparseWf Memory.unlisted 0 m

/-! ### Local RAM (R12, R21) -/

/-- A local address is a cell of `SHADOW` or of `SECREG`; every other one is outside the spec (R21; log 23). The windows are those
of the parameters, whatever base `arm` was given (log 40). -/
def localMapped (g : Config) (la : Nat) : Bool := inWindow g .primary la || inWindow g .secondary la

/-- `MemRead(la, 1)`. -/
def memRead (s : State) (la : Nat) : Except Fault Byte :=
  if localMapped s.cfg la then .ok (Memory.read s.ram la) else .error (.localUnmapped la)

/-- `MemWrite(la, 1, v)`. -/
def memWrite (s : State) (la : Nat) (v : Byte) : Except Fault State :=
  if localMapped s.cfg la then .ok { s with ram := Memory.write s.ram la v } else .error (.localUnmapped la)

/-- The byte of cell `i` of a channel's array: `SHADOW[i]` or `SECREG[i]` (R12, R21, R22). -/
def State.cell (s : State) (c : Channel) (i : Nat) : Byte := Memory.read s.ram (windowBase s.cfg c + i)

/-- `SHADOW[i]`. -/
def State.shadow (s : State) (i : Nat) : Byte := s.cell .primary i

/-- `SECREG[j]`. -/
def State.secreg (s : State) (j : Nat) : Byte := s.cell .secondary j

/-- Store into `SHADOW[i]` or `SECREG[i]`. -/
def State.setCell (s : State) (c : Channel) (i : Nat) (v : Byte) : State :=
  { s with ram := Memory.write s.ram (windowBase s.cfg c + i) v }

/-- The whole region, index rising. -/
def State.region (s : State) : List Byte := (List.range s.cfg.len).map s.shadow

/-- `NV[a]`. -/
def State.nvByte (s : State) (a : Nat) : Byte := Memory.read s.nv a

/-- One step of the activity counter of index `i` (R154). -/
def State.wacBump (s : State) (i : Nat) : State :=
  { s with wac := sparseWrite 0 s.wac i ((sparseRead 0 s.wac i + 1) % 2 ^ s.cfg.wacW) }

/-! ### Channels and queues (R28) -/

/-- A channel's registers. -/
def State.chan (s : State) : Channel → Chan
  | .primary => s.chP
  | .secondary => s.chS

/-- Write a channel's registers. -/
def State.setChan (s : State) (c : Channel) (ch : Chan) : State :=
  match c with
  | .primary => { s with chP := ch }
  | .secondary => { s with chS := ch }

/-- `push(Q, v)`: requires `empty(Q)` (R28). -/
def push {α : Type} (q : QueueName) (slot : Option α) (v : α) : Except Fault (Option α) :=
  match slot with
  | none => .ok (some v)
  | some _ => .error (.queueOverflow q)

/-- `pop(Q)`: requires `full(Q)`; the value, and `Q` empty (R28). -/
def pop {α : Type} (q : QueueName) (slot : Option α) : Except Fault (α × Option α) :=
  match slot with
  | some v => .ok (v, none)
  | none => .error (.queueUnderflow q)

/-- The queues of a channel empty and its sequencers at their first step; data registers kept (R171). -/
def Chan.idled (ch : Chan) : Chan :=
  { ch with rdRing := .addr, wrRing := .addr, trigRd := none, trigWr := none, idxRd := none, idxWr := none,
            doutQ := none, dinQ := none, acu := .wait, rr := .wait }

/-! ### Log, results -/

/-- `log(event)` appends (R12, R41). -/
def State.logged (s : State) (e : LogEvent) : State := { s with log := s.log ++ [e] }

/-! ### Taking a fatal fault and leaving it -/

/-- Entering the fault state, the block's only trap entry (R259): the cause joins `FAULT`, `BOOT <- B_FAULT`, `DDIR` is IN;
nothing is saved, no vector is read, `ARMED` keeps its value. From here the engine takes no step (`State.engineRuns`). -/
def enterFault (s : State) (cause : FaultCause) : State :=
  { s.releaseData with fault := s.fault.add cause, boot := .bFault }

/-- `n` free bytes from a counter. -/
def freeBytes (k n : Nat) : List Byte := (List.range n).map (fun j => Config.freeByte (k + j))

/-- A channel after RESET: queues empty, rings at their first stage, every register `any` (R52), drawn from counter `k`. -/
def Chan.afterReset (g : Config) (c : Channel) (k : Nat) : Chan :=
  { Chan.reset with
    baseReg := lowBits g.localW (Config.freeNat k)
    ahi := lowBits (ahWidth g c) (Config.freeNat (k + 1))
    alo := lowBits (alWidth g c) (Config.freeNat (k + 2))
    akind := if Config.freeBit (k + 3) then .rd else .wr
    din := Config.freeByte (k + 4)
    laRd := lowBits g.localW (Config.freeNat (k + 5))
    laWr := lowBits g.localW (Config.freeNat (k + 6))
    rdata := Config.freeByte (k + 7)
    wdata := Config.freeByte (k + 8) }

/-- Local RAM after RESET: every cell of both windows `any` (R52). -/
def ramAfterReset (g : Config) (k : Nat) : List Host.Cell :=
  Memory.writeList (Memory.writeList [] g.baseOffset (freeBytes k g.len)) g.secBaseOffset
    (freeBytes (k + g.len) g.secLen)

/-- `RESET` at run time (R52, R280, R281), the only way out of the fault state (R260): every value R52 gives, free values
where it says unspecified (log 5); the parameters, `NV`, `SR`, the host's lines, the traces of the run and the rest of the
environment's choices stay. -/
def hardReset (s : State) : State :=
  let k := s.fresh + s.cfg.len + s.cfg.secLen
  { State.reset with
    cfg := s.cfg
    ram := ramAfterReset s.cfg s.fresh
    nv := s.nv
    sr := s.sr
    chP := Chan.afterReset s.cfg .primary k
    chS := Chan.afterReset s.cfg .secondary (k + 9)
    dout := Config.freeByte (k + 18)
    fabBase := lowBits s.cfg.localW (Config.freeNat (k + 19))
    dirpat := (Config.freeNat (k + 20), Config.freeNat (k + 21))
    seqIds := Config.freeIds (k + 22)
    movIds := Config.freeIds (k + 23)
    lines := s.lines
    sampled := s.sampled
    frames := s.frames
    env := s.env
    fresh := k + 24 }

/-! ### Sequencing of a software call -/

/-- How a part of a software call ends: with a value, cut by a RESET, in a model fault, or refused. -/
inductive Res (α : Type) where
  | ok (a : α) (s : State)
  | cut (s : State)
  | fault (f : Fault)
  | refused (r : Refusal)
deriving Repr

/-- Go on with the rest of the call if this part ended with a value. -/
def Res.bind {α β : Type} (r : Res α) (k : α → State → Res β) : Res β :=
  match r with
  | .ok a s => k a s
  | .cut s => .cut s
  | .fault f => .fault f
  | .refused f => .refused f

/-- The end of a call: its result is kept; a cut is a RESET and the call is simply not finished (R281). -/
def finish (r : Res CallResult) : Host.Outcome State Fault Refusal :=
  match r with
  | .ok a s => .next { s with result := a }
  | .cut s => .next (hardReset s)
  | .fault f => .fault f
  | .refused f => .refused f

/-! ### The serial interface (R190 to R206) -/

/-- The environment's outcome for the next frame; `Ok` when none is pending (log 8). -/
def nextOutcome (s : State) : FrameOutcome × State :=
  match s.env.outcomes with
  | [] => (.ok, s)
  | o :: os => (o, { s with env := { s.env with outcomes := os } })

/-- `response[k] = NV[(a + k) mod 65536]` (R200). -/
def nvRange (s : State) (a : StoreAddr) (n : Nat) : List Byte :=
  (List.range n).map (fun k => s.nvByte ((a.toNat + k) % 65536))

/-- `NV[(a + k) mod 65536] <- p[k]` (R201), `a` as a number. -/
def nvStore (m : List Host.Cell) (a : Nat) : List Byte → List Host.Cell
  | [] => m
  | b :: bs => nvStore (Memory.write m (a % 65536) b) (a + 1) bs

/-- The cells of a cut or failed WRITE frame: each its old value or the payload byte, chosen by free bits from counter `k`
(R205). -/
def nvStoreMaybe (m : List Host.Cell) (a k : Nat) : List Byte → List Host.Cell
  | [] => m
  | b :: bs =>
    nvStoreMaybe
      (Memory.write m (a % 65536) (if Config.freeBit k then b else Memory.read m (a % 65536))) (a + 1) (k + 1) bs

/-- WRSR's effect on `NVDEV`: `SR` is `any`; whether the latch is cleared is not in the source, so it is kept or cleared
(R198; log 17). -/
def devWriteStatus (s : State) (v : Byte) : State :=
  { s with sr := Config.statusAfter s.fresh s.sr v, wel := s.wel && Config.freeBit (s.fresh + 1), fresh := s.fresh + 2 }

/-- What `NVDEV` does with a command whose exchange worked: response bytes and state (R195 to R202). -/
def devOk (c : WireCmd) (s : State) : List Byte × State :=
  match c with
  | .wren => ([], s.setWel true)
  | .wrdi => ([], s.setWel false)
  | .rdsr => ([s.sr], s)
  | .wrsr v => ([], devWriteStatus s v)
  | .read a n => (nvRange s a n, s)
  | .write a p => ([], { s with nv := if s.wel then nvStore s.nv a.toNat p else s.nv, wel := false })

/-- The latch is `any` (R205). -/
def welAny (s : State) : State := { s with wel := Config.freeBit s.fresh, fresh := s.fresh + 1 }

/-- What a failed or short exchange leaves in `NVDEV` (R205; for the two status commands log 18). -/
def devFailed (c : WireCmd) (s : State) : State :=
  match c with
  | .wren | .wrdi => welAny s
  | .rdsr | .read _ _ => s
  | .wrsr v => welAny (devWriteStatus s v)
  | .write a p => welAny { s with nv := nvStoreMaybe s.nv a.toNat s.fresh p, fresh := s.fresh + p.length }

/-- `NV_SEL` is asserted and the command's bytes are sent (R190). -/
def openFrame (c : WireCmd) (s : State) : State := { s with nvSel := true, frame := c.tx }

/-- `NV_SEL` is deasserted: the frame ends and is a line of the frame trace (R190, R302). -/
def closeFrame (c : WireCmd) (rx : List Byte) (s : State) : State :=
  { s with nvSel := false, frame := [], frames := s.frames ++ [⟨c.tx, rx⟩] }

/-- What an exchange hands to its caller: whether it worked, and the bytes received. -/
structure Reply where
  worked : Bool
  rx : List Byte
deriving DecidableEq, Repr

/-- `NvXfer` (R191): one frame, with the outcome the environment gives. That the frame trace shows a frame cut by RESET with
all its bytes sent and none received is the model's choice: R190 and R281 do not say how many went out (log 27). -/
def nvXfer (c : WireCmd) (s : State) : Res Reply :=
  match nextOutcome (openFrame c s) with
  | (.ok, s1) => .ok ⟨true, (devOk c s1).1⟩ (closeFrame c (devOk c s1).1 (devOk c s1).2)
  | (.short rx, s1) =>
    .ok ⟨false, rx.take (c.count - 1)⟩ (closeFrame c (rx.take (c.count - 1)) (devFailed c s1))
  | (.fail, s1) => .ok ⟨false, []⟩ (closeFrame c [] (devFailed c s1))
  | (.cut, s1) => .cut (closeFrame c [] (devFailed c s1))

/-- One exchange; a failed one leaves exactly one `LOG` entry and nothing else in the block (R224, R252). -/
def xferLogged (op : XferOp) (addr n : Nat) (c : WireCmd) (s : State) : Res (List Byte) :=
  (nvXfer c s).bind fun r s1 =>
    .ok r.rx (if r.worked then s1 else s1.logged (.transportFail op addr n))

end Sys2Proof.Machine
end

