-- ==== Sys2Proof/Machine/Engine.lean ====
section
/-! DEFINITION. The bus engine: the micro-steps of the classifier, the address capture units, the responders, the capturers
and the two rings of each channel, and the engine run to rest (spec/40 to spec/45). -/

namespace Sys2Proof.Machine

/-- A micro-step: `none` where the agent has no enabled step, otherwise the next state or a model fault. -/
abbrev Micro := Option (Except Fault State)

/-! ### Classifier (R111 to R117) -/

/-- `push(TRIG_k)` (R114). -/
def pushTrig (k : CycleClass) (s : State) : Except Fault State :=
  let ch := s.chan k.channel
  match k.dir with
  | .rd => (push (.trig k) ch.trigRd ()).map fun q => s.setChan k.channel { ch with trigRd := q }
  | .wr => (push (.trig k) ch.trigWr ()).map fun q => s.setChan k.channel { ch with trigWr := q }

/-- Classification and dispatch (R113, R114). -/
def clsDispatch (s : State) : Except Fault State :=
  let k := classify s.lines.chsel s.lines.dir
  (pushTrig k s).map fun s1 => { s1 with cls := .busy k }

/-- The classifier's next step (R111, R112, R113 with R114, R115, R116; R117 is its idling). -/
def clsStep (s : State) : Micro :=
  match s.cls with
  | .idle => if s.lines.strobe then some (.ok { s with cls := .settle }) else none
  | .settle => if s.lines.strobe then some (clsDispatch s) else some (.ok { s with cls := .idle })
  | .busy _ =>
    match s.done with
    | none => none
    | some _ => some ((pop .done s.done).map fun r => { s with done := r.2, cls := .release })
  | .release => if s.lines.strobe then none else some (.ok { s with cls := .idle })

/-! ### Address capture (R131 to R135) -/

/-- Take the trigger of a direction (R131). -/
def acuTake (c : Channel) (d : Dir) (s : State) : State :=
  let ch := s.chan c
  match d with
  | .rd => s.setChan c { ch with trigRd := none, akind := .rd, acu := .high }
  | .wr => s.setChan c { ch with trigWr := none, akind := .wr, acu := .high }

/-- First sub-phase: `AHI_c <- AMUX[AH_W-1:0]` (R132). -/
def acuHigh (c : Channel) (s : State) : State :=
  s.setChan c { s.chan c with ahi := lowBits (ahWidth s.cfg c) s.lines.amuxFirst, acu := .low }

/-- Second sub-phase: `ALO_c <- AMUX[AL_W-1:0]`, and the range of the window address (R133, R135). -/
def acuLow (c : Channel) (s : State) : Except Fault State :=
  let ch := s.chan c
  let alo := lowBits (alWidth s.cfg c) s.lines.amuxSecond
  let addr := windowAddr s.cfg c ch.ahi alo
  if windowLen s.cfg c ≤ addr then .error (.indexOutOfRange c addr)
  else .ok (s.setChan c { ch with alo := alo, acu := .emit })

/-- `push(IDXQ_c_d, LA)` with d = `AKIND_c` (R134). -/
def acuEmit (c : Channel) (s : State) : Except Fault State :=
  let ch := s.chan c
  let la := localAddr s.cfg ch.baseReg (windowAddr s.cfg c ch.ahi ch.alo)
  match ch.akind with
  | .rd => (push (.idxq c .rd) ch.idxRd la).map fun q => s.setChan c { ch with idxRd := q, acu := .wait }
  | .wr => (push (.idxq c .wr) ch.idxWr la).map fun q => s.setChan c { ch with idxWr := q, acu := .wait }

/-- The address capture unit's next step. -/
def acuStep (c : Channel) (s : State) : Micro :=
  match (s.chan c).acu with
  | .wait =>
    match (s.chan c).trigRd, (s.chan c).trigWr with
    | some _, _ => some (.ok (acuTake c .rd s))
    | none, some _ => some (.ok (acuTake c .wr s))
    | none, none => none
  | .high => some (.ok (acuHigh c s))
  | .low => some (acuLow c s)
  | .emit => some (acuEmit c s)

/-! ### Read ring (R175 to R177) -/

/-- The read chain's next step. -/
def rdChainStep (c : Channel) (s : State) : Micro :=
  let ch := s.chan c
  match ch.rdRing with
  | .addr =>
    match ch.idxRd with
    | none => none
    | some la => some (.ok (s.setChan c { ch with laRd := la, idxRd := none, rdRing := .lookup }))
  | .lookup => some ((memRead s ch.laRd).map fun b => s.setChan c { ch with rdata := b, rdRing := .dataout })
  | .dataout =>
    match ch.doutQ with
    | some _ => none
    | none => some (.ok (s.setChan c { ch with doutQ := some ch.rdata, rdRing := .addr }))

/-! ### Read responder (R142 to R144, R162) -/

/-- The host's read found the block not driving: it sampled whatever else drives its bus (R84, spec/93 U10; log 16). -/
def unansweredRead (s : State) : State :=
  { s with sampled := s.sampled ++ [Config.freeByte s.fresh], fresh := s.fresh + 1 }

/-- The host samples `D` in the drive window: `DOUT` while the block drives the lines (R30, R143), else a free byte (log 16). -/
def hostSample (s : State) : State :=
  match s.ddir with
  | .outward => { s with sampled := s.sampled ++ [s.dout] }
  | .inward => unansweredRead s

/-- The end of the drive window: the host has sampled `D`; `DDIR <- IN` by the second pattern of `DIRPAT` (R140); `push(DONE)`
(R144). That the host's sample, which R141 puts between R143 and R144, counts as taken at this step is the model's choice
(log 39). -/
def rrClose (c : Channel) (s : State) : Except Fault State :=
  (push .done s.done ()).map fun q =>
    ({ (hostSample s).applyPattern s.dirpat.2 with done := q }).setChan c { s.chan c with rr := .wait }

/-- The read responder's next step. The drive window opens by the first pattern of `DIRPAT` (R140, R143). -/
def rrStep (c : Channel) (s : State) : Micro :=
  let ch := s.chan c
  match ch.rr with
  | .wait =>
    match ch.doutQ with
    | none => none
    | some b => some (.ok ({ s with dout := b }.setChan c { ch with doutQ := none, rr := .taken }))
  | .taken => some (.ok ((s.applyPattern s.dirpat.1).setChan c { ch with rr := .driving }))
  | .driving => some (rrClose c s)

/-! ### Write capturer (R152) -/

/-- The level of `D` as an input: what the host drives, unless the block drives too, when it is free (spec/93 U17; log 30). -/
def dataIn (s : State) : Byte := if s.ddir = .inward then s.lines.d else Config.freeByte s.fresh

/-- The write capturer's next step: sample once the index is available and the host's data is valid (R152). -/
def wcStep (c : Channel) (s : State) : Micro :=
  let ch := s.chan c
  if ch.wrRing = .datain ∧ ch.dinQ = none ∧ s.lines.dataValid = true then
    some ((push (.dinq c) ch.dinQ (dataIn s)).map fun q =>
      ({ s with fresh := if s.ddir = DataDir.inward then s.fresh else s.fresh + 1 }).setChan c
        { ch with din := dataIn s, dinQ := q })
  else none

/-! ### Write ring (R178 to R180) -/

/-- The activity counter of a store on a channel (R154): primary only, when enabled. -/
def countWrite (c : Channel) (la : Nat) (s : State) : State :=
  match c with
  | .primary => if s.cfg.wacEnabled then s.wacBump (la - s.chP.baseReg) else s
  | .secondary => s

/-- STORE: the byte, the counter, then `push(DONE)` (R180). -/
def wrStore (c : Channel) (s : State) : Except Fault State :=
  let ch := s.chan c
  match memWrite s ch.laWr ch.wdata with
  | .error f => .error f
  | .ok s1 =>
    (push .done s1.done ()).map fun q =>
      ({ countWrite c ch.laWr s1 with done := q }).setChan c { ch with wrRing := .addr }

/-- The write chain's next step. -/
def wrChainStep (c : Channel) (s : State) : Micro :=
  let ch := s.chan c
  match ch.wrRing with
  | .addr =>
    match ch.idxWr with
    | none => none
    | some la => some (.ok (s.setChan c { ch with laWr := la, idxWr := none, wrRing := .datain }))
  | .datain =>
    match ch.dinQ with
    | none => none
    | some b => some (.ok (s.setChan c { ch with wdata := b, dinQ := none, wrRing := .store }))
  | .store =>
    match s.done with
    | some _ => none
    | none => some (wrStore c s)

/-! ### The engine -/

/-- The next step of an agent of the engine. -/
def engineAgentStep (a : Agent) (s : State) : Micro :=
  match a with
  | .cls => clsStep s
  | .acu c => acuStep c s
  | .rr c => rrStep c s
  | .wc c => wcStep c s
  | .rdChain c => rdChainStep c s
  | .wrChain c => wrChainStep c s
  | .bootSeq => none

/-- The engine's agents, in the order the model asks them (log 10). -/
def engineAgents : List Agent :=
  [.cls, .acu .primary, .rdChain .primary, .rr .primary, .wrChain .primary, .wc .primary,
   .acu .secondary, .rdChain .secondary, .rr .secondary, .wrChain .secondary, .wc .secondary]

/-- One step of an agent; none while `ARMED` = 0 (R84, R110, R171) or in `B_FAULT` (R259). -/
def agentStep (a : Agent) (s : State) : Micro := if s.engineRuns then engineAgentStep a s else none

/-- One micro-step of the engine: of the first agent that has one. -/
def engineStep (s : State) : Micro := engineAgents.findSome? (fun a => agentStep a s)

/-- Up to `n` micro-steps, until no agent has one. -/
def engineRun : Nat → State → Except Fault State
  | 0, s => .ok s
  | n + 1, s =>
    match engineStep s with
    | none => .ok s
    | some (.error f) => .error f
    | some (.ok s1) => engineRun n s1

/-- More micro-steps than a bus cycle has (at most 13 from rest). -/
def engineFuel : Nat := 32

/-- The engine runs until it rests. -/
def settle (s : State) : Except Fault State := engineRun engineFuel s

/-! ### What the host does on its lines -/

/-- The host presents a cycle: lines held stable, the two `AMUX` parts in order, write data valid (R291). -/
def presentCycle (c : Channel) (d : Dir) (first second : Nat) (data : Byte) (s : State) : State :=
  { s with lines :=
      { strobe := true, chsel := chselOf c, dir := dirLevel d, amuxFirst := first, amuxSecond := second,
        d := match d with | .rd => s.lines.d | .wr => data
        dataValid := match d with | .rd => false | .wr => true } }

/-- The host ends a cycle: `STROBE` deasserted (R293). -/
def endCycle (s : State) : State := { s with lines := { s.lines with strobe := false, dataValid := false } }

/-- One bus cycle of the host, end to end (R141, R151, R161, R163): presented, served as far as the engine serves it, ended.
A cycle the engine is not ready for follows R121: it is lost, or what the lines then say is served. A read operation in which
no responder closes a drive window adds a free byte to the trace. A read that is lost while the engine finishes an earlier read
adds none of its own, the trace having gained the earlier one's: R146 and R121 leave this open, and it is the model's choice
(log 16). -/
def busCycle (c : Channel) (d : Dir) (first second : Nat) (data : Byte) (s : State) : Except Fault State :=
  match settle (presentCycle c d first second data s) with
  | .error f => .error f
  | .ok s1 =>
    match settle (endCycle s1) with
    | .error f => .error f
    | .ok s2 =>
      .ok (if d = .rd ∧ s2.sampled.length = s.sampled.length then unansweredRead s2 else s2)

/-- `HOST GLITCH` (R100, R112): the strobe is asserted, seen, and gone before the re-check. -/
def glitch (s : State) : Except Fault State :=
  let up := { s with lines := { s.lines with strobe := true } }
  match agentStep .cls up with
  | some (.error f) => .error f
  | some (.ok s1) => settle (endCycle s1)
  | none => settle (endCycle up)

/-! ### What falls between two steps of a software call (R76, R210, R295) -/

/-- The acts of the host, of the engine's agents and of power, in order; a RESET cuts the call and what was planned after
it. -/
def serveActs : List HostAct → State → Res Unit
  | [], s => .ok () s
  | .cycle c d f g x :: acts, s =>
    match busCycle c d f g x s with
    | .error e => .fault e
    | .ok s1 => serveActs acts s1
  | .glitch :: acts, s =>
    match glitch s with
    | .error e => .fault e
    | .ok s1 => serveActs acts s1
  | .lines l :: acts, s => serveActs acts { s with lines := l }
  | .agent a :: acts, s =>
    match agentStep a s with
    | none => serveActs acts s
    | some (.error e) => .fault e
    | some (.ok s1) => serveActs acts s1
  | .reset :: _, s => .cut s

/-- What happens before the next byte access or frame of a call; nothing when none is pending (log 8, log 9). -/
def raceWindow (s : State) : Res Unit :=
  match s.env.races with
  | [] => .ok () s
  | acts :: rest => serveActs acts { s with env := { s.env with races := rest } }

/-- One software byte read of `SHADOW[i]`, an atomic step (R68, R75). -/
def softRead (i : Nat) (s : State) : Res Byte :=
  (raceWindow s).bind fun _ s1 =>
    if i < s1.cfg.len then .ok (s1.shadow i) s1 else .fault (.regionIndex .primary i)

/-- One software byte write of `SHADOW[i]`; its callers are `restore`, `import` and the repair (R20). -/
def softWrite (i : Nat) (v : Byte) (s : State) : Res Unit :=
  (raceWindow s).bind fun _ s1 =>
    if i < s1.cfg.len then .ok () (s1.setCell .primary i v) else .fault (.regionIndex .primary i)

/-- `n` byte reads from index `i` on, ascending (R76). -/
def softReads : Nat → Nat → State → Res (List Byte)
  | 0, _, s => .ok [] s
  | n + 1, i, s =>
    (softRead i s).bind fun b s1 => (softReads n (i + 1) s1).bind fun bs s2 => .ok (b :: bs) s2

/-- Byte writes from index `i` on, ascending. -/
def softWrites : Nat → List Byte → State → Res Unit
  | _, [], s => .ok () s
  | i, v :: vs, s => (softWrite i v s).bind fun _ s1 => softWrites (i + 1) vs s1

end Sys2Proof.Machine
end

