-- ==== Sys2Proof/Machine/Driver.lean ====
section
/-! DEFINITION. The persistence driver (spec/47): nv_read, nv_write, restore, backup_tick, write_all_now. -/

namespace Sys2Proof.Machine

/-- `nv_read(addr, n)` (R211): one READ frame whatever n is; no frame for n = 0. -/
def nvReadOp (addr n : Nat) (s : State) : Res (List Byte) :=
  if 65536 < addr + n then .refused .nvRangeOverflow
  else if n = 0 then .ok [] s
  else xferLogged .read addr n (.read (storeAddr addr) n) s

/-- A frame of a driver call in progress: what the bus engine does before it (R210), then the exchange. -/
def driverFrame (op : XferOp) (addr n : Nat) (c : WireCmd) (s : State) : Res (List Byte) :=
  (raceWindow s).bind fun _ s1 => xferLogged op addr n c s1

/-- One chunk of a write: WREN in a frame of its own, then WRITE; a failure of either is logged and the loop goes on (R194,
R212). -/
def nvWriteChunk (addr : Nat) (p : List Byte) (s : State) : Res Unit :=
  (driverFrame .wren addr 0 .wren s).bind fun _ s1 =>
    (driverFrame .write addr p.length (.write (storeAddr addr) p) s1).bind fun _ s2 => .ok () s2

/-- The chunks in order, the address rising by 16 (R95, R212). -/
def nvWriteChunks : Nat → List (List Byte) → State → Res Unit
  | _, [], s => .ok () s
  | addr, p :: ps, s => (nvWriteChunk addr p s).bind fun _ s1 => nvWriteChunks (addr + chunk) ps s1

/-- `nv_write(addr, bytes)` (R212): ceil(L/16) pairs of frames. -/
def nvWriteOp (addr : Nat) (bytes : List Byte) (s : State) : Res Unit :=
  if 65536 < addr + bytes.length then .refused .nvRangeOverflow
  else nvWriteChunks addr (chunksOf (chunkCount bytes.length) bytes) s

/-- `NV_IMAGE_BASE` = 0 (R11, R70). -/
def nvImageBase : Nat := 0

/-- What a stride of the restore pass stores: the bytes that arrived, then `any` for the cells no byte arrived for (R215). -/
def fillStride (m : Nat) (rx : List Byte) (s : State) : List Byte × State :=
  let missing := m - rx.length
  (rx.take m ++ freeBytes s.fresh missing, { s with fresh := s.fresh + missing })

/-- One stride of the restore pass from index `i` (R214). -/
def restoreStride (i : Nat) (s : State) : Res Unit :=
  let m := chunkLen s.cfg.len i
  (raceWindow s).bind fun _ s0 =>
    (nvReadOp (nvImageBase + i) m s0).bind fun rx s1 =>
      softWrites i (fillStride m rx s1).1 (fillStride m rx s1).2

/-- `n` strides from index `i` on. -/
def restoreStrides : Nat → Nat → State → Res Unit
  | 0, _, s => .ok () s
  | n + 1, i, s => (restoreStride i s).bind fun _ s1 => restoreStrides n (i + chunk) s1

/-- `restore()` (R214): refused while armed (R62). -/
def restoreOp (s : State) : Res Unit :=
  if s.armed then .refused .softwareWriteWhileArmed
  else restoreStrides (chunkCount s.cfg.len) 0 s

/-- Read the chunk at index `i` byte by byte and persist it (R216, R218). -/
def persistChunk (i : Nat) (s : State) : Res Unit :=
  (softReads (chunkLen s.cfg.len i) i s).bind fun buf s1 => nvWriteOp (nvImageBase + i) buf s1

/-- `backup_tick()` (R216): the cursor moves first, then the chunk at the new position is persisted. -/
def backupTickOp (s : State) : Res Unit :=
  let cursor := nextCursor s.cfg.len s.cursor
  persistChunk cursor { s with cursor := cursor }

/-- `n` chunks from index `i` on (R218). -/
def sweepChunks : Nat → Nat → State → Res Unit
  | 0, _, s => .ok () s
  | n + 1, i, s => (persistChunk i s).bind fun _ s1 => sweepChunks n (i + chunk) s1

/-- `write_all_now()` (R218): the backup loop is paused for the sweep; the cursor is not touched. -/
def writeAllNowOp (s : State) : Res Unit :=
  (sweepChunks (chunkCount s.cfg.len) 0 (s.setPaused true)).bind fun _ s1 => .ok () (s1.setPaused false)

/-- nv_read (R211). -/
def execNvRead (addr : StoreAddr) (n : Nat) (s : State) : Host.Outcome State Fault Refusal :=
  finish ((nvReadOp addr.toNat n s).bind fun rx s1 => .ok (.bytes rx) s1)

/-- nv_write (R212). -/
def execNvWrite (addr : StoreAddr) (bytes : List Byte) (s : State) : Host.Outcome State Fault Refusal :=
  finish ((nvWriteOp addr.toNat bytes s).bind fun _ s1 => .ok .done s1)

/-- restore (R214). -/
def execRestore (s : State) : Host.Outcome State Fault Refusal :=
  finish ((restoreOp s).bind fun _ s1 => .ok .done s1)

/-- backup_tick (R216). -/
def execBackupTick (s : State) : Host.Outcome State Fault Refusal :=
  finish ((backupTickOp s).bind fun _ s1 => .ok .done s1)

/-- write_all_now (R218). -/
def execWriteAllNow (s : State) : Host.Outcome State Fault Refusal :=
  finish ((writeAllNowOp s).bind fun _ s1 => .ok .done s1)

end Sys2Proof.Machine
end

