-- ==== Sys2Proof/Machine/Boot.lean ====
section
/-! DEFINITION. The boot sequencer (spec/48): probe, arm (spec/45 R171), repair, boot. -/

namespace Sys2Proof.Machine

/-- The transition count of the next probe; 0 when none is pending (log 8). -/
def nextProbe (s : State) : Nat × State :=
  match s.env.probes with
  | [] => (0, s)
  | n :: ns => (n, { s with env := { s.env with probes := ns } })

/-- `probe()` (R231): the count at the end of the window against `PROBE_MAX`, strictly. The fault is raised only at boot
(R255), and nothing but RESET leaves `B_RUNNING` (R230, R237): there the call answers the fault and raises nothing (log 41). -/
def probeOp (s : State) : Res CallResult :=
  let count := (nextProbe s).1
  let s1 := { (nextProbe s).2 with probeCount := count }
  if s.cfg.probeMax < count then
    .ok (.busActivityFault count) (if s.boot = .bRunning then s1 else enterFault s1 .busActivity)
  else .ok .ok s1

/-- The platform's answer to `allocate()`: sequencer and mover identifiers; the expected sets when none is pending
(log 8). -/
def nextAlloc (s : State) : (List Nat × List Nat) × State :=
  match s.env.allocs with
  | [] => ((s.cfg.expectedSeq, s.cfg.expectedMov), s)
  | a :: as => (a, { s with env := { s.env with allocs := as } })

/-- The registers a successful `arm` writes (R171, R172). -/
def armRegisters (base : Nat) (pats : Nat × Nat) (s : State) : State :=
  State.setArmed
    { s with
      fabBase := lowBits s.cfg.localW base
      dirpat := pats
      chP := { s.chP.idled with baseReg := lowBits s.cfg.localW base }
      chS := { s.chS.idled with baseReg := lowBits s.cfg.localW s.cfg.secBaseOffset }
      done := none
      ddir := .inward
      cls := .idle }

/-- `arm(base, pats)` (R171). In `B_FAULT` the engine is not started whatever the allocation answers, because `ARMED` stays
as it is until RESET (R173, R259): the call answers `Err` and keeps the identifiers (log 20). Any other aligned base than
BASE_OFFSET is taken as it is (log 40). -/
def armOp (base : Nat) (pats : Nat × Nat) (s : State) : Res CallResult :=
  if s.armed then .refused .alreadyArmed
  else if lowBits (addrWidth s.cfg .primary) base ≠ 0 then .refused .baseMisaligned
  else
    let got := (nextAlloc s).1
    let s1 := { (nextAlloc s).2 with seqIds := got.1, movIds := got.2 }
    if sameIds got.1 s.cfg.expectedSeq && sameIds got.2 s.cfg.expectedMov then
      if s.boot = .bFault then .ok (.engineFault got.1 got.2) s1 else .ok .ok (armRegisters base pats s1)
    else .ok (.engineFault got.1 got.2) (enterFault s1 .engineArm)

/-- The sum of bytes modulo 256. -/
def sumBytes (bs : List Byte) : Byte := bs.foldl (· + ·) 0

/-- Byte `j` of `CK_FN` of a region (log 22). -/
def checksumByte (f : CkFn) (region : List Byte) (j : Nat) : Byte :=
  match f with
  | .sumBelow n => sumBytes (region.take n)
  | .uninterpreted id => Config.ckByte id region j

/-- `CK_FN` of a region: CK_LEN bytes (R236). -/
def checksum (g : Config) (region : List Byte) : List Byte :=
  (List.range g.ckLen).map (checksumByte g.ckFn region)

/-- `repair()` (R236): the field is read, recomputed from the region read byte by byte, and rewritten if it differs. It is
the one software write made while armed. -/
def repairOp (s : State) : Res Unit :=
  (softReads s.cfg.ckLen s.cfg.ckOffset s).bind fun cur s1 =>
    (softReads s1.cfg.len 0 s1).bind fun region s2 =>
      if cur = checksum s2.cfg region then .ok () s2
      else (softWrites s2.cfg.ckOffset (checksum s2.cfg region) s2).bind fun _ s3 =>
        .ok () (s3.logged .checksumFixed)

/-- One stage of the boot sequence (R230). A fatal fault has already moved `BOOT` to `B_FAULT` (R259). -/
def bootStage (s : State) : Res Unit :=
  match s.boot with
  | .bReset => .ok () { s with cursor := 0, boot := .bProbe }
  | .bProbe =>
    (probeOp s).bind fun r s1 => .ok () (if r = .ok then { s1 with boot := .bRestore } else s1)
  | .bRestore => (restoreOp s).bind fun _ s1 => .ok () { s1 with boot := .bArm }
  | .bArm =>
    (armOp s.cfg.baseOffset (s.cfg.dirpatOut, s.cfg.dirpatIn) s).bind fun r s1 =>
      .ok () (if r = .ok then { s1 with boot := .bRepair } else s1)
  | .bRepair => (repairOp s).bind fun _ s1 => .ok () { s1 with boot := .bRunning }
  | .bRunning => .ok () s
  | .bFault => .ok () s

/-- Up to `n` stages, until `B_RUNNING` or `B_FAULT`. -/
def bootRun : Nat → State → Res Unit
  | 0, s => .ok () s
  | n + 1, s => if s.boot.final then .ok () s else (bootStage s).bind fun _ s1 => bootRun n s1

/-- boot (R230): from the stage `BOOT` names to the end; nothing in `B_RUNNING` or `B_FAULT`. -/
def execBoot (s : State) : Host.Outcome State Fault Refusal :=
  finish ((bootRun 5 s).bind fun _ s1 => .ok .done s1)

/-- probe (R231). -/
def execProbe (s : State) : Host.Outcome State Fault Refusal := finish (probeOp s)

/-- arm (R171). -/
def execArm (base patOut patIn : Nat) (s : State) : Host.Outcome State Fault Refusal :=
  finish (armOp base (patOut, patIn) s)

/-- repair (R236). -/
def execRepair (s : State) : Host.Outcome State Fault Refusal :=
  finish ((repairOp s).bind fun _ s1 => .ok .done s1)

end Sys2Proof.Machine
end

