-- ==== Sys2Proof/Machine/BusCycle.lean ====
section
/-! DEFINITION. The five bus-cycle operations: PRD, PWR, SRD, SWR, NOCYC. -/

namespace Sys2Proof.Machine

/-- A bus cycle as an operation: the state after it, or the model fault it records. -/
def ofCycle (r : Except Fault State) : Host.Outcome State Fault Refusal :=
  match r with
  | .ok s => .next s
  | .error f => .fault f

/-- PRD (R141). -/
def execPrd (first second : Nat) (s : State) : Host.Outcome State Fault Refusal :=
  ofCycle (busCycle .primary .rd first second 0 s)

/-- PWR (R151). -/
def execPwr (first second : Nat) (data : Byte) (s : State) : Host.Outcome State Fault Refusal :=
  ofCycle (busCycle .primary .wr first second data s)

/-- SRD (R161). -/
def execSrd (first second : Nat) (s : State) : Host.Outcome State Fault Refusal :=
  ofCycle (busCycle .secondary .rd first second 0 s)

/-- SWR (R163). -/
def execSwr (first second : Nat) (data : Byte) (s : State) : Host.Outcome State Fault Refusal :=
  ofCycle (busCycle .secondary .wr first second data s)

/-- The host's lines with the strobe not asserted. -/
def presentNoCycle (chsel dir : Bool) (s : State) : State :=
  { s with lines := { s.lines with strobe := false, chsel := chsel, dir := dir, dataValid := false } }

/-- NOCYC (R117): at rest nothing happens; `CHSEL` and `DIR` are not looked at. A classifier that was waiting for the strobe
to go sees it gone (R112, R116). -/
def execNocyc (chsel dir : Bool) (s : State) : Host.Outcome State Fault Refusal :=
  ofCycle (settle (presentNoCycle chsel dir s))

end Sys2Proof.Machine
end

