-- ==== Sys2Proof/Machine/Service.lean ====
section
/-! DEFINITION. The debug and offline calls (spec/48): export and import. -/

namespace Sys2Proof.Machine

/-- `export()` (R240): one-byte reads, ascending. -/
def exportOp (s : State) : Res CallResult :=
  (softReads s.cfg.len 0 s).bind fun bs s1 => .ok (.ints (bs.map BitVec.toNat)) s1

/-- `import(src)` (R241): the armed check comes before the size check (R261), the size check before any copy. -/
def importOp (src : List Int) (s : State) : Res CallResult :=
  if s.armed then .refused .softwareWriteWhileArmed
  else if s.cfg.len < src.length then .ok .rejected (s.logged (.importRejected src.length))
  else (softWrites 0 (src.map byteOfInt) s).bind fun _ s1 => .ok .accepted s1

/-- The call that exports the image (R240). -/
def execExportImage (s : State) : Host.Outcome State Fault Refusal := finish (exportOp s)

/-- The call that imports an image (R241). -/
def execImportImage (src : List Int) (s : State) : Host.Outcome State Fault Refusal := finish (importOp src s)

end Sys2Proof.Machine
end

