-- ==== Sys2Proof/Machine/Wire.lean ====
section
/-! DEFINITION. The six wire commands as operations of their own: one frame each on the serial interface (spec/46). A failed
frame is logged as every failed exchange is (R224, R250; log 19). -/

namespace Sys2Proof.Machine

/-- WREN (R195). -/
def execWren (s : State) : Host.Outcome State Fault Refusal :=
  finish ((xferLogged .wren 0 0 .wren s).bind fun _ s1 => .ok .done s1)

/-- WRDI (R196). -/
def execWrdi (s : State) : Host.Outcome State Fault Refusal :=
  finish ((xferLogged .wrdi 0 0 .wrdi s).bind fun _ s1 => .ok .done s1)

/-- RDSR (R197). -/
def execRdsr (s : State) : Host.Outcome State Fault Refusal :=
  finish ((xferLogged .rdsr 0 1 .rdsr s).bind fun rx s1 => .ok (.bytes rx) s1)

/-- WRSR (R198). -/
def execWrsr (v : Byte) (s : State) : Host.Outcome State Fault Refusal :=
  finish ((xferLogged .wrsr 0 1 (.wrsr v) s).bind fun _ s1 => .ok .done s1)

/-- READ (R200). -/
def execRead (a : StoreAddr) (n : Nat) (s : State) : Host.Outcome State Fault Refusal :=
  finish ((xferLogged .read a.toNat n (.read a n) s).bind fun rx s1 => .ok (.bytes rx) s1)

/-- WRITE (R201). -/
def execWrite (a : StoreAddr) (p : List Byte) (s : State) : Host.Outcome State Fault Refusal :=
  finish ((xferLogged .write a.toNat p.length (.write a p) s).bind fun _ s1 => .ok .done s1)

end Sys2Proof.Machine
end

