-- ==== Sys2Proof/Machine/Dispatch.lean ====
section
/-! DEFINITION. One arm per operation of the opcode map (spec/30_encoding.md R96). -/

namespace Sys2Proof.Machine

/-- The effect of an instruction. -/
def exec (i : Instr) (s : State) : Host.Outcome State Fault Refusal :=
  match i with
  | .prd first second => Sys2Proof.Machine.execPrd first second s
  | .pwr first second data => Sys2Proof.Machine.execPwr first second data s
  | .srd first second => Sys2Proof.Machine.execSrd first second s
  | .swr first second data => Sys2Proof.Machine.execSwr first second data s
  | .nocyc chsel dir => Sys2Proof.Machine.execNocyc chsel dir s
  | .wren => Sys2Proof.Machine.execWren s
  | .wrdi => Sys2Proof.Machine.execWrdi s
  | .rdsr => Sys2Proof.Machine.execRdsr s
  | .wrsr v => Sys2Proof.Machine.execWrsr v s
  | .read a n => Sys2Proof.Machine.execRead a n s
  | .write a p => Sys2Proof.Machine.execWrite a p s
  | .boot => Sys2Proof.Machine.execBoot s
  | .probe => Sys2Proof.Machine.execProbe s
  | .restore => Sys2Proof.Machine.execRestore s
  | .arm base patOut patIn => Sys2Proof.Machine.execArm base patOut patIn s
  | .repair => Sys2Proof.Machine.execRepair s
  | .nvRead addr n => Sys2Proof.Machine.execNvRead addr n s
  | .nvWrite addr bytes => Sys2Proof.Machine.execNvWrite addr bytes s
  | .backupTick => Sys2Proof.Machine.execBackupTick s
  | .writeAllNow => Sys2Proof.Machine.execWriteAllNow s
  | .exportImage => Sys2Proof.Machine.execExportImage s
  | .importImage src => Sys2Proof.Machine.execImportImage src s

end Sys2Proof.Machine
end

