-- ==== Sys2Proof/Machine/Events.lean ====
section
/-! DEFINITION. The events that are no instruction (spec/30_encoding.md R100), what the block does by itself, and how a step
fetches. -/

namespace Sys2Proof.Machine

/-- The next event of the environment's script, and the state with it taken. -/
def fetch (s : State) : Option (Event × State) :=
  match s.env.events with
  | [] => none
  | e :: es => some (e, { s with env := { s.env with events := es } })

/-- `TICK` (R220): a backup step in `B_RUNNING` while not paused; otherwise dropped (R261). -/
def tick (s : State) : Host.Outcome State Fault Refusal :=
  if s.boot = .bRunning ∧ s.paused = false then execBackupTick s else .next s

/-- `SW RD i` (R75, R83, R246): one byte; the consumer has no step before `B_RUNNING` (log 26). -/
def swRead (c : Channel) (i : Nat) (s : State) : Host.Outcome State Fault Refusal :=
  if s.boot = .bRunning then
    if i < windowLen s.cfg c then .next { s with result := .bytes [s.cell c i] } else .fault (.regionIndex c i)
  else .next s

/-- `HOST GLITCH` (R112). -/
def glitchEvent (s : State) : Host.Outcome State Fault Refusal := ofCycle (glitch s)

/-- The host sets its lines. -/
def linesEvent (l : Lines) (s : State) : Host.Outcome State Fault Refusal := .next { s with lines := l }

/-- A micro-step as a step; an agent without an enabled step does nothing. -/
def ofMicro (m : Micro) (s : State) : Host.Outcome State Fault Refusal :=
  match m with
  | none => .next s
  | some (.ok s1) => .next s1
  | some (.error f) => .fault f

/-- One stage of the boot sequence as a step (R230). -/
def bootEvent (s : State) : Host.Outcome State Fault Refusal :=
  match bootStage s with
  | .ok _ s1 => .next s1
  | .cut s1 => .next (hardReset s1)
  | .fault f => .fault f
  | .refused r => .refused r

/-- One step of a named agent. -/
def agentEvent (a : Agent) (s : State) : Host.Outcome State Fault Refusal :=
  match a with
  | .bootSeq => bootEvent s
  | a => ofMicro (agentStep a s) s

/-- What the block does when the environment's script has nothing: a boot stage, which runs by itself after RESET (R230),
else one micro-step of the engine, else nothing (log 14). -/
def idle (s : State) : Host.Outcome State Fault Refusal :=
  if s.boot.final then ofMicro (engineStep s) s else bootEvent s

/-- The refusal of a packet that is no instruction (R203; log 32). -/
def refusalOf : DecodeError → Refusal
  | .unknownWireOpcode => .unknownWireOpcode
  | e => .undecodable e

/-- A packet put at the head of the script. -/
def placePacket (p : Packet) (s : State) : State :=
  { s with env := { s.env with events := .packet p :: s.env.events } }

end Sys2Proof.Machine
end

