-- ==== Sys2Proof/Machine/Step.lean ====
section
/-! DEFINITION. One step: the next event of the environment's script, or what the block does by itself. -/

namespace Sys2Proof.Machine

/-- What an event does. -/
def handle (e : Event) (s : State) : Host.Outcome State Fault Refusal :=
  match e with
  | .packet p =>
    match decode p with
    | .ok i => exec i s
    | .error err => .refused (refusalOf err)
  | .reset => .next (hardReset s)
  | .tick => tick s
  | .glitch => glitchEvent s
  | .swRead c i => swRead c i s
  | .lines l => linesEvent l s
  | .agent a => agentEvent a s

/-- One step (log 14). -/
def step (s : State) : Host.Outcome State Fault Refusal :=
  match fetch s with
  | some (e, s1) => handle e s1
  | none => idle s

/-- The state with a word of the opcode table as the next event of the script (log 14). -/
def State.withFetchWord (s : State) (nbits w : Nat) : State := placePacket (tablePacket nbits w) s

end Sys2Proof.Machine
end

