-- ==== Sys2Proof/Machine/Run.lean ====
section
/-! DEFINITION. The end of a run and what is observed there (spec/70 R302). -/

namespace Sys2Proof.Machine

/-- A channel with every queue empty and every sequencer and ring at its first step. -/
def Chan.resting (ch : Chan) : Bool :=
  ch.trigRd.isNone && ch.trigWr.isNone && ch.idxRd.isNone && ch.idxWr.isNone && ch.doutQ.isNone && ch.dinQ.isNone
    && decide (ch.rdRing = .addr) && decide (ch.wrRing = .addr) && decide (ch.acu = .wait) && decide (ch.rr = .wait)

/-- No cycle is in flight: both channels rest, no completion is pending, the data lines are inputs. -/
def State.engineAtRest (s : State) : Bool :=
  s.chP.resting && s.chS.resting && s.done.isNone && decide (s.ddir = .inward)

/-- Quiescence (R302). -/
def State.quiescent (s : State) : Bool :=
  s.boot.final && (!s.armed || decide (s.cls = .idle)) && s.engineAtRest && !s.nvSel && s.frame.isEmpty && !s.paused

/-- The script's last event has been served: nothing is left of the script, and the engine has no step left to take on what
the lines say (R302). -/
def State.eventsServed (s : State) : Bool := s.env.events.isEmpty && (engineStep s).isNone

/-- The end of a run: a quiescent state in which the script's last event has been served (R302). A model fault is no state, so
none has been recorded. -/
def State.runEnded (s : State) : Bool := s.eventsServed && s.quiescent

/-- A run of at most `n` steps: up to the first quiescent state after the script's last event, or to a model fault or a
refusal, which is never final; `none` where neither is reached (R302). -/
def runToEnd : Nat → State → Option (Host.Outcome State Fault Refusal)
  | 0, s => if s.runEnded then some (.next s) else none
  | n + 1, s =>
    if s.runEnded then some (.next s)
    else
      match step s with
      | .next t => runToEnd n t
      | .fault f => some (.fault f)
      | .refused r => some (.refused r)

/-- What is observed at the end of a run (R302). -/
structure Observed where
  shadow : List Byte
  secreg : List Byte
  nv : List Host.Cell
  cursor : Nat
  armed : Bool
  boot : BootState
  fault : FaultSet
  log : List LogEvent
  sampled : List Byte
  frames : List FrameRecord
deriving DecidableEq, Repr

/-- The observation of a state (R302). -/
def State.observed (s : State) : Observed where
  shadow := s.region
  secreg := (List.range s.cfg.secLen).map s.secreg
  nv := s.nv
  cursor := s.cursor
  armed := s.armed
  boot := s.boot
  fault := s.fault
  log := s.log
  sampled := s.sampled
  frames := s.frames

end Sys2Proof.Machine
end

