-- ==== Sys2Proof/Safety.lean ====
section
/-! DEFINITION. What claims speak of: a block that serves cycles, exclusivity (spec/40 R118), the invariants
of the memories, the cursor and the fault state. -/

namespace Sys2Proof.Machine

/-! ### The engine -/

/-- The engine may be given a cycle (R290): it runs, is in `C_IDLE` and at rest. -/
def State.ready (s : State) : Bool := s.engineRuns && decide (s.cls = .idle) && s.engineAtRest

/-- The number of marks that are set. -/
def countMarks (l : List Bool) : Nat := l.countP id

/-- Where a read cycle can be in its channel. -/
def Chan.readMarks (ch : Chan) : List Bool :=
  [ch.trigRd.isSome, decide (ch.acu ≠ .wait), ch.idxRd.isSome, decide (ch.rdRing ≠ .addr), ch.doutQ.isSome,
   decide (ch.rr ≠ .wait)]

/-- Where a write cycle can be in its channel; the data byte in `DINQ_c` accompanies the ring. -/
def Chan.writeMarks (ch : Chan) : List Bool :=
  [ch.trigWr.isSome, decide (ch.acu ≠ .wait), ch.idxWr.isSome, decide (ch.wrRing ≠ .addr)]

/-- The cycle in flight is in exactly one place of its channel, and nothing of the other direction is. -/
def Chan.inFlight (ch : Chan) (d : Dir) : Bool :=
  (decide (ch.acu = .wait) || decide (ch.akind = d)) &&
  match d with
  | .rd =>
    decide (countMarks ch.readMarks = 1) && ch.trigWr.isNone && ch.idxWr.isNone && decide (ch.wrRing = .addr)
      && ch.dinQ.isNone
  | .wr =>
    decide (countMarks ch.writeMarks = 1) && ch.trigRd.isNone && ch.idxRd.isNone && decide (ch.rdRing = .addr)
      && ch.doutQ.isNone && decide (ch.rr = .wait) && (ch.dinQ.isNone || decide (ch.wrRing = .datain))

/-- The other channel. -/
def otherChannel : Channel → Channel
  | .primary => .secondary
  | .secondary => .primary

/-- The shape of the engine between two micro-steps: at most one cycle, in one place, of the class the arbiter withholds
for (R118). -/
def State.engineShape (s : State) : Bool :=
  match s.cls with
  | .idle | .settle | .release => s.chP.resting && s.chS.resting && s.done.isNone
  | .busy k =>
    (s.chan (otherChannel k.channel)).resting &&
    match s.done with
    | some _ => (s.chan k.channel).resting
    | none => (s.chan k.channel).inFlight k.dir

/-- The lines are driven only inside the drive window of a read (R294). -/
def State.linesOk (s : State) : Bool :=
  decide (s.ddir = .inward) ||
    match s.cls with
    | .busy k => s.done.isNone && decide ((s.chan k.channel).rr = .driving)
    | .idle | .settle | .release => false

/-- The engine holds the configured direction patterns, two different ones (R11, R33). -/
def State.patternsSet (s : State) : Bool :=
  decide (s.dirpat = (s.cfg.dirpatOut, s.cfg.dirpatIn)) && decide (s.cfg.dirpatOut ≠ s.cfg.dirpatIn)

/-- The patterns turn the lines as R143 and R144 say wherever the engine may apply them: it is not armed, or it was armed with
the configured pair, as a boot does (R230). -/
def State.patternsOk (s : State) : Bool := !s.armed || s.patternsSet

/-- The shape of the engine, and with the configured patterns the direction of the data lines (R118, R294). -/
def State.engineOk (s : State) : Bool := s.engineShape && (!s.patternsOk || s.linesOk)

/-- R118: at most one trigger queue full, at most one chain away from its first ring position, at most one of the responders
and capturers active (a capturer is, while its ring waits for the data byte). -/
def State.exclusive (s : State) : Bool :=
  decide (countMarks [s.chP.trigRd.isSome, s.chP.trigWr.isSome, s.chS.trigRd.isSome, s.chS.trigWr.isSome] ≤ 1)
    && decide (countMarks [decide (s.chP.rdRing ≠ .addr), decide (s.chP.wrRing ≠ .addr), decide (s.chS.rdRing ≠ .addr),
        decide (s.chS.wrRing ≠ .addr)] ≤ 1)
    && decide (countMarks [decide (s.chP.rr ≠ .wait), decide (s.chP.wrRing = .datain), decide (s.chS.rr ≠ .wait),
        decide (s.chS.wrRing = .datain)] ≤ 1)

/-! ### Memories, cursor, fault state -/

/-- Every memory is in its canonical form, and every store address has 16 bits. -/
def State.memoriesOk (s : State) : Bool :=
  Memory.wf s.ram && Memory.wf s.nv && sparseWf 0 0 s.wac && s.nv.all (fun x => decide (x.1 < 65536))

/-- Every listed byte of local RAM lies in one of the two windows (R21). -/
def State.ramMapped (s : State) : Bool := s.ram.all (fun x => localMapped s.cfg x.1)

/-- `CURSOR` is a multiple of 16 below LEN, or 0 (R34). -/
def State.cursorOk (s : State) : Bool := decide (s.cursor % 16 = 0) && (decide (s.cursor < s.cfg.len) || decide (s.cursor = 0))

/-- `FAULT` is non-empty exactly in `B_FAULT`, and there `DDIR` is IN (R40, R259). -/
def State.faultOk (s : State) : Bool :=
  decide (s.fault.raised = true ↔ s.boot = .bFault) && decide (s.boot = .bFault → s.ddir = .inward)

/-- From the boot's repair on the engine is armed (R230, R234). -/
def State.runningArmed (s : State) : Bool := decide (s.boot = .bRepair ∨ s.boot = .bRunning → s.armed = true)

/-- Between two steps no frame is in progress and the backup loop is not paused (R36, R35). -/
def State.driverIdle (s : State) : Bool := !s.nvSel && s.frame.isEmpty && !s.paused

/-- The engine's registers fit their widths (R29, R32, R33). -/
def Chan.widthsOk (g : Config) (c : Channel) (ch : Chan) : Bool :=
  decide (ch.baseReg < 2 ^ g.localW) && decide (ch.ahi < 2 ^ ahWidth g c) && decide (ch.alo < 2 ^ alWidth g c)
    && decide (ch.laRd < 2 ^ g.localW) && decide (ch.laWr < 2 ^ g.localW)
    && (match ch.idxRd with | none => true | some la => decide (la < 2 ^ g.localW))
    && (match ch.idxWr with | none => true | some la => decide (la < 2 ^ g.localW))

/-- Every register of a parameterised width fits it. -/
def State.widthsOk (s : State) : Bool :=
  s.chP.widthsOk s.cfg .primary && s.chS.widthsOk s.cfg .secondary && decide (s.fabBase < 2 ^ s.cfg.localW)

/-! ### The environment -/

/-- Nothing is pending between the byte accesses and frames of the coming calls (a quiet host). -/
def State.hostQuiet (s : State) : Bool := s.env.races.all List.isEmpty

/-- Every coming frame works. -/
def State.serialWorks (s : State) : Bool := s.env.outcomes.all (fun o => decide (o = .ok))

/-- The next frame works. -/
def State.frameWorks (s : State) : Bool := decide (s.env.outcomes.head? = none ∨ s.env.outcomes.head? = some .ok)

/-- No RESET is pending inside a coming frame or between two steps of a coming call. -/
def State.powerStays (s : State) : Bool :=
  s.env.outcomes.all (fun o => decide (o ≠ .cut)) && s.env.races.all (fun l => l.all (fun a => decide (a ≠ .reset)))

/-- How many of the next `k` frames will not work. -/
def State.failures (s : State) (k : Nat) : Nat := (s.env.outcomes.take k).countP (fun o => decide (o ≠ .ok))

/-! ### Serving bus cycles -/

/-- The engine's base registers hold the configured windows (what a boot leaves, R171, R172). -/
def State.basesSet (s : State) : Bool :=
  decide (s.chP.baseReg = s.cfg.baseOffset) && decide (s.chS.baseReg = s.cfg.secBaseOffset)

/-- The block serves bus cycles: parameters within R11, armed on the configured windows with the configured patterns, at rest in
`C_IDLE`. -/
def State.serves (s : State) : Bool := s.cfg.wf && s.basesSet && s.patternsSet && s.ready

/-- The window address two levels of `AMUX` stand for (R94, R132, R133). -/
def cycleIndex (g : Config) (c : Channel) (first second : Nat) : Nat :=
  windowAddr g c (lowBits (ahWidth g c) first) (lowBits (alWidth g c) second)

/-- One cycle of the host (R25). -/
structure HostCycle where
  chan : Channel
  dir : Dir
  first : Nat
  second : Nat
  data : Byte
deriving DecidableEq, Repr

/-- The cycle as an operation of the opcode map. -/
def HostCycle.instr (h : HostCycle) : Instr :=
  match h.chan, h.dir with
  | .primary, .rd => .prd h.first h.second
  | .primary, .wr => .pwr h.first h.second h.data
  | .secondary, .rd => .srd h.first h.second
  | .secondary, .wr => .swr h.first h.second h.data

/-- The cell a cycle addresses. -/
def HostCycle.index (g : Config) (h : HostCycle) : Nat := cycleIndex g h.chan h.first h.second

/-- The cycle lies in its window (R292). -/
def HostCycle.inWindow (g : Config) (h : HostCycle) : Bool := decide (h.index g < windowLen g h.chan)

/-- What cell `i` of a channel holds after cycles, oldest first, if it held `b` before them: the data of the latest write
to it. -/
def latestWrite (g : Config) (c : Channel) (i : Nat) : List HostCycle → Byte → Byte
  | [], b => b
  | h :: hs, b => latestWrite g c i hs (if h.chan = c ∧ h.dir = .wr ∧ h.index g = i then h.data else b)

/-- Operations one after the other, as long as each gives a next state. -/
def execAll : List Instr → State → Host.Outcome State Fault Refusal
  | [], s => .next s
  | i :: is, s =>
    match exec i s with
    | .next t => execAll is t
    | o => o

/-! ### The boot order and the store's image -/

/-- Where a boot state stands in the order of R230, `B_FAULT` last. -/
def BootState.rank : BootState → Nat
  | .bReset => 0
  | .bProbe => 1
  | .bRestore => 2
  | .bArm => 3
  | .bRepair => 4
  | .bRunning => 5
  | .bFault => 6

/-- A state with one event at the head of the script. -/
def State.withEvent (s : State) (e : Event) : State := { s with env := { s.env with events := e :: s.env.events } }

/-- The bytes of the WREN frame and of the WRITE frame that persist payload `p` at store address `a` (R212). -/
def writePair (a : Nat) (p : List Byte) : List (List Byte) :=
  [[0x06], 0x02 :: addrHi (storeAddr a) :: addrLo (storeAddr a) :: p]

/-- `s` after the frames `l`: the serial interface is idle again, the trace has grown, their outcomes are used up. -/
def State.afterFrames (s : State) (l : List FrameRecord) : State :=
  { s with nvSel := false, frame := [], frames := s.frames ++ l
           env := { s.env with outcomes := s.env.outcomes.drop l.length } }

/-- `s` after `n` byte accesses and frames of a call between which nothing happens. -/
def State.afterAccesses (s : State) (n : Nat) : State := { s with env := { s.env with races := s.env.races.drop n } }

/-- The frames of a write, nothing received in any (R212): for each chunk of 16 bytes a WREN frame and a WRITE frame. -/
def writeFrames (addr : Nat) (bytes : List Byte) : List FrameRecord :=
  (List.range ((bytes.length + 15) / 16)).flatMap fun k =>
    (writePair (addr + 16 * k) ((bytes.drop (16 * k)).take 16)).map fun tx => ⟨tx, []⟩

/-- The region's bytes from index `i` on, `n` of them. -/
def State.shadowBytes (s : State) (i n : Nat) : List Byte := (List.range n).map fun j => s.shadow (i + j)

/-- The frames of the restore pass when every one works (R214). -/
def State.restoreFrames (s : State) : List FrameRecord :=
  (List.range ((s.cfg.len + 15) / 16)).map fun c =>
    ⟨[0x03, addrHi (storeAddr (16 * c)), addrLo (storeAddr (16 * c))],
      (List.range (min 16 (s.cfg.len - 16 * c))).map fun j => s.nvByte (16 * c + j)⟩

/-- The host does nothing between two steps of a call but whole cycles inside their windows, and glitches. -/
def State.racesInWindow (s : State) : Bool :=
  s.env.races.all fun l => l.all fun a =>
    match a with
    | .cycle c _ f g _ => decide (cycleIndex s.cfg c f g < windowLen s.cfg c)
    | .glitch => true
    | .lines _ => false
    | .agent _ => false
    | .reset => false

/-- What two states share when only a bus cycle lies between them: everything the bus engine's domain cannot touch (R264). -/
def sameSoftwareDomain (s t : State) : Prop :=
  t.cfg = s.cfg ∧ t.nv = s.nv ∧ t.wel = s.wel ∧ t.sr = s.sr ∧ t.cursor = s.cursor ∧ t.paused = s.paused ∧
    t.nvSel = s.nvSel ∧ t.frame = s.frame ∧ t.frames = s.frames ∧ t.boot = s.boot ∧ t.probeCount = s.probeCount ∧
    t.fault = s.fault ∧ t.log = s.log ∧ t.result = s.result ∧ t.env = s.env ∧ t.armed = s.armed ∧
    t.fabBase = s.fabBase ∧ t.dirpat = s.dirpat ∧ t.seqIds = s.seqIds ∧ t.movIds = s.movIds ∧
    t.chP.baseReg = s.chP.baseReg ∧ t.chS.baseReg = s.chS.baseReg

end Sys2Proof.Machine
end

