-- ==== Sys2Proof/Certificates/Slice0/Obligations.lean ====
section
/-! DEFINITION. The statements for the provers: what spec/'s rules say the operations and the machine do. -/

section

open Sys2Proof Sys2Proof.Machine

/-! ### Encoding (spec/30) -/

/-- Decoding what the encoder writes gives the instruction back (R90 to R96). -/
def Obligations.DecodeOfEncode : Prop := ∀ i : Instr, i.wf = true → decode (encode i) = .ok i

/-- No byte of a frame, no argument of a call and no bit of an asserted vector is dropped by the decoder, and what it answers
is well formed (R91, R92, R96). The data byte of a read vector is not an operand. -/
def Obligations.EncodeOfDecode : Prop :=
  (∀ tx n i, decode (.wire tx n) = .ok i → i.wf = true ∧ encode i = .wire tx n) ∧
  (∀ sel args i, decode (.call sel args) = .ok i → i.wf = true ∧ encode i = .call sel args) ∧
  (∀ v f g d, v.getLsbD 2 = true → ∃ i, decode (.bus v f g d) = .ok i ∧ i.wf = true ∧
    encode i = .bus v f g (if v.getLsbD 0 then 0 else d)) ∧
  (∀ v f g d, v.getLsbD 2 = false → decode (.bus v f g d) = .ok (.nocyc (v.getLsbD 1) (v.getLsbD 0)))

/-- Words written out from the tables of R91, R92, R96. -/
def Obligations.DecodeOfTableWords : Prop :=
  decode (.bus 0b101#3 0x7A 0x3 0) = .ok (.prd 0x7A 0x3) ∧
  decode (.bus 0b110#3 1 0 0x59) = .ok (.swr 1 0 0x59) ∧
  decode (.wire [0x02, 0x01, 0x10, 0xAA, 0xBB] 0) = .ok (.write 0x0110 [0xAA, 0xBB]) ∧
  decode (.wire [0x03, 0x00, 0x10] 16) = .ok (.read 0x0010 16) ∧
  decode (.call 0x0A [.ints [1, 2]]) = .ok (.importImage [1, 2])

/-- R203: an empty frame, and a frame that begins with none of the six opcodes, is refused; all of R98's 250 values are. -/
def Obligations.UnknownFrameRefused : Prop :=
  ∀ (s : State) (tx : List Byte) (n : Nat),
    (tx = [] ∨ ∃ op rest, tx = op :: rest ∧ op ∉ ([0x06, 0x04, 0x05, 0x01, 0x03, 0x02] : List Byte)) →
    step (s.withEvent (.packet (.wire tx n))) = .refused .unknownWireOpcode

/-! ### The step -/

/-- A packet that decodes to an instruction runs that instruction, on the state with the packet taken from the script. -/
def Obligations.StepRunsDecoded : Prop :=
  ∀ (s : State) (p : Packet) (i : Instr), decode p = .ok i → step (s.withEvent (.packet p)) = exec i s

/-- R220: a tick calls backup_tick once in `B_RUNNING` while not paused, and does nothing otherwise. -/
def Obligations.TickCallsBackup : Prop :=
  ∀ s : State,
    (s.boot = .bRunning ∧ s.paused = false → step (s.withEvent .tick) = exec .backupTick s) ∧
    (¬(s.boot = .bRunning ∧ s.paused = false) → step (s.withEvent .tick) = .next s)

/-- With nothing in the script a block whose boot has ended and whose engine does not run, or rests, does not move: the model's
choice (log 14). Where a run has ended (R302) the block therefore stays. -/
def Obligations.SilentBlockRests : Prop :=
  ∀ s : State,
    (s.env.events = [] → s.boot.final = true →
      (s.engineRuns = false ∨ (s.ready = true ∧ s.lines.strobe = false)) → step s = .next s) ∧
    (s.runEnded = true → step s = .next s)

/-! ### The engine's micro-steps (spec/40 to spec/45) -/

/-- R111, R112, R113, R114, R116: the classifier's transitions, and none while `ARMED` = 0 (R110), in `B_FAULT` (R259) or while
the arbiter withholds (R115). -/
def Obligations.ClassifierSteps : Prop :=
  ∀ s : State,
    (s.engineRuns = false → step (s.withEvent (.agent .cls)) = .next s) ∧
    (s.engineRuns = true →
      (s.cls = .idle → s.lines.strobe = true → step (s.withEvent (.agent .cls)) = .next { s with cls := .settle }) ∧
      (s.cls = .idle → s.lines.strobe = false → step (s.withEvent (.agent .cls)) = .next s) ∧
      (s.cls = .settle → s.lines.strobe = false → step (s.withEvent (.agent .cls)) = .next { s with cls := .idle }) ∧
      (s.cls = .settle → s.lines.strobe = true → s.lines.chsel = false → s.lines.dir = true → s.chP.trigRd = none →
        step (s.withEvent (.agent .cls)) = .next { s with cls := .busy .prd, chP := { s.chP with trigRd := some () } }) ∧
      (s.cls = .settle → s.lines.strobe = true → s.lines.chsel = false → s.lines.dir = false → s.chP.trigWr = none →
        step (s.withEvent (.agent .cls)) = .next { s with cls := .busy .pwr, chP := { s.chP with trigWr := some () } }) ∧
      (s.cls = .settle → s.lines.strobe = true → s.lines.chsel = true → s.lines.dir = true → s.chS.trigRd = none →
        step (s.withEvent (.agent .cls)) = .next { s with cls := .busy .srd, chS := { s.chS with trigRd := some () } }) ∧
      (s.cls = .settle → s.lines.strobe = true → s.lines.chsel = true → s.lines.dir = false → s.chS.trigWr = none →
        step (s.withEvent (.agent .cls)) = .next { s with cls := .busy .swr, chS := { s.chS with trigWr := some () } }) ∧
      (∀ k, s.cls = .busy k → s.done = none → step (s.withEvent (.agent .cls)) = .next s) ∧
      (∀ k, s.cls = .busy k → s.done = some () →
        step (s.withEvent (.agent .cls)) = .next { s with done := none, cls := .release }) ∧
      (s.cls = .release → s.lines.strobe = true → step (s.withEvent (.agent .cls)) = .next s) ∧
      (s.cls = .release → s.lines.strobe = false → step (s.withEvent (.agent .cls)) = .next { s with cls := .idle }))

/-- R131, R132, R133, R134, R135: the address capture unit of a channel, from its trigger to the local address it emits.
Where the unit is between these rules is the model's own position `acu` (log 11). -/
def Obligations.CaptureSteps : Prop :=
  ∀ (s : State) (c : Channel), s.engineRuns = true →
    ((s.chan c).acu = .wait → (s.chan c).trigRd = some () → (s.chan c).trigWr = none →
      step (s.withEvent (.agent (.acu c))) =
        .next (s.setChan c { s.chan c with trigRd := none, akind := .rd, acu := .high })) ∧
    ((s.chan c).acu = .wait → (s.chan c).trigRd = none → (s.chan c).trigWr = some () →
      step (s.withEvent (.agent (.acu c))) =
        .next (s.setChan c { s.chan c with trigWr := none, akind := .wr, acu := .high })) ∧
    ((s.chan c).acu = .high →
      step (s.withEvent (.agent (.acu c))) =
        .next (s.setChan c { s.chan c with ahi := s.lines.amuxFirst % 2 ^ ahWidth s.cfg c, acu := .low })) ∧
    ((s.chan c).acu = .low → ∀ addr,
      addr = ((s.chan c).ahi <<< alWidth s.cfg c) ||| (s.lines.amuxSecond % 2 ^ alWidth s.cfg c) →
      (addr < windowLen s.cfg c →
        step (s.withEvent (.agent (.acu c))) =
          .next (s.setChan c { s.chan c with alo := s.lines.amuxSecond % 2 ^ alWidth s.cfg c, acu := .emit })) ∧
      (windowLen s.cfg c ≤ addr → step (s.withEvent (.agent (.acu c))) = .fault (.indexOutOfRange c addr))) ∧
    ((s.chan c).acu = .emit → ∀ la,
      la = ((s.chan c).baseReg ||| (((s.chan c).ahi <<< alWidth s.cfg c) ||| (s.chan c).alo)) % 2 ^ s.cfg.localW →
      ((s.chan c).akind = .rd → (s.chan c).idxRd = none →
        step (s.withEvent (.agent (.acu c))) = .next (s.setChan c { s.chan c with idxRd := some la, acu := .wait })) ∧
      ((s.chan c).akind = .wr → (s.chan c).idxWr = none →
        step (s.withEvent (.agent (.acu c))) = .next (s.setChan c { s.chan c with idxWr := some la, acu := .wait })))

/-- R175, R176, R177 (the read ring) and R142, R143, R144 with R140 and R33 (the read responder and the two patterns of `DIRPAT`)
of a channel. Where the responder is between its rules is the model's own position `rr` (log 11). The host's sample joins the
trace of R302 with R144's step, the model's choice (log 39); it is free where a pattern other than `DIRPAT_OUT` left the lines
undriven (logs 16, 31). -/
def Obligations.ReadRingSteps : Prop :=
  (∀ g : Config, g.dirpatOut ≠ g.dirpatIn → patternDir g g.dirpatOut = .outward ∧ patternDir g g.dirpatIn = .inward) ∧
  ∀ (s : State) (c : Channel), s.engineRuns = true →
    (∀ la, (s.chan c).rdRing = .addr → (s.chan c).idxRd = some la →
      step (s.withEvent (.agent (.rdChain c))) =
        .next (s.setChan c { s.chan c with laRd := la, idxRd := none, rdRing := .lookup })) ∧
    ((s.chan c).rdRing = .lookup → localMapped s.cfg (s.chan c).laRd = true →
      step (s.withEvent (.agent (.rdChain c))) =
        .next (s.setChan c { s.chan c with rdata := Memory.read s.ram (s.chan c).laRd, rdRing := .dataout })) ∧
    ((s.chan c).rdRing = .dataout → (s.chan c).doutQ = none →
      step (s.withEvent (.agent (.rdChain c))) =
        .next (s.setChan c { s.chan c with doutQ := some (s.chan c).rdata, rdRing := .addr })) ∧
    (∀ b, (s.chan c).rr = .wait → (s.chan c).doutQ = some b →
      step (s.withEvent (.agent (.rr c))) =
        .next ({ s with dout := b }.setChan c { s.chan c with doutQ := none, rr := .taken })) ∧
    ((s.chan c).rr = .taken →
      step (s.withEvent (.agent (.rr c))) =
        .next ({ s with ddir := patternDir s.cfg s.dirpat.1 }.setChan c { s.chan c with rr := .driving })) ∧
    ((s.chan c).rr = .driving → s.done = none → s.ddir = .outward →
      step (s.withEvent (.agent (.rr c))) =
        .next ({ s with
          ddir := patternDir s.cfg s.dirpat.2, sampled := s.sampled ++ [s.dout], done := some () }.setChan c
            { s.chan c with rr := .wait })) ∧
    ((s.chan c).rr = .driving → s.done = none → s.ddir = .inward →
      step (s.withEvent (.agent (.rr c))) =
        .next ({ s with
          ddir := patternDir s.cfg s.dirpat.2, sampled := s.sampled ++ [Config.freeByte s.fresh], fresh := s.fresh + 1
          done := some () }.setChan c { s.chan c with rr := .wait }))

/-- R178, R179, R180 with R154 (the write ring) and R152 (the write capturer) of a channel. -/
def Obligations.WriteRingSteps : Prop :=
  ∀ (s : State) (c : Channel), s.engineRuns = true →
    (∀ la, (s.chan c).wrRing = .addr → (s.chan c).idxWr = some la →
      step (s.withEvent (.agent (.wrChain c))) =
        .next (s.setChan c { s.chan c with laWr := la, idxWr := none, wrRing := .datain })) ∧
    ((s.chan c).wrRing = .datain → (s.chan c).dinQ = none → s.lines.dataValid = true → s.ddir = .inward →
      step (s.withEvent (.agent (.wc c))) =
        .next (s.setChan c { s.chan c with din := s.lines.d, dinQ := some s.lines.d })) ∧
    ((s.chan c).wrRing = .datain → s.lines.dataValid = false → step (s.withEvent (.agent (.wc c))) = .next s) ∧
    (∀ b, (s.chan c).wrRing = .datain → (s.chan c).dinQ = some b →
      step (s.withEvent (.agent (.wrChain c))) =
        .next (s.setChan c { s.chan c with wdata := b, dinQ := none, wrRing := .store })) ∧
    ((s.chan c).wrRing = .store → s.done = none → localMapped s.cfg (s.chan c).laWr = true →
      step (s.withEvent (.agent (.wrChain c))) =
        .next ({ s with
          ram := Memory.write s.ram (s.chan c).laWr (s.chan c).wdata
          wac := if c = Channel.primary ∧ s.cfg.wacEnabled = true then
              sparseWrite 0 s.wac (s.chP.laWr - s.chP.baseReg)
                ((sparseRead 0 s.wac (s.chP.laWr - s.chP.baseReg) + 1) % 2 ^ s.cfg.wacW)
            else s.wac
          done := some () }.setChan c { s.chan c with wrRing := .addr }))

/-! ### Bus cycles end to end -/

/-- R141: PRD with its whole effect. The host samples `SHADOW[addr]`; nothing outside the listed fields changes. -/
def Obligations.PrimaryReadServed : Prop :=
  ∀ (s : State) (f g i : Nat), s.serves = true → i = cycleIndex s.cfg .primary f g → i < s.cfg.len →
    exec (.prd f g) s = .next
      { s with
        lines := { strobe := false, chsel := false, dir := true, amuxFirst := f, amuxSecond := g, d := s.lines.d
                   dataValid := false }
        dout := s.shadow i
        sampled := s.sampled ++ [s.shadow i]
        chP := { s.chP with
          ahi := f % 2 ^ s.cfg.ahW, alo := g % 2 ^ s.cfg.alW, akind := .rd, laRd := s.cfg.baseOffset + i
          rdata := s.shadow i } }

/-- R161: SRD with its whole effect. -/
def Obligations.SecondaryReadServed : Prop :=
  ∀ (s : State) (f g i : Nat), s.serves = true → i = cycleIndex s.cfg .secondary f g → i < s.cfg.secLen →
    exec (.srd f g) s = .next
      { s with
        lines := { strobe := false, chsel := true, dir := true, amuxFirst := f, amuxSecond := g, d := s.lines.d
                   dataValid := false }
        dout := s.secreg i
        sampled := s.sampled ++ [s.secreg i]
        chS := { s.chS with
          ahi := f % 2 ^ s.cfg.secAhW, alo := g % 2 ^ s.cfg.secAlW, akind := .rd, laRd := s.cfg.secBaseOffset + i
          rdata := s.secreg i } }

/-- R151 with R154: PWR with its whole effect. One cell of local RAM and, when counted, one activity counter change. -/
def Obligations.PrimaryWriteServed : Prop :=
  ∀ (s : State) (f g i : Nat) (b : Byte), s.serves = true → s.memoriesOk = true →
    i = cycleIndex s.cfg .primary f g → i < s.cfg.len →
    ∃ m w, exec (.pwr f g b) s = .next
        { s with
          lines := { strobe := false, chsel := false, dir := false, amuxFirst := f, amuxSecond := g, d := b
                     dataValid := false }
          ram := m
          wac := w
          chP := { s.chP with
            ahi := f % 2 ^ s.cfg.ahW, alo := g % 2 ^ s.cfg.alW, akind := .wr, laWr := s.cfg.baseOffset + i
            din := b, wdata := b } } ∧
      (∀ la, Memory.read m la = if la = s.cfg.baseOffset + i then b else Memory.read s.ram la) ∧
      (∀ j, sparseRead 0 w j =
        if s.cfg.wacEnabled = true ∧ j = i then (sparseRead 0 s.wac i + 1) % 2 ^ s.cfg.wacW else sparseRead 0 s.wac j)

/-- R163: SWR with its whole effect; `WAC` is not touched. -/
def Obligations.SecondaryWriteServed : Prop :=
  ∀ (s : State) (f g i : Nat) (b : Byte), s.serves = true → s.memoriesOk = true →
    i = cycleIndex s.cfg .secondary f g → i < s.cfg.secLen →
    ∃ m, exec (.swr f g b) s = .next
        { s with
          lines := { strobe := false, chsel := true, dir := false, amuxFirst := f, amuxSecond := g, d := b
                     dataValid := false }
          ram := m
          chS := { s.chS with
            ahi := f % 2 ^ s.cfg.secAhW, alo := g % 2 ^ s.cfg.secAlW, akind := .wr, laWr := s.cfg.secBaseOffset + i
            din := b, wdata := b } } ∧
      (∀ la, Memory.read m la = if la = s.cfg.secBaseOffset + i then b else Memory.read s.ram la)

/-- R117: without the strobe a resting block changes nothing but the levels the host gave its lines. -/
def Obligations.NoCycleChangesNothing : Prop :=
  ∀ (s : State) (c d : Bool), (s.engineRuns = false ∨ s.ready = true) →
    exec (.nocyc c d) s =
      .next { s with lines := { s.lines with strobe := false, chsel := c, dir := d, dataValid := false } }

/-- R135: a cycle outside its window is the model fault of that rule, with the channel and the address. -/
def Obligations.OutOfWindowFaults : Prop :=
  ∀ (s : State) (h : HostCycle), s.serves = true → h.inWindow s.cfg = false →
    exec h.instr s = .fault (.indexOutOfRange h.chan (h.index s.cfg))

/-- R84, R259: while `ARMED` = 0, or in `B_FAULT`, a cycle changes nothing of the block; a read samples a free byte (log 16). -/
def Obligations.UnarmedCyclesIgnored : Prop :=
  ∀ (s : State) (h : HostCycle) (l : Lines), s.engineRuns = false →
    l = { strobe := false, chsel := decide (h.chan = .secondary), dir := decide (h.dir = .rd), amuxFirst := h.first
          amuxSecond := h.second, d := if h.dir = .rd then s.lines.d else h.data, dataValid := false } →
    (h.dir = .wr → exec h.instr s = .next { s with lines := l }) ∧
    (h.dir = .rd → exec h.instr s = .next
      { s with lines := l, sampled := s.sampled ++ [Config.freeByte s.fresh], fresh := s.fresh + 1 })

/-- R112: a glitch is dropped without trace. -/
def Obligations.GlitchDropped : Prop :=
  ∀ s : State, s.ready = true →
    step (s.withEvent .glitch) = .next { s with lines := { s.lines with strobe := false, dataValid := false } }

/-- R116, R119: with the strobe stuck after a served cycle no agent of the engine has a step, silently. R302: a run in which the
strobe sticks has no end state, however many steps it takes. -/
def Obligations.StuckStrobeStalls : Prop :=
  (∀ (s : State) (a : Agent), s.cls = .release → s.lines.strobe = true → s.engineAtRest = true → a ≠ .bootSeq →
    step (s.withEvent (.agent a)) = .next s) ∧
  (∀ (s t : State) (n : Nat), s.engineRuns = true → s.boot = .bRunning → s.env.events = [] → s.lines.strobe = true →
    runToEnd n s ≠ some (.next t))

/-- R118, which the spec derives from R114 to R116, and R294, derived from R143, R144, R115: every step keeps the shape of
the engine, and with it exclusivity, for all interleavings of its agents; and unless the engine was armed with other patterns
than the configured pair (log 31) the data lines are inputs whenever `CLS` is not `C_BUSY` of a read class. -/
def Obligations.ExclusivityKept : Prop :=
  ∀ s t : State, step s = .next t →
    (s.engineShape = true → t.engineShape = true ∧ t.exclusive = true) ∧
    (s.engineOk = true → t.engineOk = true ∧
      (t.patternsOk = true → t.cls ≠ .busy .prd → t.cls ≠ .busy .srd → t.ddir = .inward))

/-- The two model faults of the queues cannot arise while the shape of the engine holds (R28; R181, which the
spec derives from R175 to R180). -/
def Obligations.QueuesNeverMisused : Prop :=
  ∀ (s : State) (a : Agent) (q : QueueName), s.engineShape = true →
    agentStep a s ≠ some (.error (.queueOverflow q)) ∧ agentStep a s ≠ some (.error (.queueUnderflow q))

/-- R73, which the spec derives from R115 and R180: after any in-window cycles a read samples what the latest write to its
cell stored, or what the cell held before. -/
def Obligations.ReadsLatestWrite : Prop :=
  ∀ (s : State) (cs : List HostCycle) (h : HostCycle), s.serves = true → s.memoriesOk = true →
    (∀ x ∈ cs, x.inWindow s.cfg = true) → h.inWindow s.cfg = true → h.dir = .rd →
    ∃ t u, execAll (cs.map HostCycle.instr) s = .next t ∧ exec h.instr t = .next u ∧ u.serves = true ∧
      u.sampled = t.sampled ++ [latestWrite s.cfg h.chan (h.index s.cfg) cs (s.cell h.chan (h.index s.cfg))]

/-- R264: whatever state it starts in, a bus cycle touches nothing of the software domain. -/
def Obligations.BusEngineIsolated : Prop :=
  ∀ s t : State,
    (∀ h : HostCycle, exec h.instr s = .next t → sameSoftwareDomain s t) ∧
    (∀ c d, exec (.nocyc c d) s = .next t → sameSoftwareDomain s t)

/-! ### The serial store (spec/46) -/

/-- R195, R196: WREN sets and WRDI clears the latch, one frame each, nothing else. -/
def Obligations.LatchCommands : Prop :=
  ∀ s : State, s.frameWorks = true →
    exec .wren s = .next { s.afterFrames [⟨[0x06], []⟩] with wel := true, result := .done } ∧
    exec .wrdi s = .next { s.afterFrames [⟨[0x04], []⟩] with wel := false, result := .done }

/-- R197: RDSR answers `SR` and writes nothing. -/
def Obligations.ReadStatusCommand : Prop :=
  ∀ s : State, s.frameWorks = true →
    exec .rdsr s = .next { s.afterFrames [⟨[0x05], [s.sr]⟩] with result := .bytes [s.sr] }

/-- R198: after WRSR `SR` is a free value, the latch is kept or cleared (log 17), nothing else changes. -/
def Obligations.WriteStatusCommand : Prop :=
  ∀ (s : State) (v : Byte), s.frameWorks = true →
    ∃ sr w k, exec (.wrsr v) s =
        .next { s.afterFrames [⟨[0x01, v], []⟩] with sr := sr, wel := w, fresh := k, result := .done } ∧
      (w = true → s.wel = true)

/-- R200: READ answers the `n` cells from `a` on, wrapping at the top, and writes nothing. -/
def Obligations.ReadMemoryCommand : Prop :=
  ∀ (s : State) (a : StoreAddr) (n : Nat) (rx : List Byte), s.frameWorks = true → 1 ≤ n →
    rx = (List.range n).map (fun k => s.nvByte ((a.toNat + k) % 65536)) →
    exec (.read a n) s =
      .next { s.afterFrames [⟨[0x03, addrHi a, addrLo a], rx⟩] with result := .bytes rx }

/-- R201: with the latch set WRITE stores its payload from `a` on, wrapping at the top, changes no other cell, and clears the
latch. -/
def Obligations.WriteMemoryCommand : Prop :=
  ∀ (s : State) (a : StoreAddr) (p : List Byte), s.frameWorks = true → s.memoriesOk = true → s.wel = true →
    p.length ≤ 65536 →
    ∃ m, exec (.write a p) s =
        .next { s.afterFrames [⟨0x02 :: addrHi a :: addrLo a :: p, []⟩] with nv := m, wel := false, result := .done } ∧
      (∀ k (hk : k < p.length), Memory.read m ((a.toNat + k) % 65536) = p[k]) ∧
      (∀ x, (∀ k < p.length, x ≠ (a.toNat + k) % 65536) → Memory.read m x = s.nvByte x)

/-- R201 whatever the latch held: WRITE ends with the latch clear and changes no cell outside its range. What it does inside
the range with the latch clear is not said: no claim may rest on R202 (log 33). -/
def Obligations.WriteClearsLatch : Prop :=
  ∀ (s : State) (a : StoreAddr) (p : List Byte), s.frameWorks = true → s.memoriesOk = true →
    ∃ m, exec (.write a p) s =
        .next { s.afterFrames [⟨0x02 :: addrHi a :: addrLo a :: p, []⟩] with nv := m, wel := false, result := .done } ∧
      (∀ x, (∀ k < p.length, x ≠ (a.toNat + k) % 65536) → Memory.read m x = s.nvByte x)

/-- R205, R191 on READ: the store is unchanged, fewer than `n` bytes arrive, the failure is logged. -/
def Obligations.FailedRead : Prop :=
  ∀ (s : State) (a : StoreAddr) (n : Nat) (rx : List Byte), 1 ≤ n →
    (s.env.outcomes.head? = some (.short rx) →
      exec (.read a n) s =
        .next { s.afterFrames [⟨[0x03, addrHi a, addrLo a], rx.take (n - 1)⟩] with
          log := s.log ++ [.transportFail .read a.toNat n], result := .bytes (rx.take (n - 1)) }) ∧
    (s.env.outcomes.head? = some .fail →
      exec (.read a n) s =
        .next { s.afterFrames [⟨[0x03, addrHi a, addrLo a], []⟩] with
          log := s.log ++ [.transportFail .read a.toNat n], result := .bytes [] })

/-- R205 on WRITE: each cell of the frame's range holds its old value or the payload byte, no other cell changes, the latch is
`any`, and the failure is logged. -/
def Obligations.FailedWriteOldOrNew : Prop :=
  ∀ (s : State) (a : StoreAddr) (p rx : List Byte), s.memoriesOk = true → p.length ≤ 65536 →
    (s.env.outcomes.head? = some .fail ∨ s.env.outcomes.head? = some (.short rx)) →
    ∃ m w k, exec (.write a p) s =
        .next { s.afterFrames [⟨0x02 :: addrHi a :: addrLo a :: p, []⟩] with
          nv := m, wel := w, fresh := k, log := s.log ++ [.transportFail .write a.toNat p.length], result := .done } ∧
      (∀ j (hj : j < p.length), Memory.read m ((a.toNat + j) % 65536) = s.nvByte ((a.toNat + j) % 65536) ∨
        Memory.read m ((a.toNat + j) % 65536) = p[j]) ∧
      (∀ x, (∀ j < p.length, x ≠ (a.toNat + j) % 65536) → Memory.read m x = s.nvByte x)

/-- R205 on WREN and WRDI: only the latch, which is `any`, and the log. The log entries of a bare WREN (address 0, length 0) and
of WRDI (under a name of its own) are the model's (log 19). -/
def Obligations.FailedLatchCommand : Prop :=
  ∀ (s : State) (rx : List Byte),
    (s.env.outcomes.head? = some .fail ∨ s.env.outcomes.head? = some (.short rx)) →
    (∃ w k, exec .wren s = .next { s.afterFrames [⟨[0x06], []⟩] with
        wel := w, fresh := k, log := s.log ++ [.transportFail .wren 0 0], result := .done }) ∧
    (∃ w k, exec .wrdi s = .next { s.afterFrames [⟨[0x04], []⟩] with
        wel := w, fresh := k, log := s.log ++ [.transportFail .wrdi 0 0], result := .done })

/-! ### The persistence driver (spec/47) -/

/-- R211: nv_read in each of its cases: no frame for n = 0, one READ frame whatever n is, a failure logged and the short
result handed over, the call past 0xFFFF refused. -/
def Obligations.DriverRead : Prop :=
  ∀ (s : State) (a : StoreAddr) (n : Nat),
    (65536 < a.toNat + n → exec (.nvRead a n) s = .refused .nvRangeOverflow) ∧
    (n = 0 → exec (.nvRead a n) s = .next { s with result := .bytes [] }) ∧
    (1 ≤ n → a.toNat + n ≤ 65536 →
      (∀ rx, s.frameWorks = true → rx = (List.range n).map (fun k => s.nvByte (a.toNat + k)) →
        exec (.nvRead a n) s =
          .next { s.afterFrames [⟨[0x03, addrHi a, addrLo a], rx⟩] with result := .bytes rx }) ∧
      (∀ rx, s.env.outcomes.head? = some (.short rx) →
        exec (.nvRead a n) s =
          .next { s.afterFrames [⟨[0x03, addrHi a, addrLo a], rx.take (n - 1)⟩] with
            log := s.log ++ [.transportFail .read a.toNat n], result := .bytes (rx.take (n - 1)) }) ∧
      (s.env.outcomes.head? = some .fail →
        exec (.nvRead a n) s =
          .next { s.afterFrames [⟨[0x03, addrHi a, addrLo a], []⟩] with
            log := s.log ++ [.transportFail .read a.toNat n], result := .bytes [] }))

/-- R213 (a), (b), (c), which the spec derives from R212, and R224: whatever the frames' outcomes, nv_write sends exactly the
pairs of R212 in order and every failed frame leaves exactly one log entry; with a quiet host nothing outside the store and the
log changes. Bus cycles that fall between its frames (R210) change none of this. -/
def Obligations.DriverWriteFrames : Prop :=
  ∀ (s : State) (a : StoreAddr) (bytes : List Byte), s.powerStays = true → s.driverIdle = true →
    a.toNat + bytes.length ≤ 65536 →
    (s.hostQuiet = true →
      ∃ m w k lg, exec (.nvWrite a bytes) s =
          .next { (s.afterFrames (writeFrames a.toNat bytes)).afterAccesses (2 * ((bytes.length + 15) / 16)) with
            nv := m, wel := w, fresh := k, log := s.log ++ lg, result := .done } ∧
        lg.length = s.failures (2 * ((bytes.length + 15) / 16)) ∧
        (∀ e ∈ lg, ∃ op addr n, e = .transportFail op addr n)) ∧
    (s.serves = true → s.racesInWindow = true →
      ∃ t lg, exec (.nvWrite a bytes) s = .next t ∧ t.serves = true ∧
        t.frames = s.frames ++ writeFrames a.toNat bytes ∧ t.log = s.log ++ lg ∧
        lg.length = s.failures (2 * ((bytes.length + 15) / 16)))

/-- R213 (d), (e), which the spec derives from R212, R195, R201: with a working store the bytes stand in `NV` from `addr` on,
no other cell has changed, and the latch is clear if anything was sent, also when bus cycles fall between the frames (R210);
past 0xFFFF the call is refused (R212). -/
def Obligations.DriverWriteStores : Prop :=
  ∀ (s : State) (a : StoreAddr) (bytes : List Byte),
    (65536 < a.toNat + bytes.length → exec (.nvWrite a bytes) s = .refused .nvRangeOverflow) ∧
    (s.serialWorks = true → s.driverIdle = true → s.memoriesOk = true → a.toNat + bytes.length ≤ 65536 →
      ∃ m,
        (s.hostQuiet = true → exec (.nvWrite a bytes) s =
          .next { (s.afterFrames (writeFrames a.toNat bytes)).afterAccesses (2 * ((bytes.length + 15) / 16)) with
            nv := m, wel := if bytes = [] then s.wel else false, result := .done }) ∧
        (s.serves = true → s.racesInWindow = true → ∃ t, exec (.nvWrite a bytes) s = .next t ∧ t.nv = m ∧
          t.wel = if bytes = [] then s.wel else false) ∧
        (∀ j (hj : j < bytes.length), Memory.read m (a.toNat + j) = bytes[j]) ∧
        (∀ x, x < a.toNat ∨ a.toNat + bytes.length ≤ x → Memory.read m x = s.nvByte x))

/-- R214: with a working store and a quiet host restore copies `NV[0 .. LEN-1]` into `SHADOW`, in strides of 16, and changes
nothing else of local RAM; while armed it is refused (R62). -/
def Obligations.RestoreCopiesImage : Prop :=
  ∀ s : State,
    (s.armed = true → exec .restore s = .refused .softwareWriteWhileArmed) ∧
    (s.armed = false → s.cfg.wf = true → s.serialWorks = true → s.hostQuiet = true → s.driverIdle = true →
      s.memoriesOk = true →
      ∃ m, exec .restore s =
          .next { (s.afterFrames s.restoreFrames).afterAccesses (s.cfg.len + (s.cfg.len + 15) / 16) with
            ram := m, result := .done } ∧
        (∀ i < s.cfg.len, Memory.read m (s.cfg.baseOffset + i) = s.nvByte i) ∧
        (∀ la, la < s.cfg.baseOffset ∨ s.cfg.baseOffset + s.cfg.len ≤ la → Memory.read m la = Memory.read s.ram la))

/-- R215: failed strides do not stop restore; the bytes that arrived are stored, a stride whose frame worked is whole, one log
entry per failure, and no byte outside `SHADOW` changes. -/
def Obligations.RestoreBestEffort : Prop :=
  ∀ s : State, s.armed = false → s.cfg.wf = true → s.powerStays = true → s.hostQuiet = true → s.driverIdle = true →
    s.memoriesOk = true →
    ∃ m k lg frs, exec .restore s =
        .next { (s.afterFrames frs).afterAccesses (s.cfg.len + (s.cfg.len + 15) / 16) with
          ram := m, fresh := k, log := s.log ++ lg, result := .done } ∧
      frs.length = (s.cfg.len + 15) / 16 ∧
      lg.length = s.failures ((s.cfg.len + 15) / 16) ∧
      (∀ c j, 16 * c + j < s.cfg.len → j < 16 →
        ((s.env.outcomes[c]? = none ∨ s.env.outcomes[c]? = some .ok) →
          Memory.read m (s.cfg.baseOffset + (16 * c + j)) = s.nvByte (16 * c + j)) ∧
        (∀ rx b, s.env.outcomes[c]? = some (.short rx) → j + 1 < min 16 (s.cfg.len - 16 * c) → rx[j]? = some b →
          Memory.read m (s.cfg.baseOffset + (16 * c + j)) = b)) ∧
      (∀ la, la < s.cfg.baseOffset ∨ s.cfg.baseOffset + s.cfg.len ≤ la → Memory.read m la = Memory.read s.ram la)

/-- R216: the cursor moves first, then the chunk at its new position is persisted by one WREN and one WRITE frame. -/
def Obligations.BackupTickPersists : Prop :=
  ∀ (s : State) (c n : Nat), s.cfg.wf = true → s.serialWorks = true → s.hostQuiet = true → s.memoriesOk = true →
    c = (if s.cfg.len ≤ s.cursor + 16 then 0 else s.cursor + 16) → n = min 16 (s.cfg.len - c) →
    ∃ m, exec .backupTick s =
        .next { (s.afterFrames ((writePair c (s.shadowBytes c n)).map fun tx => ⟨tx, []⟩)).afterAccesses (n + 2) with
          cursor := c, nv := m, wel := false, result := .done } ∧
      (∀ j < n, Memory.read m (c + j) = s.shadow (c + j)) ∧
      (∀ x, x < c ∨ c + n ≤ x → Memory.read m x = s.nvByte x)

/-- R217, which the spec derives from R216: ceil(LEN/16) ticks persist every chunk exactly once and bring the cursor back. -/
def Obligations.CursorCoverage : Prop :=
  ∀ (s : State) (n : Nat), s.cfg.wf = true → s.hostQuiet = true → s.powerStays = true → s.driverIdle = true →
    s.cursorOk = true → n = (s.cfg.len + 15) / 16 →
    ∃ (t : State) (order : List Nat), execAll (List.replicate n .backupTick) s = .next t ∧ t.cursor = s.cursor ∧
      order.Perm (List.range n) ∧
      t.frames.map FrameRecord.tx = s.frames.map FrameRecord.tx ++
        order.flatMap (fun c => writePair (16 * c) (s.shadowBytes (16 * c) (min 16 (s.cfg.len - 16 * c))))

/-- R218: write_all_now persists the whole region in ascending chunks; `CURSOR` and `PAUSED` end as they were between two
ticks. -/
def Obligations.FullSweepPersists : Prop :=
  ∀ s : State, s.cfg.wf = true → s.serialWorks = true → s.hostQuiet = true → s.driverIdle = true → s.memoriesOk = true →
    ∃ m, exec .writeAllNow s =
        .next { (s.afterFrames (writeFrames 0 (s.shadowBytes 0 s.cfg.len))).afterAccesses
            (s.cfg.len + 2 * ((s.cfg.len + 15) / 16)) with
          nv := m, wel := false, result := .done } ∧
      (∀ i < s.cfg.len, Memory.read m i = s.shadow i) ∧
      (∀ x, s.cfg.len ≤ x → Memory.read m x = s.nvByte x)

/-- R219, which the spec derives from R213, R214, R218: a full sweep, a reset and a restore give `SHADOW` back. -/
def Obligations.RoundTripIdentity : Prop :=
  ∀ s : State, s.cfg.wf = true → s.serialWorks = true → s.hostQuiet = true → s.memoriesOk = true →
    ∃ t u v, exec .writeAllNow s = .next t ∧ step (t.withEvent .reset) = .next u ∧ exec .restore u = .next v ∧
      ∀ i < s.cfg.len, v.shadow i = s.shadow i

/-- R222, R68, R76, R210: with bus cycles falling between its byte reads and frames a backup tick persists, for every index, the
byte the cell held or one that a racing cycle wrote to that very index before the byte was read. -/
def Obligations.RacingBackupNotTorn : Prop :=
  ∀ (s : State) (c n : Nat), s.serves = true → s.memoriesOk = true → s.racesInWindow = true → s.powerStays = true →
    c = (if s.cfg.len ≤ s.cursor + 16 then 0 else s.cursor + 16) → n = min 16 (s.cfg.len - c) →
    ∃ (t : State) (bs : List Byte), exec .backupTick s = .next t ∧ bs.length = n ∧
      t.frames.map FrameRecord.tx = s.frames.map FrameRecord.tx ++ writePair c bs ∧
      ∀ j b, bs[j]? = some b → b = s.shadow (c + j) ∨
        ∃ acts ∈ s.env.races.take (j + 1), ∃ f g, HostAct.cycle .primary .wr f g b ∈ acts ∧ cycleIndex s.cfg .primary f g = c + j

/-! ### Boot, arming, repair (spec/45, spec/48) -/

/-- R231, R232: the probe compares strictly; a pass changes only its count, a failure enters the fault state, where
`DDIR` is IN (R255, R259). In `B_RUNNING`, which only RESET leaves (R230, R237), a failure is answered and nothing is raised
(log 41). -/
def Obligations.ProbeVerdict : Prop :=
  ∀ (s : State) (n : Nat), n = s.env.probes.headD 0 →
    (n ≤ s.cfg.probeMax →
      exec .probe s = .next { s with env := { s.env with probes := s.env.probes.tail }, probeCount := n, result := .ok }) ∧
    (s.cfg.probeMax < n → s.boot ≠ .bRunning →
      exec .probe s = .next
        { s with env := { s.env with probes := s.env.probes.tail }, probeCount := n, boot := .bFault
                 ddir := .inward, fault := { s.fault with busActivity := true }, result := .busActivityFault n }) ∧
    (s.cfg.probeMax < n → s.boot = .bRunning →
      exec .probe s = .next
        { s with env := { s.env with probes := s.env.probes.tail }, probeCount := n, result := .busActivityFault n })

/-- R171, R172: a successful arm, outside the fault state (R173). The units' positions `acu` and `rr`, which it puts at the first,
are the model's own (log 11). -/
def Obligations.ArmConfigures : Prop :=
  ∀ (s : State) (base o i : Nat) (seqs movs : List Nat), s.cfg.wf = true → s.armed = false → s.boot ≠ .bFault →
    base < 2 ^ s.cfg.localW →
    base % 2 ^ (s.cfg.ahW + s.cfg.alW) = 0 →
    (seqs, movs) = s.env.allocs.headD (s.cfg.expectedSeq, s.cfg.expectedMov) →
    (∀ x, x ∈ seqs ↔ x ∈ s.cfg.expectedSeq) → (∀ x, x ∈ movs ↔ x ∈ s.cfg.expectedMov) →
    exec (.arm base o i) s = .next
      { s with
        env := { s.env with allocs := s.env.allocs.tail }
        seqIds := seqs, movIds := movs, fabBase := base, dirpat := (o, i)
        chP := { s.chP with
          baseReg := base, rdRing := .addr, wrRing := .addr, trigRd := none, trigWr := none, idxRd := none, idxWr := none
          doutQ := none, dinQ := none, acu := .wait, rr := .wait }
        chS := { s.chS with
          baseReg := s.cfg.secBaseOffset, rdRing := .addr, wrRing := .addr, trigRd := none, trigWr := none, idxRd := none
          idxWr := none, doutQ := none, dinQ := none, acu := .wait, rr := .wait }
        done := none, ddir := .inward, cls := .idle, armed := true, result := .ok }

/-- R173, R251, R259: a failed allocation enters the fault state and does nothing else of `arm`; and in the fault state no arm
starts the engine, whatever the allocation: `ARMED` stays 0 until RESET (R173), the answer is `Err` (log 20). -/
def Obligations.ArmFailureHalts : Prop :=
  ∀ (s : State) (base o i : Nat) (seqs movs : List Nat), s.armed = false →
    base % 2 ^ (s.cfg.ahW + s.cfg.alW) = 0 →
    (seqs, movs) = s.env.allocs.headD (s.cfg.expectedSeq, s.cfg.expectedMov) →
    (¬((∀ x, x ∈ seqs ↔ x ∈ s.cfg.expectedSeq) ∧ (∀ x, x ∈ movs ↔ x ∈ s.cfg.expectedMov)) →
      exec (.arm base o i) s = .next
        { s with
          env := { s.env with allocs := s.env.allocs.tail }
          seqIds := seqs, movIds := movs, boot := .bFault, ddir := .inward, fault := { s.fault with engineArm := true }
          result := .engineFault seqs movs }) ∧
    ((∀ x, x ∈ seqs ↔ x ∈ s.cfg.expectedSeq) → (∀ x, x ∈ movs ↔ x ∈ s.cfg.expectedMov) → s.boot = .bFault →
      exec (.arm base o i) s = .next
        { s with
          env := { s.env with allocs := s.env.allocs.tail }
          seqIds := seqs, movIds := movs, result := .engineFault seqs movs })

/-- R171, R66: arm is refused while armed, and with a base whose low A_W bits are not zero. -/
def Obligations.ArmRefusals : Prop :=
  ∀ (s : State) (base o i : Nat),
    (s.armed = true → exec (.arm base o i) s = .refused .alreadyArmed) ∧
    (s.armed = false → base % 2 ^ (s.cfg.ahW + s.cfg.alW) ≠ 0 → exec (.arm base o i) s = .refused .baseMisaligned)

/-- R236: with a quiet host a consistent field is left alone and nothing is logged; an inconsistent one is rewritten, and only
it, and logged. -/
def Obligations.RepairFixesField : Prop :=
  ∀ (s : State) (cur want : List Byte), s.cfg.wf = true → s.hostQuiet = true → s.memoriesOk = true →
    cur = s.shadowBytes s.cfg.ckOffset s.cfg.ckLen → want = checksum s.cfg (s.shadowBytes 0 s.cfg.len) →
    (cur = want → exec .repair s = .next { s.afterAccesses (s.cfg.ckLen + s.cfg.len) with result := .done }) ∧
    (cur ≠ want → ∃ m,
      exec .repair s = .next { s.afterAccesses (s.cfg.ckLen + s.cfg.len + s.cfg.ckLen) with
        ram := m, log := s.log ++ [.checksumFixed], result := .done } ∧
      (∀ j b, want[j]? = some b → Memory.read m (s.cfg.baseOffset + (s.cfg.ckOffset + j)) = b) ∧
      (∀ la, la < s.cfg.baseOffset + s.cfg.ckOffset ∨ s.cfg.baseOffset + (s.cfg.ckOffset + s.cfg.ckLen) ≤ la →
        Memory.read m la = Memory.read s.ram la))

/-- R230: a boot with a passing probe and a full allocation (one the platform answers, or the default of log 8) reaches
`B_RUNNING`, armed on the configured windows, whatever the store answers; with a working store `SHADOW` equals the image
outside the checksum field. -/
def Obligations.BootReachesRunning : Prop :=
  ∀ (s : State) (seqs movs : List Nat), s.boot = .bReset → s.armed = false → s.cfg.wf = true → s.hostQuiet = true →
    s.powerStays = true → s.memoriesOk = true → s.env.probes.headD 0 ≤ s.cfg.probeMax →
    (seqs, movs) = s.env.allocs.headD (s.cfg.expectedSeq, s.cfg.expectedMov) →
    (∀ x, x ∈ seqs ↔ x ∈ s.cfg.expectedSeq) → (∀ x, x ∈ movs ↔ x ∈ s.cfg.expectedMov) →
    ∃ (t : State) (m : List Host.Cell) (k : Nat) (lg : List LogEvent) (frs : List FrameRecord) (e : Env),
      exec .boot s = .next t ∧ t.serves = true ∧
      t = { s with
        env := e, ram := m, fresh := k, log := s.log ++ lg, frames := s.frames ++ frs, nvSel := false, frame := []
        cursor := 0, boot := .bRunning, probeCount := s.env.probes.headD 0
        seqIds := seqs, movIds := movs, fabBase := s.cfg.baseOffset
        dirpat := (s.cfg.dirpatOut, s.cfg.dirpatIn)
        chP := { s.chP.idled with baseReg := s.cfg.baseOffset }
        chS := { s.chS.idled with baseReg := s.cfg.secBaseOffset }
        done := none, ddir := .inward, cls := .idle, armed := true, result := .done } ∧
      e.events = s.env.events ∧
      frs.map FrameRecord.tx = s.restoreFrames.map FrameRecord.tx ∧
      (∀ la, la < s.cfg.baseOffset ∨ s.cfg.baseOffset + s.cfg.len ≤ la → Memory.read m la = Memory.read s.ram la) ∧
      (s.serialWorks = true → ∀ i < s.cfg.len, i < s.cfg.ckOffset ∨ s.cfg.ckOffset + s.cfg.ckLen ≤ i →
        Memory.read m (s.cfg.baseOffset + i) = s.nvByte i)

/-- R232: a boot that faults in the probe touches neither the store nor `SHADOW`, and does not arm. -/
def Obligations.BootProbeFault : Prop :=
  ∀ (s : State) (n : Nat), s.boot = .bReset → s.env.probes.head? = some n → s.cfg.probeMax < n →
    exec .boot s = .next
      { s with env := { s.env with probes := s.env.probes.tail }, cursor := 0, probeCount := n, boot := .bFault
               ddir := .inward, fault := { s.fault with busActivity := true }, result := .done }

/-- R235: a boot that faults in arm ends in `B_FAULT`, not armed, with the restored image and no repair. -/
def Obligations.BootArmFault : Prop :=
  ∀ (s : State) (seqs movs : List Nat), s.boot = .bReset → s.armed = false → s.cfg.wf = true → s.hostQuiet = true →
    s.serialWorks = true → s.driverIdle = true → s.memoriesOk = true → s.env.probes.headD 0 ≤ s.cfg.probeMax →
    s.env.allocs.head? = some (seqs, movs) →
    ¬((∀ x, x ∈ seqs ↔ x ∈ s.cfg.expectedSeq) ∧ (∀ x, x ∈ movs ↔ x ∈ s.cfg.expectedMov)) →
    ∃ (m : List Host.Cell) (e : Env), exec .boot s = .next
        { s with
          env := e, ram := m, frames := s.frames ++ s.restoreFrames, cursor := 0, probeCount := s.env.probes.headD 0
          seqIds := seqs, movIds := movs, boot := .bFault, ddir := .inward
          fault := { s.fault with engineArm := true }, result := .done } ∧
      e.events = s.env.events ∧
      (∀ i < s.cfg.len, Memory.read m (s.cfg.baseOffset + i) = s.nvByte i) ∧
      (∀ la, la < s.cfg.baseOffset ∨ s.cfg.baseOffset + s.cfg.len ≤ la → Memory.read m la = Memory.read s.ram la)

/-- R230, R237, R40, R41, R173, R174: without a RESET no step moves `BOOT` backwards or out of `B_RUNNING` (where the engine is
armed, `ControlStateKept`), takes a cause out of `FAULT`, disarms the engine, arms it in `B_FAULT`, or shortens the log. -/
def Obligations.OnlyResetUndoes : Prop :=
  ∀ s t : State, s.powerStays = true → s.env.events.head? ≠ some .reset → step s = .next t →
    s.boot.rank ≤ t.boot.rank ∧ (s.boot = .bRunning → s.armed = true → t.boot = .bRunning) ∧ (s.fault.engineArm = true → t.fault.engineArm = true) ∧
    (s.fault.busActivity = true → t.fault.busActivity = true) ∧ (s.armed = true → t.armed = true) ∧
    (s.boot = .bFault → t.armed = s.armed) ∧ s.log <+: t.log

/-- R52, R280, R281: RESET from any state: every field R52 gives a value, `NV` and `SR` kept. The fields it calls unspecified
are not mentioned. `engineAtRest` says R52's rows for the queues and rings, and that the model's own positions `acu` and `rr` are
at their first (log 11). R52 itself marks its rows for `DDIR` and `FAULT` as inferred and those for `WEL` and `SR` as general
knowledge (log 33). -/
def Obligations.ResetValues : Prop :=
  ∀ s : State, ∃ t, step (s.withEvent .reset) = .next t ∧ t.nv = s.nv ∧ t.sr = s.sr ∧ t.wel = false ∧ t.cls = .idle ∧
    t.engineAtRest = true ∧ t.ddir = .inward ∧ t.armed = false ∧ t.cursor = 0 ∧ t.paused = false ∧ t.nvSel = false ∧
    t.frame = [] ∧ t.boot = .bReset ∧ t.probeCount = 0 ∧ t.fault = ⟨false, false⟩ ∧ t.log = [] ∧
    ∀ i, sparseRead 0 t.wac i = 0

/-! ### Service calls (spec/48) -/

/-- R240: with a quiet host export answers every cell in order and changes nothing. -/
def Obligations.ExportAnswersRegion : Prop :=
  ∀ s : State, s.hostQuiet = true →
    exec .exportImage s = .next { s.afterAccesses s.cfg.len with
      result := .ints ((List.range s.cfg.len).map fun i => (s.shadow i).toNat) }

/-- R241, R253, R261 (and R242, which the spec derives from R241): import is refused while armed, rejected whole when too
long, and otherwise writes the first n cells, each element modulo 256, and no other. -/
def Obligations.ImportGuard : Prop :=
  ∀ (s : State) (src : List Int),
    (s.armed = true → exec (.importImage src) s = .refused .softwareWriteWhileArmed) ∧
    (s.armed = false → s.cfg.len < src.length →
      exec (.importImage src) s = .next { s with log := s.log ++ [.importRejected src.length], result := .rejected }) ∧
    (s.armed = false → src.length ≤ s.cfg.len → s.hostQuiet = true → s.memoriesOk = true →
      ∃ m, exec (.importImage src) s = .next { s.afterAccesses src.length with ram := m, result := .accepted } ∧
        (∀ (i : Nat) (z : Int), src[i]? = some z → ((Memory.read m (s.cfg.baseOffset + i)).toNat : Int) = z % 256) ∧
        (∀ la, la < s.cfg.baseOffset ∨ s.cfg.baseOffset + src.length ≤ la → Memory.read m la = Memory.read s.ram la))

/-- R75, R83: a software read in `B_RUNNING` answers the cell and changes nothing else; before, the consumer has no step, and in
`B_FAULT` the model gives it none either (log 26). -/
def Obligations.SoftwareReads : Prop :=
  ∀ (s : State) (c : Channel) (i : Nat),
    (s.boot = .bRunning → i < windowLen s.cfg c →
      step (s.withEvent (.swRead c i)) = .next { s with result := .bytes [s.cell c i] }) ∧
    (s.boot ≠ .bRunning → step (s.withEvent (.swRead c i)) = .next s)

/-! ### Invariants of every step -/

/-- Every memory keeps its canonical form, and `NV` its 16-bit addresses. -/
def Obligations.MemoriesStayCanonical : Prop := ∀ s t : State, s.memoriesOk = true → step s = .next t → t.memoriesOk = true

/-- R34, R36, R35, R40, R234, R238, R259: the cursor stays a multiple of 16 in range, `FAULT` is non-empty exactly in `B_FAULT`,
where `DDIR` is IN, no frame and no pause outlives its call, the parameters never change, and from the boot's repair on the engine
is armed. -/
def Obligations.ControlStateKept : Prop :=
  ∀ s t : State, s.cursorOk = true → s.faultOk = true → s.driverIdle = true → step s = .next t →
    t.cursorOk = true ∧ t.faultOk = true ∧ t.driverIdle = true ∧ t.cfg = s.cfg ∧
      (s.runningArmed = true → t.runningArmed = true)

/-- R29, R32, R33: every register of a parameterised width keeps to it. -/
def Obligations.RegisterWidthsKept : Prop := ∀ s t : State, s.widthsOk = true → step s = .next t → t.widthsOk = true

/-- Those invariants, the form of the memories and the shape of the engine hold after reset. -/
def Obligations.InvariantsAtReset : Prop :=
  State.reset.engineOk = true ∧ State.reset.patternsOk = true ∧ State.reset.exclusive = true ∧
    State.reset.runningArmed = true ∧ State.reset.memoriesOk = true ∧
    State.reset.cursorOk = true ∧ State.reset.faultOk = true ∧ State.reset.driverIdle = true ∧
    State.reset.cfg.wf = true ∧ State.reset.widthsOk = true

end
end

