-- ==== Sys2Proof/Laws/Memory.lean ====
section
/-! SUPPORT. Read after write, and the canonical form kept, for every memory operation. -/

namespace Sys2Proof.Machine

/-! ### Sparse memories -/

section Sparse

variable {α : Type} {d : α}

@[simp] theorem sparseRead_nil (a : Nat) : sparseRead d [] a = d := rfl

theorem sparseRead_cons (b : Nat) (w : α) (r : List (Nat × α)) (a : Nat) :
    sparseRead d ((b, w) :: r) a = if a = b then w else sparseRead d r a := rfl

variable [DecidableEq α]

@[simp] theorem sparseWf_nil (lo : Nat) : sparseWf d lo [] = true := rfl

theorem sparseWf_cons {lo a : Nat} {v : α} {r : List (Nat × α)} :
    sparseWf d lo ((a, v) :: r) = true ↔ lo ≤ a ∧ v ≠ d ∧ sparseWf d (a + 1) r = true := by
  simp [sparseWf, and_assoc]

theorem sparseWf_mono {lo lo' : Nat} {m : List (Nat × α)} (h : sparseWf d lo m = true) (hl : lo' ≤ lo) :
    sparseWf d lo' m = true := by
  cases m with
  | nil => rfl
  | cons x r =>
    obtain ⟨a, v⟩ := x
    rw [sparseWf_cons] at h ⊢
    exact ⟨hl.trans h.1, h.2⟩

theorem sparseRead_below {lo a : Nat} {m : List (Nat × α)} (h : sparseWf d lo m = true) (ha : a < lo) :
    sparseRead d m a = d := by
  induction m generalizing lo with
  | nil => rfl
  | cons x r ih =>
    obtain ⟨b, v⟩ := x
    rw [sparseWf_cons] at h
    rw [sparseRead_cons, if_neg (by omega)]
    exact ih h.2.2 (by omega)

theorem sparseRead_write_same {lo a : Nat} {v : α} {m : List (Nat × α)} (h : sparseWf d lo m = true) :
    sparseRead d (sparseWrite d m a v) a = v := by
  induction m generalizing lo with
  | nil =>
    by_cases hv : v = d
    · simp [sparseWrite, hv]
    · simp [sparseWrite, hv, sparseRead_cons]
  | cons x r ih =>
    obtain ⟨b, w⟩ := x
    rw [sparseWf_cons] at h
    unfold sparseWrite
    by_cases hab : a < b
    · by_cases hv : v = d
      · rw [if_pos hab, if_pos hv, sparseRead_cons, if_neg (by omega), hv]
        exact sparseRead_below h.2.2 (by omega)
      · rw [if_pos hab, if_neg hv, sparseRead_cons, if_pos rfl]
    · by_cases hb : a = b
      · by_cases hv : v = d
        · rw [if_neg hab, if_pos hb, if_pos hv, hv]
          exact sparseRead_below h.2.2 (by omega)
        · rw [if_neg hab, if_pos hb, if_neg hv, sparseRead_cons, if_pos rfl]
      · rw [if_neg hab, if_neg hb, sparseRead_cons, if_neg hb]
        exact ih h.2.2

theorem sparseRead_write_other {a x : Nat} {v : α} {m : List (Nat × α)} (hx : x ≠ a) :
    sparseRead d (sparseWrite d m a v) x = sparseRead d m x := by
  induction m with
  | nil =>
    by_cases hv : v = d
    · simp [sparseWrite, hv]
    · simp [sparseWrite, hv, sparseRead_cons, hx]
  | cons y r ih =>
    obtain ⟨b, w⟩ := y
    unfold sparseWrite
    by_cases hab : a < b
    · by_cases hv : v = d
      · rw [if_pos hab, if_pos hv]
      · rw [if_pos hab, if_neg hv, sparseRead_cons, if_neg hx]
    · by_cases hb : a = b
      · by_cases hv : v = d
        · rw [if_neg hab, if_pos hb, if_pos hv, sparseRead_cons, if_neg (by omega)]
        · rw [if_neg hab, if_pos hb, if_neg hv, sparseRead_cons, if_neg hx, sparseRead_cons, if_neg (by omega)]
      · rw [if_neg hab, if_neg hb, sparseRead_cons, sparseRead_cons, ih]

theorem sparseWrite_wf {lo a : Nat} {v : α} {m : List (Nat × α)} (h : sparseWf d lo m = true) (ha : lo ≤ a) :
    sparseWf d lo (sparseWrite d m a v) = true := by
  induction m generalizing lo with
  | nil =>
    by_cases hv : v = d
    · simp [sparseWrite, hv]
    · simp [sparseWrite, hv, sparseWf_cons, ha]
  | cons y r ih =>
    obtain ⟨b, w⟩ := y
    have h' := sparseWf_cons.1 h
    unfold sparseWrite
    by_cases hab : a < b
    · by_cases hv : v = d
      · rwa [if_pos hab, if_pos hv]
      · rw [if_pos hab, if_neg hv, sparseWf_cons]
        exact ⟨ha, hv, sparseWf_cons.2 ⟨hab, h'.2⟩⟩
    · by_cases hb : a = b
      · by_cases hv : v = d
        · rw [if_neg hab, if_pos hb, if_pos hv]
          exact sparseWf_mono h'.2.2 (by omega)
        · rw [if_neg hab, if_pos hb, if_neg hv, sparseWf_cons]
          exact ⟨ha, hv, hb ▸ h'.2.2⟩
      · rw [if_neg hab, if_neg hb, sparseWf_cons]
        exact ⟨h'.1, h'.2.1, ih h'.2.2 (by omega)⟩

/-- Equal memories are equal data. -/
theorem sparse_ext {lo : Nat} {m m' : List (Nat × α)} (h : sparseWf d lo m = true) (h' : sparseWf d lo m' = true)
    (hr : ∀ a, sparseRead d m a = sparseRead d m' a) : m = m' := by
  induction m generalizing lo m' with
  | nil =>
    cases m' with
    | nil => rfl
    | cons y r =>
      obtain ⟨b, w⟩ := y
      have h2 := sparseWf_cons.1 h'
      have := hr b
      rw [sparseRead_cons, if_pos rfl] at this
      exact absurd this.symm h2.2.1
  | cons x r ih =>
    obtain ⟨a, v⟩ := x
    have h1 := sparseWf_cons.1 h
    cases m' with
    | nil =>
      have := hr a
      rw [sparseRead_cons, if_pos rfl] at this
      exact absurd this h1.2.1
    | cons y r' =>
      obtain ⟨b, w⟩ := y
      have h2 := sparseWf_cons.1 h'
      have hab : a = b := by
        rcases Nat.lt_trichotomy a b with hlt | heq | hgt
        · have := hr a
          rw [sparseRead_cons, if_pos rfl, sparseRead_cons, if_neg (by omega),
            sparseRead_below h2.2.2 (by omega)] at this
          exact absurd this h1.2.1
        · exact heq
        · have := hr b
          rw [sparseRead_cons, if_neg (by omega), sparseRead_below h1.2.2 (by omega), sparseRead_cons,
            if_pos rfl] at this
          exact absurd this.symm h2.2.1
      subst hab
      have hvw : v = w := by
        have := hr a
        rwa [sparseRead_cons, if_pos rfl, sparseRead_cons, if_pos rfl] at this
      subst hvw
      have : r = r' := by
        refine ih h1.2.2 h2.2.2 fun c => ?_
        by_cases hc : c = a
        · subst hc
          rw [sparseRead_below h1.2.2 (by omega), sparseRead_below h2.2.2 (by omega)]
        · have := hr c
          rwa [sparseRead_cons, if_neg hc, sparseRead_cons, if_neg hc] at this
      rw [this]

end Sparse

/-! ### Byte memories -/

@[simp] theorem memory_read_nil (a : Nat) : Memory.read [] a = Memory.unlisted := rfl

@[simp] theorem memory_wf_nil : Memory.wf [] = true := rfl

theorem memory_read_write_same {m : List Host.Cell} (h : Memory.wf m = true) (a : Nat) (v : Byte) :
    Memory.read (Memory.write m a v) a = v := sparseRead_write_same h

theorem memory_read_write_other (m : List Host.Cell) {a x : Nat} (hx : x ≠ a) (v : Byte) :
    Memory.read (Memory.write m a v) x = Memory.read m x := sparseRead_write_other hx

theorem memory_write_wf {m : List Host.Cell} (h : Memory.wf m = true) (a : Nat) (v : Byte) :
    Memory.wf (Memory.write m a v) = true := sparseWrite_wf h (Nat.zero_le a)

theorem memory_read_write {m : List Host.Cell} (h : Memory.wf m = true) (a x : Nat) (v : Byte) :
    Memory.read (Memory.write m a v) x = if x = a then v else Memory.read m x := by
  by_cases hx : x = a
  · rw [if_pos hx, hx, memory_read_write_same h]
  · rw [if_neg hx, memory_read_write_other m hx]

theorem memory_ext {m m' : List Host.Cell} (h : Memory.wf m = true) (h' : Memory.wf m' = true)
    (hr : ∀ a, Memory.read m a = Memory.read m' a) : m = m' := sparse_ext h h' hr

theorem memory_writeList_wf (bs : List Byte) {m : List Host.Cell} (h : Memory.wf m = true) (a : Nat) :
    Memory.wf (Memory.writeList m a bs) = true := by
  induction bs generalizing m a with
  | nil => exact h
  | cons b bs ih => exact ih (memory_write_wf h a b) (a + 1)

theorem memory_read_writeList_outside (bs : List Byte) (m : List Host.Cell) {a x : Nat}
    (hx : x < a ∨ a + bs.length ≤ x) : Memory.read (Memory.writeList m a bs) x = Memory.read m x := by
  induction bs generalizing m a with
  | nil => rfl
  | cons b bs ih =>
    simp only [List.length_cons] at hx
    rw [Memory.writeList, ih _ (by omega), memory_read_write_other _ (by omega)]

theorem memory_read_writeList (bs : List Byte) {m : List Host.Cell} (h : Memory.wf m = true) (a j : Nat)
    (hj : j < bs.length) : Memory.read (Memory.writeList m a bs) (a + j) = bs[j] := by
  induction bs generalizing m a j with
  | nil => simp at hj
  | cons b bs ih =>
    rw [Memory.writeList]
    cases j with
    | zero =>
      rw [memory_read_writeList_outside _ _ (by omega), Nat.add_zero, memory_read_write_same h]
      rfl
    | succ k =>
      have := ih (memory_write_wf h a b) (a + 1) k (by simpa using hj)
      rw [show a + (k + 1) = a + 1 + k by omega, this]
      rfl

/-! ### Stores into `NV` -/

theorem nvStore_wf (bs : List Byte) {m : List Host.Cell} (h : Memory.wf m = true) (a : Nat) :
    Memory.wf (nvStore m a bs) = true := by
  induction bs generalizing m a with
  | nil => exact h
  | cons b bs ih => exact ih (memory_write_wf h _ b) (a + 1)

theorem nvStoreMaybe_wf (bs : List Byte) {m : List Host.Cell} (h : Memory.wf m = true) (a k : Nat) :
    Memory.wf (nvStoreMaybe m a k bs) = true := by
  induction bs generalizing m a k with
  | nil => exact h
  | cons b bs ih => exact ih (memory_write_wf h _ _) (a + 1) (k + 1)

/-- Inside the address space a WRITE is a plain sequence of stores. -/
theorem nvStore_eq_writeList (bs : List Byte) (m : List Host.Cell) {a : Nat} (ha : a + bs.length ≤ 65536) :
    nvStore m a bs = Memory.writeList m a bs := by
  induction bs generalizing m a with
  | nil => rfl
  | cons b bs ih =>
    simp only [List.length_cons] at ha
    rw [nvStore, Memory.writeList, Nat.mod_eq_of_lt (by omega), ih _ (by omega)]

/-- A WRITE leaves every cell outside the frame's range as it was. -/
theorem nvStore_outside (bs : List Byte) (m : List Host.Cell) (a x : Nat)
    (hx : ∀ j < bs.length, x ≠ (a + j) % 65536) : Memory.read (nvStore m a bs) x = Memory.read m x := by
  induction bs generalizing m a with
  | nil => rfl
  | cons b bs ih =>
    rw [nvStore, ih _ _ (fun j hj => by
      have := hx (j + 1) (by simpa using hj)
      rwa [show a + (j + 1) = a + 1 + j by omega] at this)]
    exact memory_read_write_other _ (by simpa using hx 0 (by simp)) _

/-- A WRITE leaves its payload in the frame's range, wrapping at the top. -/
theorem nvStore_inside (bs : List Byte) {m : List Host.Cell} (h : Memory.wf m = true) (a j : Nat)
    (hj : j < bs.length) (hl : bs.length ≤ 65536) : Memory.read (nvStore m a bs) ((a + j) % 65536) = bs[j] := by
  induction bs generalizing m a j with
  | nil => simp at hj
  | cons b bs ih =>
    simp only [List.length_cons] at hl hj
    rw [nvStore]
    cases j with
    | zero =>
      rw [nvStore_outside _ _ _ _ (fun j hj => by omega), Nat.add_zero, memory_read_write_same h]
      rfl
    | succ i =>
      have := ih (memory_write_wf h (a % 65536) b) (a + 1) i (by omega) (by omega)
      rw [show a + 1 + i = a + (i + 1) by omega] at this
      simpa using this

/-- A failed WRITE leaves every cell outside the frame's range as it was. -/
theorem nvStoreMaybe_outside (bs : List Byte) (m : List Host.Cell) (a k x : Nat)
    (hx : ∀ j < bs.length, x ≠ (a + j) % 65536) : Memory.read (nvStoreMaybe m a k bs) x = Memory.read m x := by
  induction bs generalizing m a k with
  | nil => rfl
  | cons b bs ih =>
    rw [nvStoreMaybe, ih _ _ _ (fun j hj => by
      have := hx (j + 1) (by simpa using hj)
      rwa [show a + (j + 1) = a + 1 + j by omega] at this)]
    exact memory_read_write_other _ (by simpa using hx 0 (by simp)) _

/-- A failed WRITE leaves every cell of the frame's range old or new, wrapping at the top (R205). -/
theorem nvStoreMaybe_old_or_new (bs : List Byte) {m : List Host.Cell} (h : Memory.wf m = true) (a k j : Nat)
    (hj : j < bs.length) (hl : bs.length ≤ 65536) :
    Memory.read (nvStoreMaybe m a k bs) ((a + j) % 65536) = Memory.read m ((a + j) % 65536) ∨
      Memory.read (nvStoreMaybe m a k bs) ((a + j) % 65536) = bs[j] := by
  induction bs generalizing m a k j with
  | nil => simp at hj
  | cons b bs ih =>
    simp only [List.length_cons] at hl hj
    rw [nvStoreMaybe]
    cases j with
    | zero =>
      rw [nvStoreMaybe_outside _ _ _ _ _ (fun j hj => by omega), Nat.add_zero, memory_read_write_same h]
      split_ifs <;> simp
    | succ i =>
      have := ih (memory_write_wf h (a % 65536) (if Config.freeBit k then b else Memory.read m (a % 65536)))
        (a + 1) (k + 1) i (by omega) (by omega)
      rw [show a + 1 + i = a + (i + 1) by omega,
        memory_read_write_other (x := (a + (i + 1)) % 65536) _ (by omega)] at this
      simpa using this

end Sys2Proof.Machine
end

