-- ==== Sys2Proof/Laws/State.lean ====
section
/-! SUPPORT. One lemma per field per named update of the state, true by rfl. -/

namespace Sys2Proof.Machine

/-! ### setArmed -/

@[simp] theorem setArmed_cfg (s : State) : s.setArmed.cfg = s.cfg := rfl
@[simp] theorem setArmed_ram (s : State) : s.setArmed.ram = s.ram := rfl
@[simp] theorem setArmed_nv (s : State) : s.setArmed.nv = s.nv := rfl
@[simp] theorem setArmed_wel (s : State) : s.setArmed.wel = s.wel := rfl
@[simp] theorem setArmed_sr (s : State) : s.setArmed.sr = s.sr := rfl
@[simp] theorem setArmed_cls (s : State) : s.setArmed.cls = s.cls := rfl
@[simp] theorem setArmed_done (s : State) : s.setArmed.done = s.done := rfl
@[simp] theorem setArmed_chP (s : State) : s.setArmed.chP = s.chP := rfl
@[simp] theorem setArmed_chS (s : State) : s.setArmed.chS = s.chS := rfl
@[simp] theorem setArmed_ddir (s : State) : s.setArmed.ddir = s.ddir := rfl
@[simp] theorem setArmed_dout (s : State) : s.setArmed.dout = s.dout := rfl
@[simp] theorem setArmed_fabBase (s : State) : s.setArmed.fabBase = s.fabBase := rfl
@[simp] theorem setArmed_dirpat (s : State) : s.setArmed.dirpat = s.dirpat := rfl
@[simp] theorem setArmed_armed (s : State) : s.setArmed.armed = true := rfl
@[simp] theorem setArmed_seqIds (s : State) : s.setArmed.seqIds = s.seqIds := rfl
@[simp] theorem setArmed_movIds (s : State) : s.setArmed.movIds = s.movIds := rfl
@[simp] theorem setArmed_cursor (s : State) : s.setArmed.cursor = s.cursor := rfl
@[simp] theorem setArmed_paused (s : State) : s.setArmed.paused = s.paused := rfl
@[simp] theorem setArmed_nvSel (s : State) : s.setArmed.nvSel = s.nvSel := rfl
@[simp] theorem setArmed_frame (s : State) : s.setArmed.frame = s.frame := rfl
@[simp] theorem setArmed_boot (s : State) : s.setArmed.boot = s.boot := rfl
@[simp] theorem setArmed_probeCount (s : State) : s.setArmed.probeCount = s.probeCount := rfl
@[simp] theorem setArmed_fault (s : State) : s.setArmed.fault = s.fault := rfl
@[simp] theorem setArmed_log (s : State) : s.setArmed.log = s.log := rfl
@[simp] theorem setArmed_wac (s : State) : s.setArmed.wac = s.wac := rfl
@[simp] theorem setArmed_lines (s : State) : s.setArmed.lines = s.lines := rfl
@[simp] theorem setArmed_result (s : State) : s.setArmed.result = s.result := rfl
@[simp] theorem setArmed_sampled (s : State) : s.setArmed.sampled = s.sampled := rfl
@[simp] theorem setArmed_frames (s : State) : s.setArmed.frames = s.frames := rfl
@[simp] theorem setArmed_env (s : State) : s.setArmed.env = s.env := rfl
@[simp] theorem setArmed_fresh (s : State) : s.setArmed.fresh = s.fresh := rfl

/-! ### applyPattern -/

@[simp] theorem applyPattern_cfg (s : State) (p : Nat) : (s.applyPattern p).cfg = s.cfg := rfl
@[simp] theorem applyPattern_ram (s : State) (p : Nat) : (s.applyPattern p).ram = s.ram := rfl
@[simp] theorem applyPattern_nv (s : State) (p : Nat) : (s.applyPattern p).nv = s.nv := rfl
@[simp] theorem applyPattern_wel (s : State) (p : Nat) : (s.applyPattern p).wel = s.wel := rfl
@[simp] theorem applyPattern_sr (s : State) (p : Nat) : (s.applyPattern p).sr = s.sr := rfl
@[simp] theorem applyPattern_cls (s : State) (p : Nat) : (s.applyPattern p).cls = s.cls := rfl
@[simp] theorem applyPattern_done (s : State) (p : Nat) : (s.applyPattern p).done = s.done := rfl
@[simp] theorem applyPattern_chP (s : State) (p : Nat) : (s.applyPattern p).chP = s.chP := rfl
@[simp] theorem applyPattern_chS (s : State) (p : Nat) : (s.applyPattern p).chS = s.chS := rfl
@[simp] theorem applyPattern_ddir (s : State) (p : Nat) : (s.applyPattern p).ddir = patternDir s.cfg p := rfl
@[simp] theorem applyPattern_dout (s : State) (p : Nat) : (s.applyPattern p).dout = s.dout := rfl
@[simp] theorem applyPattern_fabBase (s : State) (p : Nat) : (s.applyPattern p).fabBase = s.fabBase := rfl
@[simp] theorem applyPattern_dirpat (s : State) (p : Nat) : (s.applyPattern p).dirpat = s.dirpat := rfl
@[simp] theorem applyPattern_armed (s : State) (p : Nat) : (s.applyPattern p).armed = s.armed := rfl
@[simp] theorem applyPattern_seqIds (s : State) (p : Nat) : (s.applyPattern p).seqIds = s.seqIds := rfl
@[simp] theorem applyPattern_movIds (s : State) (p : Nat) : (s.applyPattern p).movIds = s.movIds := rfl
@[simp] theorem applyPattern_cursor (s : State) (p : Nat) : (s.applyPattern p).cursor = s.cursor := rfl
@[simp] theorem applyPattern_paused (s : State) (p : Nat) : (s.applyPattern p).paused = s.paused := rfl
@[simp] theorem applyPattern_nvSel (s : State) (p : Nat) : (s.applyPattern p).nvSel = s.nvSel := rfl
@[simp] theorem applyPattern_frame (s : State) (p : Nat) : (s.applyPattern p).frame = s.frame := rfl
@[simp] theorem applyPattern_boot (s : State) (p : Nat) : (s.applyPattern p).boot = s.boot := rfl
@[simp] theorem applyPattern_probeCount (s : State) (p : Nat) : (s.applyPattern p).probeCount = s.probeCount := rfl
@[simp] theorem applyPattern_fault (s : State) (p : Nat) : (s.applyPattern p).fault = s.fault := rfl
@[simp] theorem applyPattern_log (s : State) (p : Nat) : (s.applyPattern p).log = s.log := rfl
@[simp] theorem applyPattern_wac (s : State) (p : Nat) : (s.applyPattern p).wac = s.wac := rfl
@[simp] theorem applyPattern_lines (s : State) (p : Nat) : (s.applyPattern p).lines = s.lines := rfl
@[simp] theorem applyPattern_result (s : State) (p : Nat) : (s.applyPattern p).result = s.result := rfl
@[simp] theorem applyPattern_sampled (s : State) (p : Nat) : (s.applyPattern p).sampled = s.sampled := rfl
@[simp] theorem applyPattern_frames (s : State) (p : Nat) : (s.applyPattern p).frames = s.frames := rfl
@[simp] theorem applyPattern_env (s : State) (p : Nat) : (s.applyPattern p).env = s.env := rfl
@[simp] theorem applyPattern_fresh (s : State) (p : Nat) : (s.applyPattern p).fresh = s.fresh := rfl

theorem patternDir_out (g : Config) : patternDir g g.dirpatOut = .outward := by simp [patternDir]
theorem patternDir_in {g : Config} (h : g.dirpatOut ≠ g.dirpatIn) : patternDir g g.dirpatIn = .inward := by
  simp [patternDir, h.symm]

/-! ### releaseData -/

@[simp] theorem releaseData_cfg (s : State) : s.releaseData.cfg = s.cfg := rfl
@[simp] theorem releaseData_ram (s : State) : s.releaseData.ram = s.ram := rfl
@[simp] theorem releaseData_nv (s : State) : s.releaseData.nv = s.nv := rfl
@[simp] theorem releaseData_wel (s : State) : s.releaseData.wel = s.wel := rfl
@[simp] theorem releaseData_sr (s : State) : s.releaseData.sr = s.sr := rfl
@[simp] theorem releaseData_cls (s : State) : s.releaseData.cls = s.cls := rfl
@[simp] theorem releaseData_done (s : State) : s.releaseData.done = s.done := rfl
@[simp] theorem releaseData_chP (s : State) : s.releaseData.chP = s.chP := rfl
@[simp] theorem releaseData_chS (s : State) : s.releaseData.chS = s.chS := rfl
@[simp] theorem releaseData_ddir (s : State) : s.releaseData.ddir = .inward := rfl
@[simp] theorem releaseData_dout (s : State) : s.releaseData.dout = s.dout := rfl
@[simp] theorem releaseData_fabBase (s : State) : s.releaseData.fabBase = s.fabBase := rfl
@[simp] theorem releaseData_dirpat (s : State) : s.releaseData.dirpat = s.dirpat := rfl
@[simp] theorem releaseData_armed (s : State) : s.releaseData.armed = s.armed := rfl
@[simp] theorem releaseData_seqIds (s : State) : s.releaseData.seqIds = s.seqIds := rfl
@[simp] theorem releaseData_movIds (s : State) : s.releaseData.movIds = s.movIds := rfl
@[simp] theorem releaseData_cursor (s : State) : s.releaseData.cursor = s.cursor := rfl
@[simp] theorem releaseData_paused (s : State) : s.releaseData.paused = s.paused := rfl
@[simp] theorem releaseData_nvSel (s : State) : s.releaseData.nvSel = s.nvSel := rfl
@[simp] theorem releaseData_frame (s : State) : s.releaseData.frame = s.frame := rfl
@[simp] theorem releaseData_boot (s : State) : s.releaseData.boot = s.boot := rfl
@[simp] theorem releaseData_probeCount (s : State) : s.releaseData.probeCount = s.probeCount := rfl
@[simp] theorem releaseData_fault (s : State) : s.releaseData.fault = s.fault := rfl
@[simp] theorem releaseData_log (s : State) : s.releaseData.log = s.log := rfl
@[simp] theorem releaseData_wac (s : State) : s.releaseData.wac = s.wac := rfl
@[simp] theorem releaseData_lines (s : State) : s.releaseData.lines = s.lines := rfl
@[simp] theorem releaseData_result (s : State) : s.releaseData.result = s.result := rfl
@[simp] theorem releaseData_sampled (s : State) : s.releaseData.sampled = s.sampled := rfl
@[simp] theorem releaseData_frames (s : State) : s.releaseData.frames = s.frames := rfl
@[simp] theorem releaseData_env (s : State) : s.releaseData.env = s.env := rfl
@[simp] theorem releaseData_fresh (s : State) : s.releaseData.fresh = s.fresh := rfl

/-! ### setWel -/

@[simp] theorem setWel_cfg (s : State) (b : Bool) : (s.setWel b).cfg = s.cfg := rfl
@[simp] theorem setWel_ram (s : State) (b : Bool) : (s.setWel b).ram = s.ram := rfl
@[simp] theorem setWel_nv (s : State) (b : Bool) : (s.setWel b).nv = s.nv := rfl
@[simp] theorem setWel_wel (s : State) (b : Bool) : (s.setWel b).wel = b := rfl
@[simp] theorem setWel_sr (s : State) (b : Bool) : (s.setWel b).sr = s.sr := rfl
@[simp] theorem setWel_cls (s : State) (b : Bool) : (s.setWel b).cls = s.cls := rfl
@[simp] theorem setWel_done (s : State) (b : Bool) : (s.setWel b).done = s.done := rfl
@[simp] theorem setWel_chP (s : State) (b : Bool) : (s.setWel b).chP = s.chP := rfl
@[simp] theorem setWel_chS (s : State) (b : Bool) : (s.setWel b).chS = s.chS := rfl
@[simp] theorem setWel_ddir (s : State) (b : Bool) : (s.setWel b).ddir = s.ddir := rfl
@[simp] theorem setWel_dout (s : State) (b : Bool) : (s.setWel b).dout = s.dout := rfl
@[simp] theorem setWel_fabBase (s : State) (b : Bool) : (s.setWel b).fabBase = s.fabBase := rfl
@[simp] theorem setWel_dirpat (s : State) (b : Bool) : (s.setWel b).dirpat = s.dirpat := rfl
@[simp] theorem setWel_armed (s : State) (b : Bool) : (s.setWel b).armed = s.armed := rfl
@[simp] theorem setWel_seqIds (s : State) (b : Bool) : (s.setWel b).seqIds = s.seqIds := rfl
@[simp] theorem setWel_movIds (s : State) (b : Bool) : (s.setWel b).movIds = s.movIds := rfl
@[simp] theorem setWel_cursor (s : State) (b : Bool) : (s.setWel b).cursor = s.cursor := rfl
@[simp] theorem setWel_paused (s : State) (b : Bool) : (s.setWel b).paused = s.paused := rfl
@[simp] theorem setWel_nvSel (s : State) (b : Bool) : (s.setWel b).nvSel = s.nvSel := rfl
@[simp] theorem setWel_frame (s : State) (b : Bool) : (s.setWel b).frame = s.frame := rfl
@[simp] theorem setWel_boot (s : State) (b : Bool) : (s.setWel b).boot = s.boot := rfl
@[simp] theorem setWel_probeCount (s : State) (b : Bool) : (s.setWel b).probeCount = s.probeCount := rfl
@[simp] theorem setWel_fault (s : State) (b : Bool) : (s.setWel b).fault = s.fault := rfl
@[simp] theorem setWel_log (s : State) (b : Bool) : (s.setWel b).log = s.log := rfl
@[simp] theorem setWel_wac (s : State) (b : Bool) : (s.setWel b).wac = s.wac := rfl
@[simp] theorem setWel_lines (s : State) (b : Bool) : (s.setWel b).lines = s.lines := rfl
@[simp] theorem setWel_result (s : State) (b : Bool) : (s.setWel b).result = s.result := rfl
@[simp] theorem setWel_sampled (s : State) (b : Bool) : (s.setWel b).sampled = s.sampled := rfl
@[simp] theorem setWel_frames (s : State) (b : Bool) : (s.setWel b).frames = s.frames := rfl
@[simp] theorem setWel_env (s : State) (b : Bool) : (s.setWel b).env = s.env := rfl
@[simp] theorem setWel_fresh (s : State) (b : Bool) : (s.setWel b).fresh = s.fresh := rfl

/-! ### setPaused -/

@[simp] theorem setPaused_cfg (s : State) (b : Bool) : (s.setPaused b).cfg = s.cfg := rfl
@[simp] theorem setPaused_ram (s : State) (b : Bool) : (s.setPaused b).ram = s.ram := rfl
@[simp] theorem setPaused_nv (s : State) (b : Bool) : (s.setPaused b).nv = s.nv := rfl
@[simp] theorem setPaused_wel (s : State) (b : Bool) : (s.setPaused b).wel = s.wel := rfl
@[simp] theorem setPaused_sr (s : State) (b : Bool) : (s.setPaused b).sr = s.sr := rfl
@[simp] theorem setPaused_cls (s : State) (b : Bool) : (s.setPaused b).cls = s.cls := rfl
@[simp] theorem setPaused_done (s : State) (b : Bool) : (s.setPaused b).done = s.done := rfl
@[simp] theorem setPaused_chP (s : State) (b : Bool) : (s.setPaused b).chP = s.chP := rfl
@[simp] theorem setPaused_chS (s : State) (b : Bool) : (s.setPaused b).chS = s.chS := rfl
@[simp] theorem setPaused_ddir (s : State) (b : Bool) : (s.setPaused b).ddir = s.ddir := rfl
@[simp] theorem setPaused_dout (s : State) (b : Bool) : (s.setPaused b).dout = s.dout := rfl
@[simp] theorem setPaused_fabBase (s : State) (b : Bool) : (s.setPaused b).fabBase = s.fabBase := rfl
@[simp] theorem setPaused_dirpat (s : State) (b : Bool) : (s.setPaused b).dirpat = s.dirpat := rfl
@[simp] theorem setPaused_armed (s : State) (b : Bool) : (s.setPaused b).armed = s.armed := rfl
@[simp] theorem setPaused_seqIds (s : State) (b : Bool) : (s.setPaused b).seqIds = s.seqIds := rfl
@[simp] theorem setPaused_movIds (s : State) (b : Bool) : (s.setPaused b).movIds = s.movIds := rfl
@[simp] theorem setPaused_cursor (s : State) (b : Bool) : (s.setPaused b).cursor = s.cursor := rfl
@[simp] theorem setPaused_paused (s : State) (b : Bool) : (s.setPaused b).paused = b := rfl
@[simp] theorem setPaused_nvSel (s : State) (b : Bool) : (s.setPaused b).nvSel = s.nvSel := rfl
@[simp] theorem setPaused_frame (s : State) (b : Bool) : (s.setPaused b).frame = s.frame := rfl
@[simp] theorem setPaused_boot (s : State) (b : Bool) : (s.setPaused b).boot = s.boot := rfl
@[simp] theorem setPaused_probeCount (s : State) (b : Bool) : (s.setPaused b).probeCount = s.probeCount := rfl
@[simp] theorem setPaused_fault (s : State) (b : Bool) : (s.setPaused b).fault = s.fault := rfl
@[simp] theorem setPaused_log (s : State) (b : Bool) : (s.setPaused b).log = s.log := rfl
@[simp] theorem setPaused_wac (s : State) (b : Bool) : (s.setPaused b).wac = s.wac := rfl
@[simp] theorem setPaused_lines (s : State) (b : Bool) : (s.setPaused b).lines = s.lines := rfl
@[simp] theorem setPaused_result (s : State) (b : Bool) : (s.setPaused b).result = s.result := rfl
@[simp] theorem setPaused_sampled (s : State) (b : Bool) : (s.setPaused b).sampled = s.sampled := rfl
@[simp] theorem setPaused_frames (s : State) (b : Bool) : (s.setPaused b).frames = s.frames := rfl
@[simp] theorem setPaused_env (s : State) (b : Bool) : (s.setPaused b).env = s.env := rfl
@[simp] theorem setPaused_fresh (s : State) (b : Bool) : (s.setPaused b).fresh = s.fresh := rfl

/-! ### setCell -/

@[simp] theorem setCell_cfg (s : State) (c : Channel) (i : Nat) (v : Byte) : (s.setCell c i v).cfg = s.cfg := rfl
@[simp] theorem setCell_ram (s : State) (c : Channel) (i : Nat) (v : Byte) :
    (s.setCell c i v).ram = Memory.write s.ram (windowBase s.cfg c + i) v := rfl
@[simp] theorem setCell_nv (s : State) (c : Channel) (i : Nat) (v : Byte) : (s.setCell c i v).nv = s.nv := rfl
@[simp] theorem setCell_wel (s : State) (c : Channel) (i : Nat) (v : Byte) : (s.setCell c i v).wel = s.wel := rfl
@[simp] theorem setCell_sr (s : State) (c : Channel) (i : Nat) (v : Byte) : (s.setCell c i v).sr = s.sr := rfl
@[simp] theorem setCell_cls (s : State) (c : Channel) (i : Nat) (v : Byte) : (s.setCell c i v).cls = s.cls := rfl
@[simp] theorem setCell_done (s : State) (c : Channel) (i : Nat) (v : Byte) : (s.setCell c i v).done = s.done := rfl
@[simp] theorem setCell_chP (s : State) (c : Channel) (i : Nat) (v : Byte) : (s.setCell c i v).chP = s.chP := rfl
@[simp] theorem setCell_chS (s : State) (c : Channel) (i : Nat) (v : Byte) : (s.setCell c i v).chS = s.chS := rfl
@[simp] theorem setCell_ddir (s : State) (c : Channel) (i : Nat) (v : Byte) : (s.setCell c i v).ddir = s.ddir := rfl
@[simp] theorem setCell_dout (s : State) (c : Channel) (i : Nat) (v : Byte) : (s.setCell c i v).dout = s.dout := rfl
@[simp] theorem setCell_fabBase (s : State) (c : Channel) (i : Nat) (v : Byte) :
    (s.setCell c i v).fabBase = s.fabBase := rfl
@[simp] theorem setCell_dirpat (s : State) (c : Channel) (i : Nat) (v : Byte) :
    (s.setCell c i v).dirpat = s.dirpat := rfl
@[simp] theorem setCell_armed (s : State) (c : Channel) (i : Nat) (v : Byte) :
    (s.setCell c i v).armed = s.armed := rfl
@[simp] theorem setCell_seqIds (s : State) (c : Channel) (i : Nat) (v : Byte) :
    (s.setCell c i v).seqIds = s.seqIds := rfl
@[simp] theorem setCell_movIds (s : State) (c : Channel) (i : Nat) (v : Byte) :
    (s.setCell c i v).movIds = s.movIds := rfl
@[simp] theorem setCell_cursor (s : State) (c : Channel) (i : Nat) (v : Byte) :
    (s.setCell c i v).cursor = s.cursor := rfl
@[simp] theorem setCell_paused (s : State) (c : Channel) (i : Nat) (v : Byte) :
    (s.setCell c i v).paused = s.paused := rfl
@[simp] theorem setCell_nvSel (s : State) (c : Channel) (i : Nat) (v : Byte) :
    (s.setCell c i v).nvSel = s.nvSel := rfl
@[simp] theorem setCell_frame (s : State) (c : Channel) (i : Nat) (v : Byte) :
    (s.setCell c i v).frame = s.frame := rfl
@[simp] theorem setCell_boot (s : State) (c : Channel) (i : Nat) (v : Byte) : (s.setCell c i v).boot = s.boot := rfl
@[simp] theorem setCell_probeCount (s : State) (c : Channel) (i : Nat) (v : Byte) :
    (s.setCell c i v).probeCount = s.probeCount := rfl
@[simp] theorem setCell_fault (s : State) (c : Channel) (i : Nat) (v : Byte) :
    (s.setCell c i v).fault = s.fault := rfl
@[simp] theorem setCell_log (s : State) (c : Channel) (i : Nat) (v : Byte) : (s.setCell c i v).log = s.log := rfl
@[simp] theorem setCell_wac (s : State) (c : Channel) (i : Nat) (v : Byte) : (s.setCell c i v).wac = s.wac := rfl
@[simp] theorem setCell_lines (s : State) (c : Channel) (i : Nat) (v : Byte) :
    (s.setCell c i v).lines = s.lines := rfl
@[simp] theorem setCell_result (s : State) (c : Channel) (i : Nat) (v : Byte) :
    (s.setCell c i v).result = s.result := rfl
@[simp] theorem setCell_sampled (s : State) (c : Channel) (i : Nat) (v : Byte) :
    (s.setCell c i v).sampled = s.sampled := rfl
@[simp] theorem setCell_frames (s : State) (c : Channel) (i : Nat) (v : Byte) :
    (s.setCell c i v).frames = s.frames := rfl
@[simp] theorem setCell_env (s : State) (c : Channel) (i : Nat) (v : Byte) : (s.setCell c i v).env = s.env := rfl
@[simp] theorem setCell_fresh (s : State) (c : Channel) (i : Nat) (v : Byte) :
    (s.setCell c i v).fresh = s.fresh := rfl

/-! ### wacBump -/

@[simp] theorem wacBump_cfg (s : State) (i : Nat) : (s.wacBump i).cfg = s.cfg := rfl
@[simp] theorem wacBump_ram (s : State) (i : Nat) : (s.wacBump i).ram = s.ram := rfl
@[simp] theorem wacBump_nv (s : State) (i : Nat) : (s.wacBump i).nv = s.nv := rfl
@[simp] theorem wacBump_wel (s : State) (i : Nat) : (s.wacBump i).wel = s.wel := rfl
@[simp] theorem wacBump_sr (s : State) (i : Nat) : (s.wacBump i).sr = s.sr := rfl
@[simp] theorem wacBump_cls (s : State) (i : Nat) : (s.wacBump i).cls = s.cls := rfl
@[simp] theorem wacBump_done (s : State) (i : Nat) : (s.wacBump i).done = s.done := rfl
@[simp] theorem wacBump_chP (s : State) (i : Nat) : (s.wacBump i).chP = s.chP := rfl
@[simp] theorem wacBump_chS (s : State) (i : Nat) : (s.wacBump i).chS = s.chS := rfl
@[simp] theorem wacBump_ddir (s : State) (i : Nat) : (s.wacBump i).ddir = s.ddir := rfl
@[simp] theorem wacBump_dout (s : State) (i : Nat) : (s.wacBump i).dout = s.dout := rfl
@[simp] theorem wacBump_fabBase (s : State) (i : Nat) : (s.wacBump i).fabBase = s.fabBase := rfl
@[simp] theorem wacBump_dirpat (s : State) (i : Nat) : (s.wacBump i).dirpat = s.dirpat := rfl
@[simp] theorem wacBump_armed (s : State) (i : Nat) : (s.wacBump i).armed = s.armed := rfl
@[simp] theorem wacBump_seqIds (s : State) (i : Nat) : (s.wacBump i).seqIds = s.seqIds := rfl
@[simp] theorem wacBump_movIds (s : State) (i : Nat) : (s.wacBump i).movIds = s.movIds := rfl
@[simp] theorem wacBump_cursor (s : State) (i : Nat) : (s.wacBump i).cursor = s.cursor := rfl
@[simp] theorem wacBump_paused (s : State) (i : Nat) : (s.wacBump i).paused = s.paused := rfl
@[simp] theorem wacBump_nvSel (s : State) (i : Nat) : (s.wacBump i).nvSel = s.nvSel := rfl
@[simp] theorem wacBump_frame (s : State) (i : Nat) : (s.wacBump i).frame = s.frame := rfl
@[simp] theorem wacBump_boot (s : State) (i : Nat) : (s.wacBump i).boot = s.boot := rfl
@[simp] theorem wacBump_probeCount (s : State) (i : Nat) : (s.wacBump i).probeCount = s.probeCount := rfl
@[simp] theorem wacBump_fault (s : State) (i : Nat) : (s.wacBump i).fault = s.fault := rfl
@[simp] theorem wacBump_log (s : State) (i : Nat) : (s.wacBump i).log = s.log := rfl
@[simp] theorem wacBump_wac (s : State) (i : Nat) :
    (s.wacBump i).wac = sparseWrite 0 s.wac i ((sparseRead 0 s.wac i + 1) % 2 ^ s.cfg.wacW) := rfl
@[simp] theorem wacBump_lines (s : State) (i : Nat) : (s.wacBump i).lines = s.lines := rfl
@[simp] theorem wacBump_result (s : State) (i : Nat) : (s.wacBump i).result = s.result := rfl
@[simp] theorem wacBump_sampled (s : State) (i : Nat) : (s.wacBump i).sampled = s.sampled := rfl
@[simp] theorem wacBump_frames (s : State) (i : Nat) : (s.wacBump i).frames = s.frames := rfl
@[simp] theorem wacBump_env (s : State) (i : Nat) : (s.wacBump i).env = s.env := rfl
@[simp] theorem wacBump_fresh (s : State) (i : Nat) : (s.wacBump i).fresh = s.fresh := rfl

/-! ### logged -/

@[simp] theorem logged_cfg (s : State) (e : LogEvent) : (s.logged e).cfg = s.cfg := rfl
@[simp] theorem logged_ram (s : State) (e : LogEvent) : (s.logged e).ram = s.ram := rfl
@[simp] theorem logged_nv (s : State) (e : LogEvent) : (s.logged e).nv = s.nv := rfl
@[simp] theorem logged_wel (s : State) (e : LogEvent) : (s.logged e).wel = s.wel := rfl
@[simp] theorem logged_sr (s : State) (e : LogEvent) : (s.logged e).sr = s.sr := rfl
@[simp] theorem logged_cls (s : State) (e : LogEvent) : (s.logged e).cls = s.cls := rfl
@[simp] theorem logged_done (s : State) (e : LogEvent) : (s.logged e).done = s.done := rfl
@[simp] theorem logged_chP (s : State) (e : LogEvent) : (s.logged e).chP = s.chP := rfl
@[simp] theorem logged_chS (s : State) (e : LogEvent) : (s.logged e).chS = s.chS := rfl
@[simp] theorem logged_ddir (s : State) (e : LogEvent) : (s.logged e).ddir = s.ddir := rfl
@[simp] theorem logged_dout (s : State) (e : LogEvent) : (s.logged e).dout = s.dout := rfl
@[simp] theorem logged_fabBase (s : State) (e : LogEvent) : (s.logged e).fabBase = s.fabBase := rfl
@[simp] theorem logged_dirpat (s : State) (e : LogEvent) : (s.logged e).dirpat = s.dirpat := rfl
@[simp] theorem logged_armed (s : State) (e : LogEvent) : (s.logged e).armed = s.armed := rfl
@[simp] theorem logged_seqIds (s : State) (e : LogEvent) : (s.logged e).seqIds = s.seqIds := rfl
@[simp] theorem logged_movIds (s : State) (e : LogEvent) : (s.logged e).movIds = s.movIds := rfl
@[simp] theorem logged_cursor (s : State) (e : LogEvent) : (s.logged e).cursor = s.cursor := rfl
@[simp] theorem logged_paused (s : State) (e : LogEvent) : (s.logged e).paused = s.paused := rfl
@[simp] theorem logged_nvSel (s : State) (e : LogEvent) : (s.logged e).nvSel = s.nvSel := rfl
@[simp] theorem logged_frame (s : State) (e : LogEvent) : (s.logged e).frame = s.frame := rfl
@[simp] theorem logged_boot (s : State) (e : LogEvent) : (s.logged e).boot = s.boot := rfl
@[simp] theorem logged_probeCount (s : State) (e : LogEvent) : (s.logged e).probeCount = s.probeCount := rfl
@[simp] theorem logged_fault (s : State) (e : LogEvent) : (s.logged e).fault = s.fault := rfl
@[simp] theorem logged_log (s : State) (e : LogEvent) : (s.logged e).log = s.log ++ [e] := rfl
@[simp] theorem logged_wac (s : State) (e : LogEvent) : (s.logged e).wac = s.wac := rfl
@[simp] theorem logged_lines (s : State) (e : LogEvent) : (s.logged e).lines = s.lines := rfl
@[simp] theorem logged_result (s : State) (e : LogEvent) : (s.logged e).result = s.result := rfl
@[simp] theorem logged_sampled (s : State) (e : LogEvent) : (s.logged e).sampled = s.sampled := rfl
@[simp] theorem logged_frames (s : State) (e : LogEvent) : (s.logged e).frames = s.frames := rfl
@[simp] theorem logged_env (s : State) (e : LogEvent) : (s.logged e).env = s.env := rfl
@[simp] theorem logged_fresh (s : State) (e : LogEvent) : (s.logged e).fresh = s.fresh := rfl

/-! ### engineRuns -/

theorem engineRuns_iff (s : State) : s.engineRuns = true ↔ s.armed = true ∧ s.boot ≠ .bFault := by
  simp [State.engineRuns]
@[simp] theorem enterFault_engineRuns (s : State) (c : FaultCause) : (enterFault s c).engineRuns = false := by
  simp [State.engineRuns, enterFault]
@[simp] theorem setChan_engineRuns (s : State) (c : Channel) (ch : Chan) : (s.setChan c ch).engineRuns = s.engineRuns := by
  cases c <;> rfl

/-! ### enterFault -/

@[simp] theorem enterFault_cfg (s : State) (c : FaultCause) : (enterFault s c).cfg = s.cfg := rfl
@[simp] theorem enterFault_ram (s : State) (c : FaultCause) : (enterFault s c).ram = s.ram := rfl
@[simp] theorem enterFault_nv (s : State) (c : FaultCause) : (enterFault s c).nv = s.nv := rfl
@[simp] theorem enterFault_wel (s : State) (c : FaultCause) : (enterFault s c).wel = s.wel := rfl
@[simp] theorem enterFault_sr (s : State) (c : FaultCause) : (enterFault s c).sr = s.sr := rfl
@[simp] theorem enterFault_cls (s : State) (c : FaultCause) : (enterFault s c).cls = s.cls := rfl
@[simp] theorem enterFault_done (s : State) (c : FaultCause) : (enterFault s c).done = s.done := rfl
@[simp] theorem enterFault_chP (s : State) (c : FaultCause) : (enterFault s c).chP = s.chP := rfl
@[simp] theorem enterFault_chS (s : State) (c : FaultCause) : (enterFault s c).chS = s.chS := rfl
@[simp] theorem enterFault_ddir (s : State) (c : FaultCause) : (enterFault s c).ddir = .inward := rfl
@[simp] theorem enterFault_dout (s : State) (c : FaultCause) : (enterFault s c).dout = s.dout := rfl
@[simp] theorem enterFault_fabBase (s : State) (c : FaultCause) : (enterFault s c).fabBase = s.fabBase := rfl
@[simp] theorem enterFault_dirpat (s : State) (c : FaultCause) : (enterFault s c).dirpat = s.dirpat := rfl
@[simp] theorem enterFault_armed (s : State) (c : FaultCause) : (enterFault s c).armed = s.armed := rfl
@[simp] theorem enterFault_seqIds (s : State) (c : FaultCause) : (enterFault s c).seqIds = s.seqIds := rfl
@[simp] theorem enterFault_movIds (s : State) (c : FaultCause) : (enterFault s c).movIds = s.movIds := rfl
@[simp] theorem enterFault_cursor (s : State) (c : FaultCause) : (enterFault s c).cursor = s.cursor := rfl
@[simp] theorem enterFault_paused (s : State) (c : FaultCause) : (enterFault s c).paused = s.paused := rfl
@[simp] theorem enterFault_nvSel (s : State) (c : FaultCause) : (enterFault s c).nvSel = s.nvSel := rfl
@[simp] theorem enterFault_frame (s : State) (c : FaultCause) : (enterFault s c).frame = s.frame := rfl
@[simp] theorem enterFault_boot (s : State) (c : FaultCause) : (enterFault s c).boot = .bFault := rfl
@[simp] theorem enterFault_probeCount (s : State) (c : FaultCause) : (enterFault s c).probeCount = s.probeCount := rfl
@[simp] theorem enterFault_fault (s : State) (c : FaultCause) : (enterFault s c).fault = s.fault.add c := rfl
@[simp] theorem enterFault_log (s : State) (c : FaultCause) : (enterFault s c).log = s.log := rfl
@[simp] theorem enterFault_wac (s : State) (c : FaultCause) : (enterFault s c).wac = s.wac := rfl
@[simp] theorem enterFault_lines (s : State) (c : FaultCause) : (enterFault s c).lines = s.lines := rfl
@[simp] theorem enterFault_result (s : State) (c : FaultCause) : (enterFault s c).result = s.result := rfl
@[simp] theorem enterFault_sampled (s : State) (c : FaultCause) : (enterFault s c).sampled = s.sampled := rfl
@[simp] theorem enterFault_frames (s : State) (c : FaultCause) : (enterFault s c).frames = s.frames := rfl
@[simp] theorem enterFault_env (s : State) (c : FaultCause) : (enterFault s c).env = s.env := rfl
@[simp] theorem enterFault_fresh (s : State) (c : FaultCause) : (enterFault s c).fresh = s.fresh := rfl

/-! ### presentCycle -/

@[simp] theorem presentCycle_cfg (c : Channel) (d : Dir) (f g : Nat) (x : Byte) (s : State) :
    (presentCycle c d f g x s).cfg = s.cfg := rfl
@[simp] theorem presentCycle_ram (c : Channel) (d : Dir) (f g : Nat) (x : Byte) (s : State) :
    (presentCycle c d f g x s).ram = s.ram := rfl
@[simp] theorem presentCycle_nv (c : Channel) (d : Dir) (f g : Nat) (x : Byte) (s : State) :
    (presentCycle c d f g x s).nv = s.nv := rfl
@[simp] theorem presentCycle_wel (c : Channel) (d : Dir) (f g : Nat) (x : Byte) (s : State) :
    (presentCycle c d f g x s).wel = s.wel := rfl
@[simp] theorem presentCycle_sr (c : Channel) (d : Dir) (f g : Nat) (x : Byte) (s : State) :
    (presentCycle c d f g x s).sr = s.sr := rfl
@[simp] theorem presentCycle_cls (c : Channel) (d : Dir) (f g : Nat) (x : Byte) (s : State) :
    (presentCycle c d f g x s).cls = s.cls := rfl
@[simp] theorem presentCycle_done (c : Channel) (d : Dir) (f g : Nat) (x : Byte) (s : State) :
    (presentCycle c d f g x s).done = s.done := rfl
@[simp] theorem presentCycle_chP (c : Channel) (d : Dir) (f g : Nat) (x : Byte) (s : State) :
    (presentCycle c d f g x s).chP = s.chP := rfl
@[simp] theorem presentCycle_chS (c : Channel) (d : Dir) (f g : Nat) (x : Byte) (s : State) :
    (presentCycle c d f g x s).chS = s.chS := rfl
@[simp] theorem presentCycle_ddir (c : Channel) (d : Dir) (f g : Nat) (x : Byte) (s : State) :
    (presentCycle c d f g x s).ddir = s.ddir := rfl
@[simp] theorem presentCycle_dout (c : Channel) (d : Dir) (f g : Nat) (x : Byte) (s : State) :
    (presentCycle c d f g x s).dout = s.dout := rfl
@[simp] theorem presentCycle_fabBase (c : Channel) (d : Dir) (f g : Nat) (x : Byte) (s : State) :
    (presentCycle c d f g x s).fabBase = s.fabBase := rfl
@[simp] theorem presentCycle_dirpat (c : Channel) (d : Dir) (f g : Nat) (x : Byte) (s : State) :
    (presentCycle c d f g x s).dirpat = s.dirpat := rfl
@[simp] theorem presentCycle_armed (c : Channel) (d : Dir) (f g : Nat) (x : Byte) (s : State) :
    (presentCycle c d f g x s).armed = s.armed := rfl
@[simp] theorem presentCycle_seqIds (c : Channel) (d : Dir) (f g : Nat) (x : Byte) (s : State) :
    (presentCycle c d f g x s).seqIds = s.seqIds := rfl
@[simp] theorem presentCycle_movIds (c : Channel) (d : Dir) (f g : Nat) (x : Byte) (s : State) :
    (presentCycle c d f g x s).movIds = s.movIds := rfl
@[simp] theorem presentCycle_cursor (c : Channel) (d : Dir) (f g : Nat) (x : Byte) (s : State) :
    (presentCycle c d f g x s).cursor = s.cursor := rfl
@[simp] theorem presentCycle_paused (c : Channel) (d : Dir) (f g : Nat) (x : Byte) (s : State) :
    (presentCycle c d f g x s).paused = s.paused := rfl
@[simp] theorem presentCycle_nvSel (c : Channel) (d : Dir) (f g : Nat) (x : Byte) (s : State) :
    (presentCycle c d f g x s).nvSel = s.nvSel := rfl
@[simp] theorem presentCycle_frame (c : Channel) (d : Dir) (f g : Nat) (x : Byte) (s : State) :
    (presentCycle c d f g x s).frame = s.frame := rfl
@[simp] theorem presentCycle_boot (c : Channel) (d : Dir) (f g : Nat) (x : Byte) (s : State) :
    (presentCycle c d f g x s).boot = s.boot := rfl
@[simp] theorem presentCycle_probeCount (c : Channel) (d : Dir) (f g : Nat) (x : Byte) (s : State) :
    (presentCycle c d f g x s).probeCount = s.probeCount := rfl
@[simp] theorem presentCycle_fault (c : Channel) (d : Dir) (f g : Nat) (x : Byte) (s : State) :
    (presentCycle c d f g x s).fault = s.fault := rfl
@[simp] theorem presentCycle_log (c : Channel) (d : Dir) (f g : Nat) (x : Byte) (s : State) :
    (presentCycle c d f g x s).log = s.log := rfl
@[simp] theorem presentCycle_wac (c : Channel) (d : Dir) (f g : Nat) (x : Byte) (s : State) :
    (presentCycle c d f g x s).wac = s.wac := rfl
@[simp] theorem presentCycle_result (c : Channel) (d : Dir) (f g : Nat) (x : Byte) (s : State) :
    (presentCycle c d f g x s).result = s.result := rfl
@[simp] theorem presentCycle_sampled (c : Channel) (d : Dir) (f g : Nat) (x : Byte) (s : State) :
    (presentCycle c d f g x s).sampled = s.sampled := rfl
@[simp] theorem presentCycle_frames (c : Channel) (d : Dir) (f g : Nat) (x : Byte) (s : State) :
    (presentCycle c d f g x s).frames = s.frames := rfl
@[simp] theorem presentCycle_env (c : Channel) (d : Dir) (f g : Nat) (x : Byte) (s : State) :
    (presentCycle c d f g x s).env = s.env := rfl
@[simp] theorem presentCycle_fresh (c : Channel) (d : Dir) (f g : Nat) (x : Byte) (s : State) :
    (presentCycle c d f g x s).fresh = s.fresh := rfl

/-! ### presentNoCycle -/

@[simp] theorem presentNoCycle_cfg (a b : Bool) (s : State) : (presentNoCycle a b s).cfg = s.cfg := rfl
@[simp] theorem presentNoCycle_ram (a b : Bool) (s : State) : (presentNoCycle a b s).ram = s.ram := rfl
@[simp] theorem presentNoCycle_nv (a b : Bool) (s : State) : (presentNoCycle a b s).nv = s.nv := rfl
@[simp] theorem presentNoCycle_wel (a b : Bool) (s : State) : (presentNoCycle a b s).wel = s.wel := rfl
@[simp] theorem presentNoCycle_sr (a b : Bool) (s : State) : (presentNoCycle a b s).sr = s.sr := rfl
@[simp] theorem presentNoCycle_cls (a b : Bool) (s : State) : (presentNoCycle a b s).cls = s.cls := rfl
@[simp] theorem presentNoCycle_done (a b : Bool) (s : State) : (presentNoCycle a b s).done = s.done := rfl
@[simp] theorem presentNoCycle_chP (a b : Bool) (s : State) : (presentNoCycle a b s).chP = s.chP := rfl
@[simp] theorem presentNoCycle_chS (a b : Bool) (s : State) : (presentNoCycle a b s).chS = s.chS := rfl
@[simp] theorem presentNoCycle_ddir (a b : Bool) (s : State) : (presentNoCycle a b s).ddir = s.ddir := rfl
@[simp] theorem presentNoCycle_dout (a b : Bool) (s : State) : (presentNoCycle a b s).dout = s.dout := rfl
@[simp] theorem presentNoCycle_fabBase (a b : Bool) (s : State) : (presentNoCycle a b s).fabBase = s.fabBase := rfl
@[simp] theorem presentNoCycle_dirpat (a b : Bool) (s : State) : (presentNoCycle a b s).dirpat = s.dirpat := rfl
@[simp] theorem presentNoCycle_armed (a b : Bool) (s : State) : (presentNoCycle a b s).armed = s.armed := rfl
@[simp] theorem presentNoCycle_seqIds (a b : Bool) (s : State) : (presentNoCycle a b s).seqIds = s.seqIds := rfl
@[simp] theorem presentNoCycle_movIds (a b : Bool) (s : State) : (presentNoCycle a b s).movIds = s.movIds := rfl
@[simp] theorem presentNoCycle_cursor (a b : Bool) (s : State) : (presentNoCycle a b s).cursor = s.cursor := rfl
@[simp] theorem presentNoCycle_paused (a b : Bool) (s : State) : (presentNoCycle a b s).paused = s.paused := rfl
@[simp] theorem presentNoCycle_nvSel (a b : Bool) (s : State) : (presentNoCycle a b s).nvSel = s.nvSel := rfl
@[simp] theorem presentNoCycle_frame (a b : Bool) (s : State) : (presentNoCycle a b s).frame = s.frame := rfl
@[simp] theorem presentNoCycle_boot (a b : Bool) (s : State) : (presentNoCycle a b s).boot = s.boot := rfl
@[simp] theorem presentNoCycle_probeCount (a b : Bool) (s : State) :
    (presentNoCycle a b s).probeCount = s.probeCount := rfl
@[simp] theorem presentNoCycle_fault (a b : Bool) (s : State) : (presentNoCycle a b s).fault = s.fault := rfl
@[simp] theorem presentNoCycle_log (a b : Bool) (s : State) : (presentNoCycle a b s).log = s.log := rfl
@[simp] theorem presentNoCycle_wac (a b : Bool) (s : State) : (presentNoCycle a b s).wac = s.wac := rfl
@[simp] theorem presentNoCycle_result (a b : Bool) (s : State) : (presentNoCycle a b s).result = s.result := rfl
@[simp] theorem presentNoCycle_sampled (a b : Bool) (s : State) : (presentNoCycle a b s).sampled = s.sampled := rfl
@[simp] theorem presentNoCycle_frames (a b : Bool) (s : State) : (presentNoCycle a b s).frames = s.frames := rfl
@[simp] theorem presentNoCycle_env (a b : Bool) (s : State) : (presentNoCycle a b s).env = s.env := rfl
@[simp] theorem presentNoCycle_fresh (a b : Bool) (s : State) : (presentNoCycle a b s).fresh = s.fresh := rfl

/-! ### endCycle -/

@[simp] theorem endCycle_cfg (s : State) : (endCycle s).cfg = s.cfg := rfl
@[simp] theorem endCycle_ram (s : State) : (endCycle s).ram = s.ram := rfl
@[simp] theorem endCycle_nv (s : State) : (endCycle s).nv = s.nv := rfl
@[simp] theorem endCycle_wel (s : State) : (endCycle s).wel = s.wel := rfl
@[simp] theorem endCycle_sr (s : State) : (endCycle s).sr = s.sr := rfl
@[simp] theorem endCycle_cls (s : State) : (endCycle s).cls = s.cls := rfl
@[simp] theorem endCycle_done (s : State) : (endCycle s).done = s.done := rfl
@[simp] theorem endCycle_chP (s : State) : (endCycle s).chP = s.chP := rfl
@[simp] theorem endCycle_chS (s : State) : (endCycle s).chS = s.chS := rfl
@[simp] theorem endCycle_ddir (s : State) : (endCycle s).ddir = s.ddir := rfl
@[simp] theorem endCycle_dout (s : State) : (endCycle s).dout = s.dout := rfl
@[simp] theorem endCycle_fabBase (s : State) : (endCycle s).fabBase = s.fabBase := rfl
@[simp] theorem endCycle_dirpat (s : State) : (endCycle s).dirpat = s.dirpat := rfl
@[simp] theorem endCycle_armed (s : State) : (endCycle s).armed = s.armed := rfl
@[simp] theorem endCycle_seqIds (s : State) : (endCycle s).seqIds = s.seqIds := rfl
@[simp] theorem endCycle_movIds (s : State) : (endCycle s).movIds = s.movIds := rfl
@[simp] theorem endCycle_cursor (s : State) : (endCycle s).cursor = s.cursor := rfl
@[simp] theorem endCycle_paused (s : State) : (endCycle s).paused = s.paused := rfl
@[simp] theorem endCycle_nvSel (s : State) : (endCycle s).nvSel = s.nvSel := rfl
@[simp] theorem endCycle_frame (s : State) : (endCycle s).frame = s.frame := rfl
@[simp] theorem endCycle_boot (s : State) : (endCycle s).boot = s.boot := rfl
@[simp] theorem endCycle_probeCount (s : State) : (endCycle s).probeCount = s.probeCount := rfl
@[simp] theorem endCycle_fault (s : State) : (endCycle s).fault = s.fault := rfl
@[simp] theorem endCycle_log (s : State) : (endCycle s).log = s.log := rfl
@[simp] theorem endCycle_wac (s : State) : (endCycle s).wac = s.wac := rfl
@[simp] theorem endCycle_result (s : State) : (endCycle s).result = s.result := rfl
@[simp] theorem endCycle_sampled (s : State) : (endCycle s).sampled = s.sampled := rfl
@[simp] theorem endCycle_frames (s : State) : (endCycle s).frames = s.frames := rfl
@[simp] theorem endCycle_env (s : State) : (endCycle s).env = s.env := rfl
@[simp] theorem endCycle_fresh (s : State) : (endCycle s).fresh = s.fresh := rfl

/-! ### unansweredRead -/

@[simp] theorem unansweredRead_cfg (s : State) : (unansweredRead s).cfg = s.cfg := rfl
@[simp] theorem unansweredRead_ram (s : State) : (unansweredRead s).ram = s.ram := rfl
@[simp] theorem unansweredRead_nv (s : State) : (unansweredRead s).nv = s.nv := rfl
@[simp] theorem unansweredRead_wel (s : State) : (unansweredRead s).wel = s.wel := rfl
@[simp] theorem unansweredRead_sr (s : State) : (unansweredRead s).sr = s.sr := rfl
@[simp] theorem unansweredRead_cls (s : State) : (unansweredRead s).cls = s.cls := rfl
@[simp] theorem unansweredRead_done (s : State) : (unansweredRead s).done = s.done := rfl
@[simp] theorem unansweredRead_chP (s : State) : (unansweredRead s).chP = s.chP := rfl
@[simp] theorem unansweredRead_chS (s : State) : (unansweredRead s).chS = s.chS := rfl
@[simp] theorem unansweredRead_ddir (s : State) : (unansweredRead s).ddir = s.ddir := rfl
@[simp] theorem unansweredRead_dout (s : State) : (unansweredRead s).dout = s.dout := rfl
@[simp] theorem unansweredRead_fabBase (s : State) : (unansweredRead s).fabBase = s.fabBase := rfl
@[simp] theorem unansweredRead_dirpat (s : State) : (unansweredRead s).dirpat = s.dirpat := rfl
@[simp] theorem unansweredRead_armed (s : State) : (unansweredRead s).armed = s.armed := rfl
@[simp] theorem unansweredRead_seqIds (s : State) : (unansweredRead s).seqIds = s.seqIds := rfl
@[simp] theorem unansweredRead_movIds (s : State) : (unansweredRead s).movIds = s.movIds := rfl
@[simp] theorem unansweredRead_cursor (s : State) : (unansweredRead s).cursor = s.cursor := rfl
@[simp] theorem unansweredRead_paused (s : State) : (unansweredRead s).paused = s.paused := rfl
@[simp] theorem unansweredRead_nvSel (s : State) : (unansweredRead s).nvSel = s.nvSel := rfl
@[simp] theorem unansweredRead_frame (s : State) : (unansweredRead s).frame = s.frame := rfl
@[simp] theorem unansweredRead_boot (s : State) : (unansweredRead s).boot = s.boot := rfl
@[simp] theorem unansweredRead_probeCount (s : State) : (unansweredRead s).probeCount = s.probeCount := rfl
@[simp] theorem unansweredRead_fault (s : State) : (unansweredRead s).fault = s.fault := rfl
@[simp] theorem unansweredRead_log (s : State) : (unansweredRead s).log = s.log := rfl
@[simp] theorem unansweredRead_wac (s : State) : (unansweredRead s).wac = s.wac := rfl
@[simp] theorem unansweredRead_lines (s : State) : (unansweredRead s).lines = s.lines := rfl
@[simp] theorem unansweredRead_result (s : State) : (unansweredRead s).result = s.result := rfl
@[simp] theorem unansweredRead_sampled (s : State) :
    (unansweredRead s).sampled = s.sampled ++ [Config.freeByte s.fresh] := rfl
@[simp] theorem unansweredRead_frames (s : State) : (unansweredRead s).frames = s.frames := rfl
@[simp] theorem unansweredRead_env (s : State) : (unansweredRead s).env = s.env := rfl
@[simp] theorem unansweredRead_fresh (s : State) : (unansweredRead s).fresh = s.fresh + 1 := rfl

/-! ### hostSample -/

@[simp] theorem hostSample_cfg (s : State) : (hostSample s).cfg = s.cfg := by
  unfold hostSample; split <;> rfl
@[simp] theorem hostSample_ram (s : State) : (hostSample s).ram = s.ram := by
  unfold hostSample; split <;> rfl
@[simp] theorem hostSample_nv (s : State) : (hostSample s).nv = s.nv := by
  unfold hostSample; split <;> rfl
@[simp] theorem hostSample_wel (s : State) : (hostSample s).wel = s.wel := by
  unfold hostSample; split <;> rfl
@[simp] theorem hostSample_sr (s : State) : (hostSample s).sr = s.sr := by
  unfold hostSample; split <;> rfl
@[simp] theorem hostSample_cls (s : State) : (hostSample s).cls = s.cls := by
  unfold hostSample; split <;> rfl
@[simp] theorem hostSample_done (s : State) : (hostSample s).done = s.done := by
  unfold hostSample; split <;> rfl
@[simp] theorem hostSample_chP (s : State) : (hostSample s).chP = s.chP := by
  unfold hostSample; split <;> rfl
@[simp] theorem hostSample_chS (s : State) : (hostSample s).chS = s.chS := by
  unfold hostSample; split <;> rfl
@[simp] theorem hostSample_ddir (s : State) : (hostSample s).ddir = s.ddir := by
  unfold hostSample; split <;> rfl
@[simp] theorem hostSample_dout (s : State) : (hostSample s).dout = s.dout := by
  unfold hostSample; split <;> rfl
@[simp] theorem hostSample_fabBase (s : State) : (hostSample s).fabBase = s.fabBase := by
  unfold hostSample; split <;> rfl
@[simp] theorem hostSample_dirpat (s : State) : (hostSample s).dirpat = s.dirpat := by
  unfold hostSample; split <;> rfl
@[simp] theorem hostSample_armed (s : State) : (hostSample s).armed = s.armed := by
  unfold hostSample; split <;> rfl
@[simp] theorem hostSample_seqIds (s : State) : (hostSample s).seqIds = s.seqIds := by
  unfold hostSample; split <;> rfl
@[simp] theorem hostSample_movIds (s : State) : (hostSample s).movIds = s.movIds := by
  unfold hostSample; split <;> rfl
@[simp] theorem hostSample_cursor (s : State) : (hostSample s).cursor = s.cursor := by
  unfold hostSample; split <;> rfl
@[simp] theorem hostSample_paused (s : State) : (hostSample s).paused = s.paused := by
  unfold hostSample; split <;> rfl
@[simp] theorem hostSample_nvSel (s : State) : (hostSample s).nvSel = s.nvSel := by
  unfold hostSample; split <;> rfl
@[simp] theorem hostSample_frame (s : State) : (hostSample s).frame = s.frame := by
  unfold hostSample; split <;> rfl
@[simp] theorem hostSample_boot (s : State) : (hostSample s).boot = s.boot := by
  unfold hostSample; split <;> rfl
@[simp] theorem hostSample_probeCount (s : State) : (hostSample s).probeCount = s.probeCount := by
  unfold hostSample; split <;> rfl
@[simp] theorem hostSample_fault (s : State) : (hostSample s).fault = s.fault := by
  unfold hostSample; split <;> rfl
@[simp] theorem hostSample_log (s : State) : (hostSample s).log = s.log := by
  unfold hostSample; split <;> rfl
@[simp] theorem hostSample_wac (s : State) : (hostSample s).wac = s.wac := by
  unfold hostSample; split <;> rfl
@[simp] theorem hostSample_lines (s : State) : (hostSample s).lines = s.lines := by
  unfold hostSample; split <;> rfl
@[simp] theorem hostSample_result (s : State) : (hostSample s).result = s.result := by
  unfold hostSample; split <;> rfl
@[simp] theorem hostSample_frames (s : State) : (hostSample s).frames = s.frames := by
  unfold hostSample; split <;> rfl
@[simp] theorem hostSample_env (s : State) : (hostSample s).env = s.env := by
  unfold hostSample; split <;> rfl
theorem hostSample_outward {s : State} (h : s.ddir = .outward) : hostSample s = { s with sampled := s.sampled ++ [s.dout] } := by
  simp [hostSample, h]
theorem hostSample_inward {s : State} (h : s.ddir = .inward) : hostSample s = unansweredRead s := by
  simp [hostSample, h]

/-! ### openFrame -/

@[simp] theorem openFrame_cfg (c : WireCmd) (s : State) : (openFrame c s).cfg = s.cfg := rfl
@[simp] theorem openFrame_ram (c : WireCmd) (s : State) : (openFrame c s).ram = s.ram := rfl
@[simp] theorem openFrame_nv (c : WireCmd) (s : State) : (openFrame c s).nv = s.nv := rfl
@[simp] theorem openFrame_wel (c : WireCmd) (s : State) : (openFrame c s).wel = s.wel := rfl
@[simp] theorem openFrame_sr (c : WireCmd) (s : State) : (openFrame c s).sr = s.sr := rfl
@[simp] theorem openFrame_cls (c : WireCmd) (s : State) : (openFrame c s).cls = s.cls := rfl
@[simp] theorem openFrame_done (c : WireCmd) (s : State) : (openFrame c s).done = s.done := rfl
@[simp] theorem openFrame_chP (c : WireCmd) (s : State) : (openFrame c s).chP = s.chP := rfl
@[simp] theorem openFrame_chS (c : WireCmd) (s : State) : (openFrame c s).chS = s.chS := rfl
@[simp] theorem openFrame_ddir (c : WireCmd) (s : State) : (openFrame c s).ddir = s.ddir := rfl
@[simp] theorem openFrame_dout (c : WireCmd) (s : State) : (openFrame c s).dout = s.dout := rfl
@[simp] theorem openFrame_fabBase (c : WireCmd) (s : State) : (openFrame c s).fabBase = s.fabBase := rfl
@[simp] theorem openFrame_dirpat (c : WireCmd) (s : State) : (openFrame c s).dirpat = s.dirpat := rfl
@[simp] theorem openFrame_armed (c : WireCmd) (s : State) : (openFrame c s).armed = s.armed := rfl
@[simp] theorem openFrame_seqIds (c : WireCmd) (s : State) : (openFrame c s).seqIds = s.seqIds := rfl
@[simp] theorem openFrame_movIds (c : WireCmd) (s : State) : (openFrame c s).movIds = s.movIds := rfl
@[simp] theorem openFrame_cursor (c : WireCmd) (s : State) : (openFrame c s).cursor = s.cursor := rfl
@[simp] theorem openFrame_paused (c : WireCmd) (s : State) : (openFrame c s).paused = s.paused := rfl
@[simp] theorem openFrame_nvSel (c : WireCmd) (s : State) : (openFrame c s).nvSel = true := rfl
@[simp] theorem openFrame_frame (c : WireCmd) (s : State) : (openFrame c s).frame = c.tx := rfl
@[simp] theorem openFrame_boot (c : WireCmd) (s : State) : (openFrame c s).boot = s.boot := rfl
@[simp] theorem openFrame_probeCount (c : WireCmd) (s : State) : (openFrame c s).probeCount = s.probeCount := rfl
@[simp] theorem openFrame_fault (c : WireCmd) (s : State) : (openFrame c s).fault = s.fault := rfl
@[simp] theorem openFrame_log (c : WireCmd) (s : State) : (openFrame c s).log = s.log := rfl
@[simp] theorem openFrame_wac (c : WireCmd) (s : State) : (openFrame c s).wac = s.wac := rfl
@[simp] theorem openFrame_lines (c : WireCmd) (s : State) : (openFrame c s).lines = s.lines := rfl
@[simp] theorem openFrame_result (c : WireCmd) (s : State) : (openFrame c s).result = s.result := rfl
@[simp] theorem openFrame_sampled (c : WireCmd) (s : State) : (openFrame c s).sampled = s.sampled := rfl
@[simp] theorem openFrame_frames (c : WireCmd) (s : State) : (openFrame c s).frames = s.frames := rfl
@[simp] theorem openFrame_env (c : WireCmd) (s : State) : (openFrame c s).env = s.env := rfl
@[simp] theorem openFrame_fresh (c : WireCmd) (s : State) : (openFrame c s).fresh = s.fresh := rfl

/-! ### closeFrame -/

@[simp] theorem closeFrame_cfg (c : WireCmd) (rx : List Byte) (s : State) : (closeFrame c rx s).cfg = s.cfg := rfl
@[simp] theorem closeFrame_ram (c : WireCmd) (rx : List Byte) (s : State) : (closeFrame c rx s).ram = s.ram := rfl
@[simp] theorem closeFrame_nv (c : WireCmd) (rx : List Byte) (s : State) : (closeFrame c rx s).nv = s.nv := rfl
@[simp] theorem closeFrame_wel (c : WireCmd) (rx : List Byte) (s : State) : (closeFrame c rx s).wel = s.wel := rfl
@[simp] theorem closeFrame_sr (c : WireCmd) (rx : List Byte) (s : State) : (closeFrame c rx s).sr = s.sr := rfl
@[simp] theorem closeFrame_cls (c : WireCmd) (rx : List Byte) (s : State) : (closeFrame c rx s).cls = s.cls := rfl
@[simp] theorem closeFrame_done (c : WireCmd) (rx : List Byte) (s : State) : (closeFrame c rx s).done = s.done := rfl
@[simp] theorem closeFrame_chP (c : WireCmd) (rx : List Byte) (s : State) : (closeFrame c rx s).chP = s.chP := rfl
@[simp] theorem closeFrame_chS (c : WireCmd) (rx : List Byte) (s : State) : (closeFrame c rx s).chS = s.chS := rfl
@[simp] theorem closeFrame_ddir (c : WireCmd) (rx : List Byte) (s : State) : (closeFrame c rx s).ddir = s.ddir := rfl
@[simp] theorem closeFrame_dout (c : WireCmd) (rx : List Byte) (s : State) : (closeFrame c rx s).dout = s.dout := rfl
@[simp] theorem closeFrame_fabBase (c : WireCmd) (rx : List Byte) (s : State) :
    (closeFrame c rx s).fabBase = s.fabBase := rfl
@[simp] theorem closeFrame_dirpat (c : WireCmd) (rx : List Byte) (s : State) :
    (closeFrame c rx s).dirpat = s.dirpat := rfl
@[simp] theorem closeFrame_armed (c : WireCmd) (rx : List Byte) (s : State) :
    (closeFrame c rx s).armed = s.armed := rfl
@[simp] theorem closeFrame_seqIds (c : WireCmd) (rx : List Byte) (s : State) :
    (closeFrame c rx s).seqIds = s.seqIds := rfl
@[simp] theorem closeFrame_movIds (c : WireCmd) (rx : List Byte) (s : State) :
    (closeFrame c rx s).movIds = s.movIds := rfl
@[simp] theorem closeFrame_cursor (c : WireCmd) (rx : List Byte) (s : State) :
    (closeFrame c rx s).cursor = s.cursor := rfl
@[simp] theorem closeFrame_paused (c : WireCmd) (rx : List Byte) (s : State) :
    (closeFrame c rx s).paused = s.paused := rfl
@[simp] theorem closeFrame_nvSel (c : WireCmd) (rx : List Byte) (s : State) : (closeFrame c rx s).nvSel = false := rfl
@[simp] theorem closeFrame_frame (c : WireCmd) (rx : List Byte) (s : State) : (closeFrame c rx s).frame = [] := rfl
@[simp] theorem closeFrame_boot (c : WireCmd) (rx : List Byte) (s : State) : (closeFrame c rx s).boot = s.boot := rfl
@[simp] theorem closeFrame_probeCount (c : WireCmd) (rx : List Byte) (s : State) :
    (closeFrame c rx s).probeCount = s.probeCount := rfl
@[simp] theorem closeFrame_fault (c : WireCmd) (rx : List Byte) (s : State) :
    (closeFrame c rx s).fault = s.fault := rfl
@[simp] theorem closeFrame_log (c : WireCmd) (rx : List Byte) (s : State) : (closeFrame c rx s).log = s.log := rfl
@[simp] theorem closeFrame_wac (c : WireCmd) (rx : List Byte) (s : State) : (closeFrame c rx s).wac = s.wac := rfl
@[simp] theorem closeFrame_lines (c : WireCmd) (rx : List Byte) (s : State) :
    (closeFrame c rx s).lines = s.lines := rfl
@[simp] theorem closeFrame_result (c : WireCmd) (rx : List Byte) (s : State) :
    (closeFrame c rx s).result = s.result := rfl
@[simp] theorem closeFrame_sampled (c : WireCmd) (rx : List Byte) (s : State) :
    (closeFrame c rx s).sampled = s.sampled := rfl
@[simp] theorem closeFrame_frames (c : WireCmd) (rx : List Byte) (s : State) :
    (closeFrame c rx s).frames = s.frames ++ [⟨c.tx, rx⟩] := rfl
@[simp] theorem closeFrame_env (c : WireCmd) (rx : List Byte) (s : State) : (closeFrame c rx s).env = s.env := rfl
@[simp] theorem closeFrame_fresh (c : WireCmd) (rx : List Byte) (s : State) :
    (closeFrame c rx s).fresh = s.fresh := rfl

/-! ### welAny -/

@[simp] theorem welAny_cfg (s : State) : (welAny s).cfg = s.cfg := rfl
@[simp] theorem welAny_ram (s : State) : (welAny s).ram = s.ram := rfl
@[simp] theorem welAny_nv (s : State) : (welAny s).nv = s.nv := rfl
@[simp] theorem welAny_wel (s : State) : (welAny s).wel = Config.freeBit s.fresh := rfl
@[simp] theorem welAny_sr (s : State) : (welAny s).sr = s.sr := rfl
@[simp] theorem welAny_cls (s : State) : (welAny s).cls = s.cls := rfl
@[simp] theorem welAny_done (s : State) : (welAny s).done = s.done := rfl
@[simp] theorem welAny_chP (s : State) : (welAny s).chP = s.chP := rfl
@[simp] theorem welAny_chS (s : State) : (welAny s).chS = s.chS := rfl
@[simp] theorem welAny_ddir (s : State) : (welAny s).ddir = s.ddir := rfl
@[simp] theorem welAny_dout (s : State) : (welAny s).dout = s.dout := rfl
@[simp] theorem welAny_fabBase (s : State) : (welAny s).fabBase = s.fabBase := rfl
@[simp] theorem welAny_dirpat (s : State) : (welAny s).dirpat = s.dirpat := rfl
@[simp] theorem welAny_armed (s : State) : (welAny s).armed = s.armed := rfl
@[simp] theorem welAny_seqIds (s : State) : (welAny s).seqIds = s.seqIds := rfl
@[simp] theorem welAny_movIds (s : State) : (welAny s).movIds = s.movIds := rfl
@[simp] theorem welAny_cursor (s : State) : (welAny s).cursor = s.cursor := rfl
@[simp] theorem welAny_paused (s : State) : (welAny s).paused = s.paused := rfl
@[simp] theorem welAny_nvSel (s : State) : (welAny s).nvSel = s.nvSel := rfl
@[simp] theorem welAny_frame (s : State) : (welAny s).frame = s.frame := rfl
@[simp] theorem welAny_boot (s : State) : (welAny s).boot = s.boot := rfl
@[simp] theorem welAny_probeCount (s : State) : (welAny s).probeCount = s.probeCount := rfl
@[simp] theorem welAny_fault (s : State) : (welAny s).fault = s.fault := rfl
@[simp] theorem welAny_log (s : State) : (welAny s).log = s.log := rfl
@[simp] theorem welAny_wac (s : State) : (welAny s).wac = s.wac := rfl
@[simp] theorem welAny_lines (s : State) : (welAny s).lines = s.lines := rfl
@[simp] theorem welAny_result (s : State) : (welAny s).result = s.result := rfl
@[simp] theorem welAny_sampled (s : State) : (welAny s).sampled = s.sampled := rfl
@[simp] theorem welAny_frames (s : State) : (welAny s).frames = s.frames := rfl
@[simp] theorem welAny_env (s : State) : (welAny s).env = s.env := rfl
@[simp] theorem welAny_fresh (s : State) : (welAny s).fresh = s.fresh + 1 := rfl

/-! ### hardReset -/

@[simp] theorem hardReset_cfg (s : State) : (hardReset s).cfg = s.cfg := rfl
@[simp] theorem hardReset_ram (s : State) : (hardReset s).ram = ramAfterReset s.cfg s.fresh := rfl
@[simp] theorem hardReset_nv (s : State) : (hardReset s).nv = s.nv := rfl
@[simp] theorem hardReset_wel (s : State) : (hardReset s).wel = false := rfl
@[simp] theorem hardReset_sr (s : State) : (hardReset s).sr = s.sr := rfl
@[simp] theorem hardReset_cls (s : State) : (hardReset s).cls = .idle := rfl
@[simp] theorem hardReset_done (s : State) : (hardReset s).done = none := rfl
@[simp] theorem hardReset_ddir (s : State) : (hardReset s).ddir = .inward := rfl
@[simp] theorem hardReset_armed (s : State) : (hardReset s).armed = false := rfl
@[simp] theorem hardReset_cursor (s : State) : (hardReset s).cursor = 0 := rfl
@[simp] theorem hardReset_paused (s : State) : (hardReset s).paused = false := rfl
@[simp] theorem hardReset_nvSel (s : State) : (hardReset s).nvSel = false := rfl
@[simp] theorem hardReset_frame (s : State) : (hardReset s).frame = [] := rfl
@[simp] theorem hardReset_boot (s : State) : (hardReset s).boot = .bReset := rfl
@[simp] theorem hardReset_probeCount (s : State) : (hardReset s).probeCount = 0 := rfl
@[simp] theorem hardReset_fault (s : State) : (hardReset s).fault = ⟨false, false⟩ := rfl
@[simp] theorem hardReset_log (s : State) : (hardReset s).log = [] := rfl
@[simp] theorem hardReset_wac (s : State) : (hardReset s).wac = [] := rfl
@[simp] theorem hardReset_lines (s : State) : (hardReset s).lines = s.lines := rfl
@[simp] theorem hardReset_result (s : State) : (hardReset s).result = .none := rfl
@[simp] theorem hardReset_sampled (s : State) : (hardReset s).sampled = s.sampled := rfl
@[simp] theorem hardReset_frames (s : State) : (hardReset s).frames = s.frames := rfl
@[simp] theorem hardReset_env (s : State) : (hardReset s).env = s.env := rfl
@[simp] theorem hardReset_fresh (s : State) : (hardReset s).fresh = s.fresh + s.cfg.len + s.cfg.secLen + 24 := rfl

/-! ### setChan -/

@[simp] theorem setChan_cfg (s : State) (c : Channel) (ch : Chan) : (s.setChan c ch).cfg = s.cfg := by
  cases c <;> rfl
@[simp] theorem setChan_ram (s : State) (c : Channel) (ch : Chan) : (s.setChan c ch).ram = s.ram := by
  cases c <;> rfl
@[simp] theorem setChan_nv (s : State) (c : Channel) (ch : Chan) : (s.setChan c ch).nv = s.nv := by
  cases c <;> rfl
@[simp] theorem setChan_wel (s : State) (c : Channel) (ch : Chan) : (s.setChan c ch).wel = s.wel := by
  cases c <;> rfl
@[simp] theorem setChan_sr (s : State) (c : Channel) (ch : Chan) : (s.setChan c ch).sr = s.sr := by
  cases c <;> rfl
@[simp] theorem setChan_cls (s : State) (c : Channel) (ch : Chan) : (s.setChan c ch).cls = s.cls := by
  cases c <;> rfl
@[simp] theorem setChan_done (s : State) (c : Channel) (ch : Chan) : (s.setChan c ch).done = s.done := by
  cases c <;> rfl
@[simp] theorem setChan_ddir (s : State) (c : Channel) (ch : Chan) : (s.setChan c ch).ddir = s.ddir := by
  cases c <;> rfl
@[simp] theorem setChan_dout (s : State) (c : Channel) (ch : Chan) : (s.setChan c ch).dout = s.dout := by
  cases c <;> rfl
@[simp] theorem setChan_fabBase (s : State) (c : Channel) (ch : Chan) : (s.setChan c ch).fabBase = s.fabBase := by
  cases c <;> rfl
@[simp] theorem setChan_dirpat (s : State) (c : Channel) (ch : Chan) : (s.setChan c ch).dirpat = s.dirpat := by
  cases c <;> rfl
@[simp] theorem setChan_armed (s : State) (c : Channel) (ch : Chan) : (s.setChan c ch).armed = s.armed := by
  cases c <;> rfl
@[simp] theorem setChan_seqIds (s : State) (c : Channel) (ch : Chan) : (s.setChan c ch).seqIds = s.seqIds := by
  cases c <;> rfl
@[simp] theorem setChan_movIds (s : State) (c : Channel) (ch : Chan) : (s.setChan c ch).movIds = s.movIds := by
  cases c <;> rfl
@[simp] theorem setChan_cursor (s : State) (c : Channel) (ch : Chan) : (s.setChan c ch).cursor = s.cursor := by
  cases c <;> rfl
@[simp] theorem setChan_paused (s : State) (c : Channel) (ch : Chan) : (s.setChan c ch).paused = s.paused := by
  cases c <;> rfl
@[simp] theorem setChan_nvSel (s : State) (c : Channel) (ch : Chan) : (s.setChan c ch).nvSel = s.nvSel := by
  cases c <;> rfl
@[simp] theorem setChan_frame (s : State) (c : Channel) (ch : Chan) : (s.setChan c ch).frame = s.frame := by
  cases c <;> rfl
@[simp] theorem setChan_boot (s : State) (c : Channel) (ch : Chan) : (s.setChan c ch).boot = s.boot := by
  cases c <;> rfl
@[simp] theorem setChan_probeCount (s : State) (c : Channel) (ch : Chan) : (s.setChan c ch).probeCount = s.probeCount := by
  cases c <;> rfl
@[simp] theorem setChan_fault (s : State) (c : Channel) (ch : Chan) : (s.setChan c ch).fault = s.fault := by
  cases c <;> rfl
@[simp] theorem setChan_log (s : State) (c : Channel) (ch : Chan) : (s.setChan c ch).log = s.log := by
  cases c <;> rfl
@[simp] theorem setChan_wac (s : State) (c : Channel) (ch : Chan) : (s.setChan c ch).wac = s.wac := by
  cases c <;> rfl
@[simp] theorem setChan_lines (s : State) (c : Channel) (ch : Chan) : (s.setChan c ch).lines = s.lines := by
  cases c <;> rfl
@[simp] theorem setChan_result (s : State) (c : Channel) (ch : Chan) : (s.setChan c ch).result = s.result := by
  cases c <;> rfl
@[simp] theorem setChan_sampled (s : State) (c : Channel) (ch : Chan) : (s.setChan c ch).sampled = s.sampled := by
  cases c <;> rfl
@[simp] theorem setChan_frames (s : State) (c : Channel) (ch : Chan) : (s.setChan c ch).frames = s.frames := by
  cases c <;> rfl
@[simp] theorem setChan_env (s : State) (c : Channel) (ch : Chan) : (s.setChan c ch).env = s.env := by
  cases c <;> rfl
@[simp] theorem setChan_fresh (s : State) (c : Channel) (ch : Chan) : (s.setChan c ch).fresh = s.fresh := by
  cases c <;> rfl

@[simp] theorem setChan_chan (s : State) (c : Channel) (ch : Chan) : (s.setChan c ch).chan c = ch := by
  cases c <;> rfl

@[simp] theorem setChan_chan_other (s : State) (c : Channel) (ch : Chan) :
    (s.setChan c ch).chan (otherChannel c) = s.chan (otherChannel c) := by
  cases c <;> rfl

@[simp] theorem setChan_primary_chS (s : State) (ch : Chan) : (s.setChan .primary ch).chS = s.chS := rfl
@[simp] theorem setChan_primary_chP (s : State) (ch : Chan) : (s.setChan .primary ch).chP = ch := rfl
@[simp] theorem setChan_secondary_chP (s : State) (ch : Chan) : (s.setChan .secondary ch).chP = s.chP := rfl
@[simp] theorem setChan_secondary_chS (s : State) (ch : Chan) : (s.setChan .secondary ch).chS = ch := rfl
@[simp] theorem chan_primary (s : State) : s.chan .primary = s.chP := rfl
@[simp] theorem chan_secondary (s : State) : s.chan .secondary = s.chS := rfl
@[simp] theorem otherChannel_other (c : Channel) : otherChannel (otherChannel c) = c := by cases c <;> rfl

end Sys2Proof.Machine
end

