-- ==== Sys2Proof/Laws/Engine.lean ====
section
/-! SUPPORT. What each micro-step of the engine can answer, and that every agent keeps the shape of the engine. -/

namespace Sys2Proof.Machine

/-! ### What one operation can answer -/

theorem map_eq_ok {ε α β : Type} {e : Except ε α} {f : α → β} {b : β} :
    e.map f = .ok b ↔ ∃ a, e = .ok a ∧ f a = b := by
  cases e <;> simp [Except.map]

theorem push_eq_ok {α : Type} {q : QueueName} {slot r : Option α} {v : α} :
    push q slot v = .ok r ↔ slot = none ∧ r = some v := by
  cases slot <;> simp [push, eq_comm]

theorem pop_eq_ok {α : Type} {q : QueueName} {slot : Option α} {r : α × Option α} :
    pop q slot = .ok r ↔ slot = some r.1 ∧ r.2 = none := by
  obtain ⟨a, o⟩ := r
  cases slot <;> simp [pop, eq_comm]

theorem memRead_eq_ok {s : State} {la : Nat} {b : Byte} :
    memRead s la = .ok b ↔ localMapped s.cfg la = true ∧ b = Memory.read s.ram la := by
  unfold memRead
  split_ifs with h <;> simp [h, eq_comm]

theorem memWrite_eq_ok {s t : State} {la : Nat} {v : Byte} :
    memWrite s la v = .ok t ↔ localMapped s.cfg la = true ∧ t = { s with ram := Memory.write s.ram la v } := by
  unfold memWrite
  split_ifs with h <;> simp [h, eq_comm]

theorem acuLow_eq_ok {c : Channel} {s t : State} :
    acuLow c s = .ok t ↔
      windowAddr s.cfg c (s.chan c).ahi (lowBits (alWidth s.cfg c) s.lines.amuxSecond) < windowLen s.cfg c ∧
      t = s.setChan c { s.chan c with alo := lowBits (alWidth s.cfg c) s.lines.amuxSecond, acu := .emit } := by
  simp only [acuLow]
  split_ifs with h
  · simp; omega
  · simp only [Except.ok.injEq, eq_comm, show _ < windowLen s.cfg c from Nat.lt_of_not_le h, true_and]

theorem resting_iff (ch : Chan) : ch.resting = true ↔
    ch.trigRd = none ∧ ch.trigWr = none ∧ ch.idxRd = none ∧ ch.idxWr = none ∧ ch.doutQ = none ∧ ch.dinQ = none ∧
    ch.rdRing = .addr ∧ ch.wrRing = .addr ∧ ch.acu = .wait ∧ ch.rr = .wait := by
  simp [Chan.resting, and_assoc]

theorem countMarks_six (a b c d e f : Bool) : countMarks [a, b, c, d, e, f] = 1 ↔
    (a = true ∧ b = false ∧ c = false ∧ d = false ∧ e = false ∧ f = false) ∨
    (a = false ∧ b = true ∧ c = false ∧ d = false ∧ e = false ∧ f = false) ∨
    (a = false ∧ b = false ∧ c = true ∧ d = false ∧ e = false ∧ f = false) ∨
    (a = false ∧ b = false ∧ c = false ∧ d = true ∧ e = false ∧ f = false) ∨
    (a = false ∧ b = false ∧ c = false ∧ d = false ∧ e = true ∧ f = false) ∨
    (a = false ∧ b = false ∧ c = false ∧ d = false ∧ e = false ∧ f = true) := by
  cases a <;> cases b <;> cases c <;> cases d <;> cases e <;> cases f <;> decide

theorem countMarks_four (a b c d : Bool) : countMarks [a, b, c, d] = 1 ↔
    (a = true ∧ b = false ∧ c = false ∧ d = false) ∨ (a = false ∧ b = true ∧ c = false ∧ d = false) ∨
    (a = false ∧ b = false ∧ c = true ∧ d = false) ∨ (a = false ∧ b = false ∧ c = false ∧ d = true) := by
  cases a <;> cases b <;> cases c <;> cases d <;> decide

/-- The places of a read cycle in its channel. -/
theorem inFlight_rd_iff (ch : Chan) : ch.inFlight .rd = true ↔
    (ch.trigWr = none ∧ ch.idxWr = none ∧ ch.wrRing = .addr ∧ ch.dinQ = none) ∧
    ((ch.trigRd.isSome ∧ ch.acu = .wait ∧ ch.idxRd = none ∧ ch.rdRing = .addr ∧ ch.doutQ = none ∧ ch.rr = .wait) ∨
     (ch.trigRd = none ∧ ch.acu ≠ .wait ∧ ch.akind = .rd ∧ ch.idxRd = none ∧ ch.rdRing = .addr ∧ ch.doutQ = none ∧
        ch.rr = .wait) ∨
     (ch.trigRd = none ∧ ch.acu = .wait ∧ ch.idxRd.isSome ∧ ch.rdRing = .addr ∧ ch.doutQ = none ∧ ch.rr = .wait) ∨
     (ch.trigRd = none ∧ ch.acu = .wait ∧ ch.idxRd = none ∧ ch.rdRing ≠ .addr ∧ ch.doutQ = none ∧ ch.rr = .wait) ∨
     (ch.trigRd = none ∧ ch.acu = .wait ∧ ch.idxRd = none ∧ ch.rdRing = .addr ∧ ch.doutQ.isSome ∧ ch.rr = .wait) ∨
     (ch.trigRd = none ∧ ch.acu = .wait ∧ ch.idxRd = none ∧ ch.rdRing = .addr ∧ ch.doutQ = none ∧ ch.rr ≠ .wait)) := by
  simp only [Chan.inFlight, Chan.readMarks, countMarks_six, Bool.and_eq_true, decide_eq_true_eq, Option.isNone_iff_eq_none,
    Bool.or_eq_true, decide_eq_false_iff_not, not_not, Option.isSome_eq_false_iff, ne_eq]
  by_cases ha : ch.acu = .wait
  · simp only [ha, not_true_eq_false, false_and, and_false, false_or, true_or, true_and]
    tauto
  · simp only [ha, not_false_eq_true, false_and, and_false, false_or, true_and]
    tauto

theorem inFlight_wr_iff (ch : Chan) : ch.inFlight .wr = true ↔
    (ch.trigRd = none ∧ ch.idxRd = none ∧ ch.rdRing = .addr ∧ ch.doutQ = none ∧ ch.rr = .wait) ∧
    ((ch.trigWr.isSome ∧ ch.acu = .wait ∧ ch.idxWr = none ∧ ch.wrRing = .addr ∧ ch.dinQ = none) ∨
     (ch.trigWr = none ∧ ch.acu ≠ .wait ∧ ch.akind = .wr ∧ ch.idxWr = none ∧ ch.wrRing = .addr ∧ ch.dinQ = none) ∨
     (ch.trigWr = none ∧ ch.acu = .wait ∧ ch.idxWr.isSome ∧ ch.wrRing = .addr ∧ ch.dinQ = none) ∨
     (ch.trigWr = none ∧ ch.acu = .wait ∧ ch.idxWr = none ∧ ch.wrRing = .datain) ∨
     (ch.trigWr = none ∧ ch.acu = .wait ∧ ch.idxWr = none ∧ ch.wrRing = .store ∧ ch.dinQ = none)) := by
  simp only [Chan.inFlight, Chan.writeMarks, countMarks_four, Bool.and_eq_true, decide_eq_true_eq, Option.isNone_iff_eq_none,
    Bool.or_eq_true, decide_eq_false_iff_not, not_not, Option.isSome_eq_false_iff, ne_eq]
  by_cases ha : ch.acu = .wait <;> cases hw : ch.wrRing <;> simp [ha] <;> tauto

/-- The shape of the engine while a cycle is in flight. -/
theorem engineShape_busy_iff {s : State} {k : CycleClass} (hc : s.cls = .busy k) (hd : s.done = none) :
    s.engineShape = true ↔ (s.chan (otherChannel k.channel)).resting = true ∧ (s.chan k.channel).inFlight k.dir = true := by
  simp [State.engineShape, hc, hd]

/-- A resting channel has no enabled agent. -/
theorem resting_no_step {s : State} {c : Channel} (h : (s.chan c).resting = true) :
    acuStep c s = none ∧ rdChainStep c s = none ∧ rrStep c s = none ∧ wcStep c s = none ∧ wrChainStep c s = none := by
  rw [resting_iff] at h
  simp [acuStep, rdChainStep, rrStep, wcStep, wrChainStep, h]

/-- Where an agent of channel `c` has a step, a cycle of that channel is in flight. -/
theorem busy_of_not_resting {s : State} {c : Channel} (h : s.engineShape = true) (hr : (s.chan c).resting ≠ true) :
    ∃ k, s.cls = .busy k ∧ s.done = none ∧ k.channel = c := by
  cases hc : s.cls with
  | busy k =>
    have hk : k.channel = c ∨ otherChannel k.channel = c := by
      cases k <;> cases c <;> simp [CycleClass.channel, otherChannel]
    have h' := h
    simp only [State.engineShape, hc, Bool.and_eq_true] at h'
    rcases hk with hk | hk
    · subst hk
      cases hd : s.done with
      | none => exact ⟨k, rfl, rfl, rfl⟩
      | some u => simp [hd, hr] at h'
    · subst hk; exact absurd h'.1 hr
  | _ => cases c <;> simp_all [State.engineShape]


theorem engineShape_of_flight {t : State} (k : CycleClass) (hc : t.cls = .busy k) (hd : t.done = none)
    (ho : (t.chan (otherChannel k.channel)).resting = true) (hf : (t.chan k.channel).inFlight k.dir = true) :
    t.engineShape = true :=
  (engineShape_busy_iff hc hd).2 ⟨ho, hf⟩

theorem engineShape_of_done {t : State} (k : CycleClass) (hc : t.cls = .busy k) (hd : t.done = some ())
    (ho : (t.chan (otherChannel k.channel)).resting = true) (hf : (t.chan k.channel).resting = true) :
    t.engineShape = true := by
  simp [State.engineShape, hc, hd, ho, hf]


/-- Where an agent has a step the engine runs: armed, and not in the fault state. -/
theorem engineRuns_of_agentStep {a : Agent} {s : State} {r : Except Fault State} (h : agentStep a s = some r) :
    s.engineRuns = true := by
  unfold agentStep at h
  split_ifs at h with hr
  exact hr

/-- No agent has a step while the engine does not run. -/
theorem agentStep_of_not_runs {s : State} (h : s.engineRuns = false) (a : Agent) : agentStep a s = none := by
  simp [agentStep, h]

theorem clsStep_ok {s t : State} (h : s.engineShape = true) (hs : clsStep s = some (.ok t)) : t.engineShape = true := by
  simp only [clsStep] at hs
  split at hs
  · next hc =>
    split_ifs at hs
    simp only [Option.some.injEq, Except.ok.injEq] at hs
    subst hs
    simpa [State.engineShape, hc] using h
  · next hc =>
    split_ifs at hs
    · simp only [clsDispatch, pushTrig, Option.some.injEq] at hs
      simp only [State.engineShape, hc, Bool.and_eq_true, Option.isNone_iff_eq_none] at h
      obtain ⟨⟨hP, hS⟩, hd⟩ := h
      obtain ⟨u, hu, rfl⟩ := map_eq_ok.1 hs
      cases hk : classify s.lines.chsel s.lines.dir <;> simp only [hk, CycleClass.dir, CycleClass.channel] at hu <;>
      · obtain ⟨q, hq, rfl⟩ := map_eq_ok.1 hu
        obtain ⟨-, rfl⟩ := push_eq_ok.1 hq
        refine engineShape_of_flight _ rfl (by simpa using hd) ?_ ?_ <;>
        simp_all [CycleClass.dir, CycleClass.channel, otherChannel, inFlight_rd_iff, inFlight_wr_iff, resting_iff]
    · simp only [Option.some.injEq, Except.ok.injEq] at hs
      subst hs
      simpa [State.engineShape, hc] using h
  · next k hc =>
    split at hs
    · cases hs
    · next u hd =>
      obtain ⟨r, hr, rfl⟩ := map_eq_ok.1 (Option.some.inj hs)
      obtain ⟨-, hn⟩ := pop_eq_ok.1 hr
      simp only [State.engineShape, hc, hd, Bool.and_eq_true] at h
      cases k <;> simp_all [State.engineShape, CycleClass.channel, otherChannel]
  · next hc =>
    split_ifs at hs
    simp only [Option.some.injEq, Except.ok.injEq] at hs
    subst hs
    simpa [State.engineShape, hc] using h

theorem acuStep_ok {c : Channel} {s t : State} (h : s.engineShape = true) (hs : acuStep c s = some (.ok t)) :
    t.engineShape = true := by
  obtain ⟨k, hc, hd, hk⟩ := busy_of_not_resting (c := c) h (fun hr => by simp [(resting_no_step hr).1] at hs)
  subst hk
  obtain ⟨ho, hf⟩ := (engineShape_busy_iff hc hd).1 h
  cases k <;> simp only [CycleClass.dir, CycleClass.channel, otherChannel, chan_primary, chan_secondary, inFlight_rd_iff,
      inFlight_wr_iff] at * <;>
  · simp only [acuStep] at hs
    split at hs
    · split at hs <;> simp only [acuTake, Option.some.injEq, Except.ok.injEq, reduceCtorEq] at hs <;> subst hs <;>
      refine engineShape_of_flight _ (by simpa using hc) (by simpa using hd) ?_ ?_ <;>
      simp_all [CycleClass.dir, CycleClass.channel, otherChannel, inFlight_rd_iff, inFlight_wr_iff]
    · simp only [acuHigh, Option.some.injEq, Except.ok.injEq] at hs
      subst hs
      refine engineShape_of_flight _ (by simpa using hc) (by simpa using hd) ?_ ?_ <;>
      simp_all [CycleClass.dir, CycleClass.channel, otherChannel, inFlight_rd_iff, inFlight_wr_iff]
    · obtain ⟨-, rfl⟩ := acuLow_eq_ok.1 (Option.some.inj hs)
      refine engineShape_of_flight _ (by simpa using hc) (by simpa using hd) ?_ ?_ <;>
      simp_all [CycleClass.dir, CycleClass.channel, otherChannel, inFlight_rd_iff, inFlight_wr_iff]
    · simp only [acuEmit, Option.some.injEq] at hs
      split at hs <;> obtain ⟨q, hq, rfl⟩ := map_eq_ok.1 hs <;> obtain ⟨-, rfl⟩ := push_eq_ok.1 hq <;>
        refine engineShape_of_flight _ (by simpa using hc) (by simpa using hd) ?_ ?_ <;>
        simp_all [CycleClass.dir, CycleClass.channel, otherChannel, inFlight_rd_iff, inFlight_wr_iff]

theorem rdChainStep_ok {c : Channel} {s t : State} (h : s.engineShape = true) (hs : rdChainStep c s = some (.ok t)) :
    t.engineShape = true := by
  obtain ⟨k, hc, hd, hk⟩ := busy_of_not_resting (c := c) h (fun hr => by simp [resting_no_step hr] at hs)
  subst hk
  obtain ⟨ho, hf⟩ := (engineShape_busy_iff hc hd).1 h
  cases k <;> simp only [CycleClass.dir, CycleClass.channel, otherChannel, chan_primary, chan_secondary, inFlight_rd_iff,
      inFlight_wr_iff] at * <;>
  · simp only [rdChainStep] at hs
    split at hs
    · split at hs <;> simp only [Option.some.injEq, Except.ok.injEq, reduceCtorEq] at hs <;> subst hs <;>
      refine engineShape_of_flight _ (by simpa using hc) (by simpa using hd) ?_ ?_ <;>
      simp_all [CycleClass.dir, CycleClass.channel, otherChannel, inFlight_rd_iff, inFlight_wr_iff]
    · obtain ⟨b, -, rfl⟩ := map_eq_ok.1 (Option.some.inj hs)
      refine engineShape_of_flight _ (by simpa using hc) (by simpa using hd) ?_ ?_ <;>
      simp_all [CycleClass.dir, CycleClass.channel, otherChannel, inFlight_rd_iff, inFlight_wr_iff]
    · split at hs <;> simp only [Option.some.injEq, Except.ok.injEq, reduceCtorEq] at hs <;> subst hs <;>
      refine engineShape_of_flight _ (by simpa using hc) (by simpa using hd) ?_ ?_ <;>
      simp_all [CycleClass.dir, CycleClass.channel, otherChannel, inFlight_rd_iff, inFlight_wr_iff]

theorem rrStep_ok {c : Channel} {s t : State} (h : s.engineShape = true) (hs : rrStep c s = some (.ok t)) :
    t.engineShape = true := by
  obtain ⟨k, hc, hd, hk⟩ := busy_of_not_resting (c := c) h (fun hr => by simp [resting_no_step hr] at hs)
  subst hk
  obtain ⟨ho, hf⟩ := (engineShape_busy_iff hc hd).1 h
  cases k <;> simp only [CycleClass.dir, CycleClass.channel, otherChannel, chan_primary, chan_secondary, inFlight_rd_iff,
      inFlight_wr_iff] at * <;>
  · simp only [rrStep] at hs
    split at hs
    · split at hs <;> simp only [Option.some.injEq, Except.ok.injEq, reduceCtorEq] at hs <;> subst hs <;>
      refine engineShape_of_flight _ (by simpa using hc) (by simpa using hd) ?_ ?_ <;>
      simp_all [CycleClass.dir, CycleClass.channel, otherChannel, inFlight_rd_iff, inFlight_wr_iff]
    · simp only [Option.some.injEq, Except.ok.injEq] at hs
      subst hs
      refine engineShape_of_flight _ (by simpa using hc) (by simpa using hd) ?_ ?_ <;>
      simp_all [CycleClass.dir, CycleClass.channel, otherChannel, inFlight_rd_iff, inFlight_wr_iff]
    · obtain ⟨q, hq, rfl⟩ := map_eq_ok.1 (Option.some.inj hs)
      obtain ⟨-, rfl⟩ := push_eq_ok.1 hq
      refine engineShape_of_done _ (by simpa using hc) (by simp) ?_ ?_ <;>
      simp_all [CycleClass.dir, CycleClass.channel, otherChannel, resting_iff]

theorem wcStep_ok {c : Channel} {s t : State} (h : s.engineShape = true) (hs : wcStep c s = some (.ok t)) :
    t.engineShape = true := by
  obtain ⟨k, hc, hd, hk⟩ := busy_of_not_resting (c := c) h (fun hr => by simp [resting_no_step hr] at hs)
  subst hk
  obtain ⟨ho, hf⟩ := (engineShape_busy_iff hc hd).1 h
  cases k <;> simp only [CycleClass.dir, CycleClass.channel, otherChannel, chan_primary, chan_secondary, inFlight_rd_iff,
      inFlight_wr_iff] at * <;>
  · simp only [wcStep] at hs
    split at hs
    · obtain ⟨q, hq, rfl⟩ := map_eq_ok.1 (Option.some.inj hs)
      obtain ⟨-, rfl⟩ := push_eq_ok.1 hq
      refine engineShape_of_flight _ (by simpa using hc) (by simpa using hd) ?_ ?_ <;>
      simp_all [CycleClass.dir, CycleClass.channel, otherChannel, inFlight_rd_iff, inFlight_wr_iff]
    · cases hs

@[simp] theorem countWrite_cls (c : Channel) (la : Nat) (s : State) : (countWrite c la s).cls = s.cls := by
  cases c <;> simp only [countWrite]; split_ifs <;> rfl
@[simp] theorem countWrite_done (c : Channel) (la : Nat) (s : State) : (countWrite c la s).done = s.done := by
  cases c <;> simp only [countWrite]; split_ifs <;> rfl
@[simp] theorem countWrite_chP (c : Channel) (la : Nat) (s : State) : (countWrite c la s).chP = s.chP := by
  cases c <;> simp only [countWrite]; split_ifs <;> rfl
@[simp] theorem countWrite_chS (c : Channel) (la : Nat) (s : State) : (countWrite c la s).chS = s.chS := by
  cases c <;> simp only [countWrite]; split_ifs <;> rfl
@[simp] theorem countWrite_ddir (c : Channel) (la : Nat) (s : State) : (countWrite c la s).ddir = s.ddir := by
  cases c <;> simp only [countWrite]; split_ifs <;> rfl
@[simp] theorem countWrite_cfg (c : Channel) (la : Nat) (s : State) : (countWrite c la s).cfg = s.cfg := by
  cases c <;> simp only [countWrite]; split_ifs <;> rfl
@[simp] theorem countWrite_armed (c : Channel) (la : Nat) (s : State) : (countWrite c la s).armed = s.armed := by
  cases c <;> simp only [countWrite]; split_ifs <;> rfl
@[simp] theorem countWrite_dirpat (c : Channel) (la : Nat) (s : State) : (countWrite c la s).dirpat = s.dirpat := by
  cases c <;> simp only [countWrite]; split_ifs <;> rfl

theorem wrStore_eq_ok {c : Channel} {s t : State} :
    wrStore c s = .ok t ↔ localMapped s.cfg (s.chan c).laWr = true ∧ s.done = none ∧
      t = ({ countWrite c (s.chan c).laWr { s with ram := Memory.write s.ram (s.chan c).laWr (s.chan c).wdata } with
              done := some () }).setChan c { s.chan c with wrRing := .addr } := by
  simp only [wrStore, memWrite]
  by_cases h : localMapped s.cfg (s.chan c).laWr = true
  · simp only [h, if_true, map_eq_ok, push_eq_ok, countWrite_done, true_and]
    constructor
    · rintro ⟨a, ⟨hd, rfl⟩, rfl⟩; exact ⟨hd, rfl⟩
    · rintro ⟨hd, rfl⟩; exact ⟨_, ⟨hd, rfl⟩, rfl⟩
  · simp [h]

theorem wrChainStep_ok {c : Channel} {s t : State} (h : s.engineShape = true) (hs : wrChainStep c s = some (.ok t)) :
    t.engineShape = true := by
  obtain ⟨k, hc, hd, hk⟩ := busy_of_not_resting (c := c) h (fun hr => by simp [resting_no_step hr] at hs)
  subst hk
  obtain ⟨ho, hf⟩ := (engineShape_busy_iff hc hd).1 h
  cases k <;> simp only [CycleClass.dir, CycleClass.channel, otherChannel, chan_primary, chan_secondary, inFlight_rd_iff,
      inFlight_wr_iff] at * <;>
  · simp only [wrChainStep] at hs
    split at hs
    · split at hs <;> simp only [Option.some.injEq, Except.ok.injEq, reduceCtorEq] at hs <;> subst hs <;>
      refine engineShape_of_flight _ (by simpa using hc) (by simpa using hd) ?_ ?_ <;>
      simp_all [CycleClass.dir, CycleClass.channel, otherChannel, inFlight_rd_iff, inFlight_wr_iff]
    · split at hs <;> simp only [Option.some.injEq, Except.ok.injEq, reduceCtorEq] at hs <;> subst hs <;>
      refine engineShape_of_flight _ (by simpa using hc) (by simpa using hd) ?_ ?_ <;>
      simp_all [CycleClass.dir, CycleClass.channel, otherChannel, inFlight_rd_iff, inFlight_wr_iff]
    · simp only [hd] at hs
      obtain ⟨-, -, rfl⟩ := wrStore_eq_ok.1 (Option.some.inj hs)
      refine engineShape_of_done _ (by simpa using hc) (by simp) ?_ ?_ <;>
      simp_all [CycleClass.dir, CycleClass.channel, otherChannel, resting_iff]

/-- Whatever agent moves, the shape of the engine is kept. -/
theorem agentStep_shape {a : Agent} {s t : State} (h : s.engineShape = true) (hs : agentStep a s = some (.ok t)) :
    t.engineShape = true := by
  simp only [agentStep] at hs
  split_ifs at hs
  cases a with
  | cls => exact clsStep_ok h hs
  | acu c => exact acuStep_ok h hs
  | rr c => exact rrStep_ok h hs
  | wc c => exact wcStep_ok h hs
  | rdChain c => exact rdChainStep_ok h hs
  | wrChain c => exact wrChainStep_ok h hs
  | bootSeq => cases hs

/-! ### The direction of the data lines -/

/-- In the drive window of a read no agent but its responder has a step. -/
theorem only_rr_of_driving {a : Agent} {s : State} {k : CycleClass} (h : s.engineShape = true) (hc : s.cls = .busy k)
    (hd : s.done = none) (hr : (s.chan k.channel).rr = .driving) (ha : a ≠ .rr k.channel) : engineAgentStep a s = none := by
  obtain ⟨ho, hf⟩ := (engineShape_busy_iff hc hd).1 h
  have hrd : k.dir = .rd := by
    cases hk : k.dir with
    | rd => rfl
    | wr => simp [hk, inFlight_wr_iff, hr] at hf
  simp only [hrd, inFlight_rd_iff, hr, reduceCtorEq, and_false, false_or, ne_eq, not_false_eq_true, and_true] at hf
  obtain ⟨⟨h1, h2, h3, h4⟩, h5, h6, h7, h8, h9⟩ := hf
  have hch : ∀ c, c = k.channel ∨ c = otherChannel k.channel := by
    intro c; cases c <;> cases k <;> simp [CycleClass.channel, otherChannel]
  cases a with
  | cls => simp [engineAgentStep, clsStep, hc, hd]
  | bootSeq => rfl
  | acu c =>
    rcases hch c with rfl | rfl
    · simp [engineAgentStep, acuStep, h1, h5, h6]
    · exact (resting_no_step ho).1
  | rdChain c =>
    rcases hch c with rfl | rfl
    · simp [engineAgentStep, rdChainStep, h7, h8]
    · exact (resting_no_step ho).2.1
  | wrChain c =>
    rcases hch c with rfl | rfl
    · simp [engineAgentStep, wrChainStep, h2, h3]
    · exact (resting_no_step ho).2.2.2.2
  | wc c =>
    rcases hch c with rfl | rfl
    · simp [engineAgentStep, wcStep, h3]
    · exact (resting_no_step ho).2.2.2.1
  | rr c =>
    rcases hch c with rfl | rfl
    · exact absurd rfl ha
    · exact (resting_no_step ho).2.2.1

/-- What a micro-step of the engine leaves alone: the parameters, `ARMED`, `DIRPAT`, and, but for a responder, the direction of
the data lines. -/
theorem engineAgentStep_leaves {a : Agent} {s t : State} (hs : engineAgentStep a s = some (.ok t)) :
    t.cfg = s.cfg ∧ t.armed = s.armed ∧ t.dirpat = s.dirpat ∧ ((∀ c, a ≠ .rr c) → t.ddir = s.ddir) := by
  cases a with
  | cls =>
    simp only [engineAgentStep, clsStep] at hs
    split at hs
    · split_ifs at hs; cases hs; simp
    · split_ifs at hs
      · simp only [clsDispatch, pushTrig, Option.some.injEq] at hs
        obtain ⟨u, hu, rfl⟩ := map_eq_ok.1 hs
        split at hu <;> obtain ⟨q, -, rfl⟩ := map_eq_ok.1 hu <;> simp
      · cases hs; simp
    · split at hs
      · cases hs
      · obtain ⟨r, -, rfl⟩ := map_eq_ok.1 (Option.some.inj hs); simp
    · split_ifs at hs; cases hs; simp
  | bootSeq => cases hs
  | acu c =>
    simp only [engineAgentStep, acuStep] at hs
    split at hs
    · split at hs <;> cases hs <;> simp [acuTake]
    · cases hs; simp [acuHigh]
    · obtain ⟨-, rfl⟩ := acuLow_eq_ok.1 (Option.some.inj hs); simp
    · simp only [acuEmit, Option.some.injEq] at hs
      split at hs <;> obtain ⟨q, -, rfl⟩ := map_eq_ok.1 hs <;> simp
  | rdChain c =>
    simp only [engineAgentStep, rdChainStep] at hs
    split at hs
    · split at hs <;> cases hs; simp
    · obtain ⟨b, -, rfl⟩ := map_eq_ok.1 (Option.some.inj hs); simp
    · split at hs <;> cases hs; simp
  | wrChain c =>
    simp only [engineAgentStep, wrChainStep] at hs
    split at hs
    · split at hs <;> cases hs; simp
    · split at hs <;> cases hs; simp
    · split at hs
      · cases hs
      · obtain ⟨-, -, rfl⟩ := wrStore_eq_ok.1 (Option.some.inj hs); simp
  | wc c =>
    simp only [engineAgentStep, wcStep] at hs
    split at hs
    · obtain ⟨q, -, rfl⟩ := map_eq_ok.1 (Option.some.inj hs); simp
    · cases hs
  | rr c =>
    simp only [engineAgentStep, rrStep] at hs
    split at hs
    · split at hs <;> cases hs; simp
    · cases hs; simp
    · obtain ⟨q, -, rfl⟩ := map_eq_ok.1 (Option.some.inj hs); simp

/-- With the configured patterns the responders drive the lines in their drive window only. -/
theorem rrStep_lines {c : Channel} {s t : State} (h : s.engineShape = true) (hp : s.patternsSet = true)
    (hl : s.linesOk = true) (hs : rrStep c s = some (.ok t)) : t.linesOk = true := by
  obtain ⟨k, hc, hd, rfl⟩ := busy_of_not_resting (c := c) h (fun hr => by simp [resting_no_step hr] at hs)
  simp only [State.patternsSet, Bool.and_eq_true, decide_eq_true_eq] at hp
  simp only [rrStep] at hs
  split at hs
  · next hr =>
    have hin : s.ddir = .inward := by simpa [State.linesOk, hc, hr] using hl
    split at hs <;> cases hs
    simp [State.linesOk, hin]
  · cases hs
    simp [State.linesOk, hc, hd]
  · obtain ⟨q, -, rfl⟩ := map_eq_ok.1 (Option.some.inj hs)
    simp [State.linesOk, hp.1, patternDir_in hp.2]

/-- Whatever agent moves, the shape of the engine is kept, and with the configured patterns the lines are driven only inside a
drive window. -/
theorem agentStep_ok {a : Agent} {s t : State} (h : s.engineOk = true) (hs : agentStep a s = some (.ok t)) :
    t.engineOk = true := by
  have hr := engineRuns_of_agentStep hs
  have hsh := agentStep_shape (by simp_all [State.engineOk]) hs
  unfold agentStep at hs
  rw [if_pos hr] at hs
  obtain ⟨hg, harm, hdp, hdd⟩ := engineAgentStep_leaves hs
  have hpp : t.patternsOk = s.patternsOk := by simp [State.patternsOk, State.patternsSet, hg, harm, hdp]
  simp only [State.engineOk, Bool.and_eq_true, Bool.or_eq_true, Bool.not_eq_true', hpp] at h ⊢
  refine ⟨hsh, ?_⟩
  cases hp : s.patternsOk with
  | false => exact .inl rfl
  | true =>
    have hl : s.linesOk = true := by simpa [hp] using h.2
    have hset : s.patternsSet = true := by simpa [State.patternsOk, ((engineRuns_iff s).1 hr).1] using hp
    refine .inr ?_
    by_cases ha : ∃ c, a = .rr c
    · obtain ⟨c, rfl⟩ := ha
      exact rrStep_lines h.1 hset hl hs
    · rw [not_exists] at ha
      cases hd : s.ddir with
      | inward => simp [State.linesOk, hdd ha, hd]
      | outward =>
        exfalso
        cases hc : s.cls with
        | busy k =>
          have hl' : s.done = none ∧ (s.chan k.channel).rr = .driving := by simpa [State.linesOk, hc, hd] using hl
          rw [only_rr_of_driving h.1 hc hl'.1 hl'.2 (ha _)] at hs
          cases hs
        | _ => simp [State.linesOk, hc, hd] at hl

end Sys2Proof.Machine
end

