-- ==== Sys2Proof/Laws/Keeps.lean ====
section
/-! SUPPORT. What a software call keeps: a property of states that survives every shared operation survives every call built
from them. -/

namespace Sys2Proof.Machine

/-! ### The parts of a call in sequence -/

@[simp] theorem bind_ok {α β : Type} (a : α) (s : State) (k : α → State → Res β) : (Res.ok a s).bind k = k a s := rfl
@[simp] theorem bind_cut {α β : Type} (s : State) (k : α → State → Res β) : (Res.cut s).bind k = .cut s := rfl
@[simp] theorem bind_fault {α β : Type} (f : Fault) (k : α → State → Res β) : (Res.fault f).bind k = .fault f := rfl
@[simp] theorem bind_refused {α β : Type} (r : Refusal) (k : α → State → Res β) : (Res.refused r).bind k = .refused r := rfl

theorem bind_eq_ok {α β : Type} {r : Res α} {k : α → State → Res β} {b : β} {t : State} :
    r.bind k = .ok b t ↔ ∃ a s, r = .ok a s ∧ k a s = .ok b t := by
  cases r <;> simp [Res.bind]

theorem bind_eq_cut {α β : Type} {r : Res α} {k : α → State → Res β} {t : State} :
    r.bind k = .cut t ↔ r = .cut t ∨ ∃ a s, r = .ok a s ∧ k a s = .cut t := by
  cases r <;> simp [Res.bind]

theorem bind_assoc {α β γ : Type} (r : Res α) (k : α → State → Res β) (l : β → State → Res γ) :
    (r.bind k).bind l = r.bind fun a s => (k a s).bind l := by
  cases r <;> rfl

/-- How a call can give a next state. -/
theorem finish_eq_next {r : Res CallResult} {t : State} :
    finish r = .next t ↔ (∃ a s, r = .ok a s ∧ t = { s with result := a }) ∨ ∃ s, r = .cut s ∧ t = hardReset s := by
  cases r <;> simp [finish, eq_comm]

/-! ### Keeping a property -/

/-- The state this part ends with, or was cut in, has the property. -/
def Res.Keeps {α : Type} (P : State → Prop) : Res α → Prop
  | .ok _ s => P s
  | .cut s => P s
  | .fault _ => True
  | .refused _ => True

theorem keeps_bind {α β : Type} {P : State → Prop} {r : Res α} {k : α → State → Res β} (hr : r.Keeps P)
    (hk : ∀ a s, P s → (k a s).Keeps P) : (r.bind k).Keeps P := by
  cases r with
  | ok a s => exact hk a s hr
  | cut s => exact hr
  | fault f => trivial
  | refused f => trivial

/-- The environment's lists are only read from their heads. -/
structure EnvRead (e e' : Env) : Prop where
  events : e'.events = e.events
  outcomes : e'.outcomes <:+ e.outcomes
  allocs : e'.allocs <:+ e.allocs
  probes : e'.probes <:+ e.probes
  races : e'.races <:+ e.races

/-- A property that every shared operation below a call keeps. -/
structure Kept (P : State → Prop) : Prop where
  agent : ∀ {a s t}, P s → agentStep a s = some (.ok t) → P t
  lines : ∀ {s} (l : Lines), P s → P { s with lines := l }
  unanswered : ∀ {s}, P s → P (unansweredRead s)
  env : ∀ {s e}, P s → EnvRead s.env e → P { s with env := e }
  cell : ∀ {s i} (v : Byte), P s → i < s.cfg.len → P (s.setCell .primary i v)
  draw : ∀ {s} (n : Nat), P s → P { s with fresh := s.fresh + n }
  log : ∀ {s} (e : LogEvent), P s → P (s.logged e)
  sel : ∀ {s} (c : WireCmd), P s → P (openFrame c s)
  desel : ∀ {s} (c : WireCmd) (rx : List Byte), P s → P (closeFrame c rx s)
  devOk : ∀ {s} (c : WireCmd), P s → P (devOk c s).2
  devFailed : ∀ {s} (c : WireCmd), P s → P (devFailed c s)

section

variable {P : State → Prop} (H : Kept P)
include H

/-! ### The engine -/

theorem engineStep_kept {s t : State} (h : P s) (hs : engineStep s = some (.ok t)) : P t := by
  obtain ⟨a, -, ha⟩ := List.exists_of_findSome?_eq_some hs
  exact H.agent h ha

theorem engineRun_kept (n : Nat) {s t : State} (h : P s) (hs : engineRun n s = .ok t) : P t := by
  induction n generalizing s with
  | zero => cases hs; exact h
  | succ n ih =>
    unfold engineRun at hs
    split at hs
    · cases hs; exact h
    · cases hs
    · next u hu => exact ih (engineStep_kept H h hu) hs

theorem settle_kept {s t : State} (h : P s) (hs : settle s = .ok t) : P t := engineRun_kept H engineFuel h hs

theorem busCycle_kept {c : Channel} {d : Dir} {f g : Nat} {x : Byte} {s t : State} (h : P s)
    (hs : busCycle c d f g x s = .ok t) : P t := by
  unfold busCycle at hs
  split at hs
  · cases hs
  · next s1 h1 =>
    have p1 : P s1 := settle_kept H (H.lines _ h) h1
    split at hs
    · cases hs
    · next s2 h2 =>
      have p2 : P s2 := settle_kept H (H.lines _ p1) h2
      cases hs
      split_ifs
      · exact H.unanswered p2
      · exact p2

theorem glitch_kept {s t : State} (h : P s) (hs : glitch s = .ok t) : P t := by
  have hu : P { s with lines := { s.lines with strobe := true } } := H.lines _ h
  simp only [glitch] at hs
  split at hs
  · cases hs
  · next s1 h1 => exact settle_kept H (H.lines _ (H.agent hu h1)) hs
  · exact settle_kept H (H.lines _ hu) hs

theorem serveActs_keeps (acts : List HostAct) {s : State} (h : P s) : (serveActs acts s).Keeps P := by
  induction acts generalizing s with
  | nil => exact h
  | cons x acts ih =>
    cases x with
    | cycle c d f g v =>
      unfold serveActs
      split
      · trivial
      · next s1 h1 => exact ih (busCycle_kept H h h1)
    | glitch =>
      unfold serveActs
      split
      · trivial
      · next s1 h1 => exact ih (glitch_kept H h h1)
    | lines l => exact ih (H.lines l h)
    | agent a =>
      unfold serveActs
      split
      · exact ih h
      · trivial
      · next s1 h1 => exact ih (H.agent h h1)
    | reset => exact h

theorem raceWindow_keeps {s : State} (h : P s) : (raceWindow s).Keeps P := by
  unfold raceWindow
  split
  · exact h
  · next acts rest hr =>
    refine serveActs_keeps H acts (H.env h ⟨rfl, List.suffix_rfl, List.suffix_rfl, List.suffix_rfl, ?_⟩)
    rw [hr]
    exact List.suffix_cons acts rest

/-! ### Byte accesses -/

theorem softRead_keeps (i : Nat) {s : State} (h : P s) : (softRead i s).Keeps P := by
  refine keeps_bind (raceWindow_keeps H h) fun _ s1 p1 => ?_
  split_ifs
  · exact p1
  · trivial

theorem softWrite_keeps (i : Nat) (v : Byte) {s : State} (h : P s) : (softWrite i v s).Keeps P := by
  refine keeps_bind (raceWindow_keeps H h) fun _ s1 p1 => ?_
  split_ifs with hi
  · exact H.cell v p1 hi
  · trivial

theorem softReads_keeps (n i : Nat) {s : State} (h : P s) : (softReads n i s).Keeps P := by
  induction n generalizing i s with
  | zero => exact h
  | succ n ih =>
    exact keeps_bind (softRead_keeps H i h) fun b s1 p1 => keeps_bind (ih (i + 1) p1) fun bs s2 p2 => p2

theorem softWrites_keeps (i : Nat) (vs : List Byte) {s : State} (h : P s) : (softWrites i vs s).Keeps P := by
  induction vs generalizing i s with
  | nil => exact h
  | cons v vs ih => exact keeps_bind (softWrite_keeps H i v h) fun _ s1 p1 => ih (i + 1) p1

/-! ### Frames -/

theorem nextOutcome_kept {s : State} (h : P s) : P (nextOutcome s).2 := by
  unfold nextOutcome
  split
  · exact h
  · next o os ho =>
    refine H.env h ⟨rfl, ?_, List.suffix_rfl, List.suffix_rfl, List.suffix_rfl⟩
    rw [ho]
    exact List.suffix_cons o os

theorem nvXfer_keeps (c : WireCmd) {s : State} (h : P s) : (nvXfer c s).Keeps P := by
  have h1 := nextOutcome_kept H (H.sel c h)
  unfold nvXfer
  split <;> next he => rw [he] at h1; exact H.desel c _ (by first | exact H.devOk c h1 | exact H.devFailed c h1)

theorem xferLogged_keeps (op : XferOp) (addr n : Nat) (c : WireCmd) {s : State} (h : P s) :
    (xferLogged op addr n c s).Keeps P := by
  refine keeps_bind (nvXfer_keeps H c h) fun r s1 p1 => ?_
  show P (if r.worked then s1 else s1.logged (.transportFail op addr n))
  split_ifs
  · exact p1
  · exact H.log _ p1

/-! ### The driver -/

theorem nvReadOp_keeps (addr n : Nat) {s : State} (h : P s) : (nvReadOp addr n s).Keeps P := by
  unfold nvReadOp
  split_ifs
  · trivial
  · exact h
  · exact xferLogged_keeps H _ _ _ _ h

theorem driverFrame_keeps (op : XferOp) (addr n : Nat) (c : WireCmd) {s : State} (h : P s) :
    (driverFrame op addr n c s).Keeps P :=
  keeps_bind (raceWindow_keeps H h) fun _ _ p1 => xferLogged_keeps H _ _ _ _ p1

theorem nvWriteChunks_keeps (addr : Nat) (ps : List (List Byte)) {s : State} (h : P s) :
    (nvWriteChunks addr ps s).Keeps P := by
  induction ps generalizing addr s with
  | nil => exact h
  | cons p ps ih =>
    refine keeps_bind ?_ fun _ s1 p1 => ih (addr + chunk) p1
    exact keeps_bind (driverFrame_keeps H _ _ _ _ h) fun _ s1 p1 =>
      keeps_bind (driverFrame_keeps H _ _ _ _ p1) fun _ s2 p2 => p2

theorem nvWriteOp_keeps (addr : Nat) (bs : List Byte) {s : State} (h : P s) : (nvWriteOp addr bs s).Keeps P := by
  unfold nvWriteOp
  split_ifs
  · trivial
  · exact nvWriteChunks_keeps H _ _ h

theorem restoreStrides_keeps (n i : Nat) {s : State} (h : P s) : (restoreStrides n i s).Keeps P := by
  induction n generalizing i s with
  | zero => exact h
  | succ n ih =>
    refine keeps_bind ?_ fun _ s1 p1 => ih (i + chunk) p1
    exact keeps_bind (raceWindow_keeps H h) fun _ s0 p0 =>
      keeps_bind (nvReadOp_keeps H _ _ p0) fun rx s1 p1 => softWrites_keeps H _ _ (H.draw _ p1)

theorem restoreOp_keeps {s : State} (h : P s) : (restoreOp s).Keeps P := by
  unfold restoreOp
  split_ifs
  · trivial
  · exact restoreStrides_keeps H _ _ h

theorem persistChunk_keeps (i : Nat) {s : State} (h : P s) : (persistChunk i s).Keeps P :=
  keeps_bind (softReads_keeps H _ _ h) fun _ _ p1 => nvWriteOp_keeps H _ _ p1

theorem sweepChunks_keeps (n i : Nat) {s : State} (h : P s) : (sweepChunks n i s).Keeps P := by
  induction n generalizing i s with
  | zero => exact h
  | succ n ih => exact keeps_bind (persistChunk_keeps H i h) fun _ _ p1 => ih (i + chunk) p1

/-! ### Repair, export, import -/

theorem repairOp_keeps {s : State} (h : P s) : (repairOp s).Keeps P := by
  refine keeps_bind (softReads_keeps H _ _ h) fun cur s1 p1 => keeps_bind (softReads_keeps H _ _ p1) fun region s2 p2 => ?_
  split_ifs
  · exact p2
  · exact keeps_bind (softWrites_keeps H _ _ p2) fun _ s3 p3 => H.log _ p3

theorem exportOp_keeps {s : State} (h : P s) : (exportOp s).Keeps P :=
  keeps_bind (softReads_keeps H _ _ h) fun _ _ p1 => p1

theorem importOp_keeps (src : List Int) {s : State} (h : P s) : (importOp src s).Keeps P := by
  unfold importOp
  split_ifs
  · trivial
  · exact H.log _ h
  · exact keeps_bind (softWrites_keeps H _ _ h) fun _ _ p1 => p1

end

end Sys2Proof.Machine
end

