-- ==== Sys2Proof/Laws/Calls.lean ====
section
/-! SUPPORT. What the parts of a software call do: byte accesses with a quiet host, one frame of each outcome, the chunks of a
write with a working store. -/

namespace Sys2Proof.Machine

/-! ### `afterFrames`, `afterAccesses` -/

@[simp] theorem afterAccesses_zero (s : State) : s.afterAccesses 0 = s := rfl

@[simp] theorem afterFrames_nil (s : State) (h : s.nvSel = false) (hf : s.frame = []) : s.afterFrames [] = s := by
  cases s
  simp only at h hf
  subst h hf
  simp [State.afterFrames]

theorem afterAccesses_add (s : State) (m n : Nat) : (s.afterAccesses m).afterAccesses n = s.afterAccesses (m + n) := by
  simp [State.afterAccesses, List.drop_drop]

theorem afterFrames_append (s : State) (l k : List FrameRecord) :
    (s.afterFrames l).afterFrames k = s.afterFrames (l ++ k) := by
  simp [State.afterFrames, List.drop_drop, List.append_assoc]

theorem hostQuiet_drop {s : State} (h : s.hostQuiet = true) (n : Nat) : (s.afterAccesses n).hostQuiet = true := by
  simp only [State.hostQuiet, List.all_eq_true] at *
  exact fun x hx => h x (List.mem_of_mem_drop hx)

theorem serialWorks_drop {s : State} (h : s.serialWorks = true) (l : List FrameRecord) :
    (s.afterFrames l).serialWorks = true := by
  simp only [State.serialWorks, List.all_eq_true] at *
  exact fun x hx => h x (List.mem_of_mem_drop hx)

theorem frameWorks_of_serialWorks {s : State} (h : s.serialWorks = true) : s.frameWorks = true := by
  simp only [State.serialWorks, State.frameWorks, decide_eq_true_eq] at *
  cases ho : s.env.outcomes with
  | nil => exact .inl rfl
  | cons o os => rw [ho] at h; simp at h; exact .inr (by simp [h.1])

/-! ### Byte accesses -/

theorem raceWindow_quiet {s : State} (h : s.hostQuiet = true) : raceWindow s = .ok () (s.afterAccesses 1) := by
  unfold raceWindow
  split
  · next hr =>
    obtain ⟨cfg, ram, nv, wel, sr, cls, done, chP, chS, ddir, dout, fabBase, dirpat, armed, seqIds, movIds, cursor, paused,
      nvSel, frame, boot, pc, fault, log, wac, lines, result, sampled, frames, env, fresh⟩ := s
    obtain ⟨events, outcomes, allocs, probes, races⟩ := env
    simp only at hr
    subst hr
    rfl
  · next acts rest hr =>
    simp only [State.hostQuiet, hr, List.all_cons, Bool.and_eq_true, List.isEmpty_iff] at h
    simp [h.1, serveActs, State.afterAccesses, hr]

theorem softRead_quiet {s : State} {i : Nat} (h : s.hostQuiet = true) (hi : i < s.cfg.len) :
    softRead i s = .ok (s.shadow i) (s.afterAccesses 1) := by
  simp only [softRead, raceWindow_quiet h, bind_ok]
  rw [if_pos (show i < (s.afterAccesses 1).cfg.len from hi)]
  rfl

theorem softWrite_quiet {s : State} {i : Nat} {v : Byte} (h : s.hostQuiet = true) (hi : i < s.cfg.len) :
    softWrite i v s = .ok () ((s.setCell .primary i v).afterAccesses 1) := by
  simp only [softWrite, raceWindow_quiet h, bind_ok]
  rw [if_pos (show i < (s.afterAccesses 1).cfg.len from hi)]
  rfl

theorem shadowBytes_succ (s : State) (i n : Nat) : s.shadowBytes i (n + 1) = s.shadow i :: s.shadowBytes (i + 1) n := by
  simp [State.shadowBytes, List.range_succ_eq_map, Nat.add_assoc, Nat.add_comm 1]

@[simp] theorem shadowBytes_length (s : State) (i n : Nat) : (s.shadowBytes i n).length = n := by simp [State.shadowBytes]

/-- Reads of a quiet host see the cells as they are. -/
theorem softReads_quiet (n : Nat) {s : State} {i : Nat} (h : s.hostQuiet = true) (hi : i + n ≤ s.cfg.len) :
    softReads n i s = .ok (s.shadowBytes i n) (s.afterAccesses n) := by
  induction n generalizing i s with
  | zero => rfl
  | succ n ih =>
    rw [softReads, softRead_quiet h (by omega), bind_ok, ih (hostQuiet_drop h 1) (by simpa [State.afterAccesses] using by omega),
      bind_ok, afterAccesses_add, shadowBytes_succ, Nat.add_comm 1 n]
    rfl

/-- Writes of a quiet host are plain stores at rising addresses. -/
theorem softWrites_quiet (vs : List Byte) {s : State} {i : Nat} (h : s.hostQuiet = true) (hi : i + vs.length ≤ s.cfg.len) :
    softWrites i vs s =
      .ok () ({ s with ram := Memory.writeList s.ram (s.cfg.baseOffset + i) vs }.afterAccesses vs.length) := by
  induction vs generalizing i s with
  | nil => rfl
  | cons v vs ih =>
    simp only [List.length_cons] at hi
    rw [softWrites, softWrite_quiet h (by omega), bind_ok, ih (hostQuiet_drop (s := s.setCell .primary i v) h 1)
      (by simpa [State.afterAccesses] using by omega)]
    simp only [State.afterAccesses, List.drop_drop, Memory.writeList, State.setCell, windowBase, List.length_cons,
      Nat.add_assoc, Nat.add_comm 1]

/-! ### One frame -/

/-- A frame that works: the device's own effect, one line of the trace, one outcome used. -/
theorem xferLogged_works {s : State} (op : XferOp) (addr n : Nat) (c : WireCmd) (h : s.frameWorks = true) :
    xferLogged op addr n c s = .ok (devOk c s).1 ((devOk c s).2.afterFrames [⟨c.tx, (devOk c s).1⟩]) := by
  simp only [State.frameWorks, decide_eq_true_eq] at h
  obtain ⟨cfg, ram, nv, wel, sr, cls, done, chP, chS, ddir, dout, fabBase, dirpat, armed, seqIds, movIds, cursor, paused,
    nvSel, frame, boot, pc, fault, log, wac, lines, result, sampled, frames, env, fresh⟩ := s
  obtain ⟨events, outcomes, allocs, probes, races⟩ := env
  cases outcomes with
  | nil => cases c <;> rfl
  | cons o os =>
    simp only [List.head?_cons, reduceCtorEq, false_or, Option.some.injEq] at h
    subst h
    cases c <;> rfl

/-- A frame that fails with `rx` received: what R205 leaves in the device, one line of the trace, one log entry. -/
theorem xferLogged_short {s : State} (op : XferOp) (addr n : Nat) (c : WireCmd) {rx : List Byte}
    (h : s.env.outcomes.head? = some (.short rx)) :
    xferLogged op addr n c s = .ok (rx.take (c.count - 1))
      (((devFailed c s).afterFrames [⟨c.tx, rx.take (c.count - 1)⟩]).logged (.transportFail op addr n)) := by
  obtain ⟨cfg, ram, nv, wel, sr, cls, done, chP, chS, ddir, dout, fabBase, dirpat, armed, seqIds, movIds, cursor, paused,
    nvSel, frame, boot, pc, fault, log, wac, lines, result, sampled, frames, env, fresh⟩ := s
  obtain ⟨events, outcomes, allocs, probes, races⟩ := env
  cases outcomes with
  | nil => cases h
  | cons o os =>
    simp only [List.head?_cons, Option.some.injEq] at h
    subst h
    cases c <;> rfl

/-- A frame that fails outright. -/
theorem xferLogged_fail {s : State} (op : XferOp) (addr n : Nat) (c : WireCmd) (h : s.env.outcomes.head? = some .fail) :
    xferLogged op addr n c s =
      .ok [] (((devFailed c s).afterFrames [⟨c.tx, []⟩]).logged (.transportFail op addr n)) := by
  obtain ⟨cfg, ram, nv, wel, sr, cls, done, chP, chS, ddir, dout, fabBase, dirpat, armed, seqIds, movIds, cursor, paused,
    nvSel, frame, boot, pc, fault, log, wac, lines, result, sampled, frames, env, fresh⟩ := s
  obtain ⟨events, outcomes, allocs, probes, races⟩ := env
  cases outcomes with
  | nil => cases h
  | cons o os =>
    simp only [List.head?_cons, Option.some.injEq] at h
    subst h
    cases c <;> rfl

/-! ### The chunks of a write -/

theorem nvStore_append (p q : List Byte) (m : List Host.Cell) (a : Nat) :
    nvStore m a (p ++ q) = nvStore (nvStore m a p) (a + p.length) q := by
  induction p generalizing m a with
  | nil => rfl
  | cons b bs ih => simp only [List.cons_append, nvStore, ih, List.length_cons]; congr 1; omega

theorem storeAddr_toNat {a : Nat} (h : a < 65536) : (storeAddr a).toNat = a := by
  simp [storeAddr, Nat.mod_eq_of_lt h]

/-- The frames of the chunks `ps`, the first at `addr`. -/
def chunkFrames : Nat → List (List Byte) → List FrameRecord
  | _, [] => []
  | addr, p :: ps => (writePair addr p).map (fun tx => ⟨tx, []⟩) ++ chunkFrames (addr + 16) ps

/-- A frame of a driver call with a quiet host is the exchange, one window used. -/
theorem driverFrame_quiet {s : State} (op : XferOp) (addr n : Nat) (c : WireCmd) (h : s.hostQuiet = true) :
    driverFrame op addr n c s = xferLogged op addr n c (s.afterAccesses 1) := by
  rw [driverFrame, raceWindow_quiet h, bind_ok]

/-- With a working store and a quiet host the chunks' bytes are stored in order and the latch is clear after the last. -/
theorem nvWriteChunks_works (ps : List (List Byte)) {s : State} {addr : Nat} (h : s.serialWorks = true)
    (hq : s.hostQuiet = true) (hs : ps = [] → s.nvSel = false ∧ s.frame = [])
    (ha : ps = [] ∨ addr + 16 * (ps.length - 1) < 65536) :
    ∃ m, nvWriteChunks addr ps s = .ok ()
        { (s.afterFrames (chunkFrames addr ps)).afterAccesses (2 * ps.length) with
          nv := m, wel := if ps = [] then s.wel else false } ∧
      m = (ps.foldl (fun (r : Nat × List Host.Cell) p => (r.1 + 16, nvStore r.2 r.1 p)) (addr, s.nv)).2 := by
  induction ps generalizing s addr with
  | nil =>
    refine ⟨s.nv, ?_, rfl⟩
    rw [chunkFrames, afterFrames_nil s (hs rfl).1 (hs rfl).2]
    rfl
  | cons p ps ih =>
    simp only [List.length_cons, reduceCtorEq, false_or, Nat.add_sub_cancel] at ha
    have hlt : addr < 65536 := by omega
    have e1 := xferLogged_works (s := s.afterAccesses 1) .wren addr 0 .wren (frameWorks_of_serialWorks h)
    have h1 : ((devOk .wren (s.afterAccesses 1)).2.afterFrames [⟨WireCmd.tx .wren, (devOk .wren (s.afterAccesses 1)).1⟩]).serialWorks = true :=
      serialWorks_drop (s := (s.afterAccesses 1).setWel true) h _
    have q1 : ((devOk .wren (s.afterAccesses 1)).2.afterFrames [⟨WireCmd.tx .wren, (devOk .wren (s.afterAccesses 1)).1⟩]).hostQuiet = true :=
      hostQuiet_drop (s := s) hq 1
    have e2 := xferLogged_works
      (s := ((devOk .wren (s.afterAccesses 1)).2.afterFrames [⟨WireCmd.tx .wren, (devOk .wren (s.afterAccesses 1)).1⟩]).afterAccesses 1)
      .write addr p.length (.write (storeAddr addr) p) (frameWorks_of_serialWorks h1)
    have step1 : nvWriteChunk addr p s = .ok ()
        { (s.afterFrames ((writePair addr p).map fun tx => ⟨tx, []⟩)).afterAccesses 2 with
          nv := nvStore s.nv addr p, wel := false } := by
      rw [nvWriteChunk, driverFrame_quiet _ _ _ _ hq, e1, bind_ok, driverFrame_quiet _ _ _ _ q1, e2, bind_ok]
      simp [State.afterFrames, State.afterAccesses, devOk, State.setWel, writePair, WireCmd.tx, List.drop_drop,
        storeAddr_toNat hlt]
    obtain ⟨m, hm, hmv⟩ := ih
      (s := { (s.afterFrames ((writePair addr p).map fun tx => ⟨tx, []⟩)).afterAccesses 2 with
        nv := nvStore s.nv addr p, wel := false }) (addr := addr + 16)
      (serialWorks_drop (s := s) h ((writePair addr p).map fun tx => ⟨tx, []⟩)) (hostQuiet_drop (s := s) hq 2)
      (fun _ => ⟨rfl, rfl⟩) (by
          cases ps with
          | nil => exact .inl rfl
          | cons q qs => right; simp only [List.length_cons] at ha ⊢; omega)
    refine ⟨m, ?_, hmv⟩
    rw [nvWriteChunks, step1, bind_ok, show addr + chunk = addr + 16 from rfl, hm]
    simp [State.afterFrames, State.afterAccesses, chunkFrames, List.drop_drop, Nat.add_comm, List.append_assoc, Nat.mul_add]

/-- The chunks of a byte sequence, stored one after the other, are the sequence stored. -/
theorem foldl_chunks_store (k : Nat) (bs : List Byte) (addr : Nat) (m : List Host.Cell) (hk : k = chunkCount bs.length) :
    ((chunksOf k bs).foldl (fun (r : Nat × List Host.Cell) p => (r.1 + 16, nvStore r.2 r.1 p)) (addr, m)).2 =
      nvStore m addr bs := by
  induction k generalizing bs addr m with
  | zero =>
    have : bs = [] := List.length_eq_zero_iff.1 (by unfold chunkCount at hk; omega)
    subst this
    rfl
  | succ k ih =>
    unfold chunkCount at hk
    rw [chunksOf, List.foldl_cons, ih (bs.drop 16) (addr + 16) _ (by simp only [List.length_drop, chunkCount]; omega)]
    by_cases hl : 16 ≤ bs.length
    · conv_rhs => rw [← List.take_append_drop 16 bs, nvStore_append]
      simp [List.length_take, Nat.min_eq_left hl]
    · have hd : bs.drop 16 = [] := List.drop_eq_nil_of_le (by omega)
      rw [hd, List.take_of_length_le (by omega)]
      rfl

/-- The frames of the chunks of a byte sequence. -/
theorem chunkFrames_eq (k : Nat) (bs : List Byte) (addr : Nat) :
    chunkFrames addr (chunksOf k bs) =
      (List.range k).flatMap fun c => (writePair (addr + 16 * c) ((bs.drop (16 * c)).take 16)).map fun tx => ⟨tx, []⟩ := by
  induction k generalizing bs addr with
  | zero => rfl
  | succ k ih =>
    rw [chunksOf, chunkFrames, ih, List.range_succ_eq_map, List.flatMap_cons, List.flatMap_map]
    simp only [Nat.mul_zero, Nat.add_zero, List.drop_zero, List.drop_drop, Nat.mul_succ, Nat.add_assoc, Nat.add_comm 16]

@[simp] theorem chunksOf_length (k : Nat) (bs : List Byte) : (chunksOf k bs).length = k := by
  induction k generalizing bs with
  | zero => rfl
  | succ k ih => simp [chunksOf, ih]

/-- The whole of `nv_write` with a working store and a quiet host. -/
theorem nvWriteOp_works {s : State} (addr : Nat) (bytes : List Byte) (h : s.serialWorks = true) (hq : s.hostQuiet = true)
    (hs : bytes = [] → s.nvSel = false ∧ s.frame = []) (ha : addr + bytes.length ≤ 65536) :
    nvWriteOp addr bytes s = .ok ()
      { (s.afterFrames (writeFrames addr bytes)).afterAccesses (2 * ((bytes.length + 15) / 16)) with
        nv := nvStore s.nv addr bytes, wel := if bytes = [] then s.wel else false } := by
  have hnil : chunksOf (chunkCount bytes.length) bytes = [] ↔ bytes = [] := by
    rw [← List.length_eq_zero_iff, chunksOf_length, ← List.length_eq_zero_iff]
    unfold chunkCount
    omega
  obtain ⟨m, hm, hv⟩ := nvWriteChunks_works (chunksOf (chunkCount bytes.length) bytes) (addr := addr) h hq
    (fun he => hs (hnil.1 he)) (by
      rw [chunksOf_length]
      by_cases hb : bytes = []
      · exact .inl (hnil.2 hb)
      · have := List.length_pos_iff.2 hb
        right
        unfold chunkCount
        omega)
  unfold nvWriteOp
  rw [if_neg (by omega), hm, hv, foldl_chunks_store _ _ _ _ rfl, chunkFrames_eq, chunksOf_length]
  simp only [hnil]
  rfl

end Sys2Proof.Machine
end

