-- ==== Sys2Proof/Laws/Cycle.lean ====
section
/-! SUPPORT. Address arithmetic of a bus cycle, and what one served cycle of a channel does. -/

namespace Sys2Proof.Machine

theorem or_eq_add {base w a : Nat} (hb : base % 2 ^ w = 0) (ha : a < 2 ^ w) : base ||| a = base + a := by
  obtain ⟨q, rfl⟩ := Nat.dvd_of_mod_eq_zero hb
  exact (Nat.two_pow_add_eq_or_of_lt ha q).symm


/-- A window address has A_W bits. -/
theorem cycleIndex_lt (g : Config) (c : Channel) (f h : Nat) : cycleIndex g c f h < 2 ^ addrWidth g c := by
  simp only [cycleIndex, windowAddr, lowBits, addrWidth]
  have h1 : f % 2 ^ ahWidth g c < 2 ^ ahWidth g c := Nat.mod_lt _ (by positivity)
  have h2 : h % 2 ^ alWidth g c < 2 ^ alWidth g c := Nat.mod_lt _ (by positivity)
  rw [Nat.shiftLeft_eq, Nat.mul_comm, ← Nat.two_pow_add_eq_or_of_lt h2, pow_add]
  have h3 := Nat.mul_le_mul_left (2 ^ alWidth g c) (Nat.succ_le_of_lt h1)
  rw [Nat.mul_succ, Nat.mul_comm (2 ^ alWidth g c) (2 ^ ahWidth g c)] at h3
  omega

theorem cfg_wf_iff (g : Config) : g.wf = true ↔
    1 ≤ g.len ∧ g.len ≤ 2 ^ (g.ahW + g.alW) ∧ g.len ≤ 65536 ∧ g.alW < g.ahW ∧ 1 ≤ g.alW ∧ g.ahW + g.alW ≤ g.localW ∧
    g.baseOffset < 2 ^ g.localW ∧ g.baseOffset % 2 ^ (g.ahW + g.alW) = 0 ∧ 1 ≤ g.secLen ∧
    g.secLen ≤ 2 ^ (g.secAhW + g.secAlW) ∧ g.secAlW < g.secAhW ∧ 1 ≤ g.secAlW ∧ g.secAhW + g.secAlW ≤ g.localW ∧
    g.secBaseOffset < 2 ^ g.localW ∧ g.secBaseOffset % 2 ^ (g.secAhW + g.secAlW) = 0 ∧
    (g.secBaseOffset + g.secLen ≤ g.baseOffset ∨ g.baseOffset + g.len ≤ g.secBaseOffset) ∧ g.dirpatOut ≠ g.dirpatIn ∧
    g.ckOffset + g.ckLen ≤ g.len := by
  simp [Config.wf, and_assoc]

theorem base_align {g : Config} (h : g.wf = true) (c : Channel) :
    windowBase g c % 2 ^ addrWidth g c = 0 ∧ windowBase g c < 2 ^ g.localW ∧ addrWidth g c ≤ g.localW ∧
      windowLen g c ≤ 2 ^ addrWidth g c := by
  rw [cfg_wf_iff] at h
  cases c <;> simp only [windowBase, addrWidth, ahWidth, alWidth, windowLen] <;> tauto

theorem localAddr_eq {g : Config} (h : g.wf = true) (c : Channel) (f k : Nat) :
    localAddr g (windowBase g c) (cycleIndex g c f k) = windowBase g c + cycleIndex g c f k := by
  obtain ⟨h1, h2, h3, -⟩ := base_align h c
  rw [localAddr, or_eq_add h1 (cycleIndex_lt g c f k), lowBits, Nat.mod_eq_of_lt]
  obtain ⟨q, hq⟩ := Nat.dvd_of_mod_eq_zero h1
  obtain ⟨e, he⟩ := Nat.exists_eq_add_of_le h3
  have := cycleIndex_lt g c f k
  rw [he, pow_add] at h2 ⊢
  rw [hq] at h2 ⊢
  have hq' : q < 2 ^ e := Nat.lt_of_mul_lt_mul_left h2
  nlinarith [Nat.succ_le_of_lt hq']

theorem mapped_of_lt {g : Config} {c : Channel} {i : Nat} (h : i < windowLen g c) :
    localMapped g (windowBase g c + i) = true := by
  cases c <;> simp [localMapped, inWindow] <;> simp_all

theorem serves_iff {s : State} : s.serves = true ↔ s.cfg.wf = true ∧
    (s.chP.baseReg = s.cfg.baseOffset ∧ s.chS.baseReg = s.cfg.secBaseOffset) ∧
    (s.dirpat = (s.cfg.dirpatOut, s.cfg.dirpatIn) ∧ s.cfg.dirpatOut ≠ s.cfg.dirpatIn) ∧
    (s.engineRuns = true ∧ s.cls = .idle) ∧ ((s.chP.resting = true ∧ s.chS.resting = true) ∧ s.done = none) ∧ s.ddir = .inward := by
  simp [State.serves, State.basesSet, State.patternsSet, State.ready, State.engineAtRest, and_assoc]

/-- The end state of a read served on a channel. -/
theorem busCycle_rd {s : State} {c : Channel} {f g i : Nat} {x : Byte} (h : s.serves = true)
    (hi : i = cycleIndex s.cfg c f g) (hl : i < windowLen s.cfg c) :
    busCycle c .rd f g x s = .ok (({ s with
        lines := { strobe := false, chsel := chselOf c, dir := true, amuxFirst := f, amuxSecond := g, d := s.lines.d
                   dataValid := false }
        dout := s.cell c i
        sampled := s.sampled ++ [s.cell c i] } : State).setChan c { s.chan c with
          ahi := f % 2 ^ ahWidth s.cfg c, alo := g % 2 ^ alWidth s.cfg c, akind := .rd, laRd := windowBase s.cfg c + i
          rdata := s.cell c i }) := by
  obtain ⟨hw, hb, ⟨hdp, hne⟩, ⟨harm, hcls⟩, ⟨⟨hP, hS⟩, hdone⟩, hdd⟩ := serves_iff.1 h
  rw [resting_iff] at hP hS
  have hla := localAddr_eq hw c f g
  have hm := mapped_of_lt hl
  rw [← hi] at hla
  have hcell : s.cell c i = Memory.read s.ram (windowBase s.cfg c + i) := rfl
  rw [hcell]
  rw [cycleIndex, lowBits, lowBits] at hi
  have ha : ¬ windowLen s.cfg c ≤ i := by omega
  obtain ⟨cfg, ram, nv, wel, sr, cls, done, chP, chS, ddir, dout, fabBase, dirpat, armed, seqIds, movIds, cursor, paused,
    nvSel, frame, boot, pc, fault, log, wac, lines, result, sampled, frames, env, fresh⟩ := s
  obtain ⟨bR, ahi, alo, ak, din, lr, lw, rda, wda, rr, wr, tr, tw, ir, iw, dq, iq, ac, rp⟩ := chP
  obtain ⟨bR2, ahi2, alo2, ak2, din2, lr2, lw2, rda2, wda2, rr2, wr2, tr2, tw2, ir2, iw2, dq2, iq2, ac2, rp2⟩ := chS
  simp only at hcls hP hS hdone hdd ha hm hla hb hi hdp hne
  obtain ⟨rfl, rfl, rfl, rfl, rfl, rfl, rfl, rfl, rfl, rfl⟩ := hP
  obtain ⟨rfl, rfl, rfl, rfl, rfl, rfl, rfl, rfl, rfl, rfl⟩ := hS
  obtain ⟨rfl, rfl⟩ := hb
  obtain ⟨harm, hboot⟩ := (engineRuns_iff _).1 harm
  simp only at harm hboot
  subst harm hcls hdone hdd hdp
  cases c <;> simp only [windowBase, windowLen, ahWidth, alWidth] at hla hm ha hi <;>
  simp [busCycle, settle, State.engineRuns, hboot, presentCycle, engineFuel, engineRun, engineStep, engineAgents, agentStep,
    engineAgentStep, clsStep, clsDispatch, pushTrig, push, pop, classify, chselOf, dirLevel, CycleClass.channel,
    CycleClass.dir, acuStep, acuTake, acuHigh, acuLow, acuEmit, rdChainStep, rrStep, rrClose, wcStep, wrChainStep,
    State.chan, State.setChan, State.applyPattern, patternDir, hostSample, hne, hne.symm, memRead, Except.map, endCycle, ahWidth, alWidth,
    windowLen, windowBase, ha, hm, lowBits, ← hi, hla]

/-- The end state of a write served on a channel. -/
theorem busCycle_wr {s : State} {c : Channel} {f g i : Nat} {x : Byte} (h : s.serves = true)
    (hi : i = cycleIndex s.cfg c f g) (hl : i < windowLen s.cfg c) :
    busCycle c .wr f g x s = .ok (({ s.setCell c i x with
        lines := { strobe := false, chsel := chselOf c, dir := false, amuxFirst := f, amuxSecond := g, d := x
                   dataValid := false }
        wac := if c = .primary ∧ s.cfg.wacEnabled = true then
             sparseWrite 0 s.wac i ((sparseRead 0 s.wac i + 1) % 2 ^ s.cfg.wacW) else s.wac } : State).setChan c { s.chan c with
          ahi := f % 2 ^ ahWidth s.cfg c, alo := g % 2 ^ alWidth s.cfg c, akind := .wr, laWr := windowBase s.cfg c + i
          din := x, wdata := x }) := by
  obtain ⟨hw, hb, ⟨hdp, hne⟩, ⟨harm, hcls⟩, ⟨⟨hP, hS⟩, hdone⟩, hdd⟩ := serves_iff.1 h
  rw [resting_iff] at hP hS
  have hla := localAddr_eq hw c f g
  have hm := mapped_of_lt hl
  rw [← hi] at hla
  rw [cycleIndex, lowBits, lowBits] at hi
  have ha : ¬ windowLen s.cfg c ≤ i := by omega
  obtain ⟨cfg, ram, nv, wel, sr, cls, done, chP, chS, ddir, dout, fabBase, dirpat, armed, seqIds, movIds, cursor, paused,
    nvSel, frame, boot, pc, fault, log, wac, lines, result, sampled, frames, env, fresh⟩ := s
  obtain ⟨bR, ahi, alo, ak, din, lr, lw, rda, wda, rr, wr, tr, tw, ir, iw, dq, iq, ac, rp⟩ := chP
  obtain ⟨bR2, ahi2, alo2, ak2, din2, lr2, lw2, rda2, wda2, rr2, wr2, tr2, tw2, ir2, iw2, dq2, iq2, ac2, rp2⟩ := chS
  simp only at hcls hP hS hdone hdd ha hm hla hb hi hdp hne
  obtain ⟨rfl, rfl, rfl, rfl, rfl, rfl, rfl, rfl, rfl, rfl⟩ := hP
  obtain ⟨rfl, rfl, rfl, rfl, rfl, rfl, rfl, rfl, rfl, rfl⟩ := hS
  obtain ⟨rfl, rfl⟩ := hb
  obtain ⟨harm, hboot⟩ := (engineRuns_iff _).1 harm
  simp only at harm hboot
  subst harm hcls hdone hdd hdp
  cases c <;> simp only [windowBase, windowLen, ahWidth, alWidth] at hla hm ha hi <;>
  cases hwe : cfg.wacEnabled <;>
  simp [busCycle, settle, State.engineRuns, hboot, presentCycle, engineFuel, engineRun, engineStep, engineAgents, agentStep,
    engineAgentStep, clsStep, clsDispatch, pushTrig, push, pop, classify, chselOf, dirLevel, CycleClass.channel,
    CycleClass.dir, acuStep, acuTake, acuHigh, acuLow, acuEmit, rdChainStep, rrStep, rrClose, wcStep, wrChainStep,
    State.chan, State.setChan, State.applyPattern, patternDir, hostSample, hne, hne.symm, memRead, Except.map, endCycle, ahWidth, alWidth,
    windowLen, windowBase, ha, hm, lowBits, ← hi, hla, wrStore, memWrite, countWrite, State.wacBump, dataIn, State.setCell, hwe]

/-- A cycle outside its window ends in the model fault of R135. -/
theorem busCycle_out {s : State} {c : Channel} {d : Dir} {f g i : Nat} {x : Byte} (h : s.serves = true)
    (hi : i = cycleIndex s.cfg c f g) (hl : windowLen s.cfg c ≤ i) :
    busCycle c d f g x s = .error (.indexOutOfRange c i) := by
  obtain ⟨hw, hb, ⟨hdp, hne⟩, ⟨harm, hcls⟩, ⟨⟨hP, hS⟩, hdone⟩, hdd⟩ := serves_iff.1 h
  rw [resting_iff] at hP hS
  rw [cycleIndex, lowBits, lowBits] at hi
  obtain ⟨cfg, ram, nv, wel, sr, cls, done, chP, chS, ddir, dout, fabBase, dirpat, armed, seqIds, movIds, cursor, paused,
    nvSel, frame, boot, pc, fault, log, wac, lines, result, sampled, frames, env, fresh⟩ := s
  obtain ⟨bR, ahi, alo, ak, din, lr, lw, rda, wda, rr, wr, tr, tw, ir, iw, dq, iq, ac, rp⟩ := chP
  obtain ⟨bR2, ahi2, alo2, ak2, din2, lr2, lw2, rda2, wda2, rr2, wr2, tr2, tw2, ir2, iw2, dq2, iq2, ac2, rp2⟩ := chS
  simp only at hcls hP hS hdone hdd hl hb hi hdp
  obtain ⟨rfl, rfl, rfl, rfl, rfl, rfl, rfl, rfl, rfl, rfl⟩ := hP
  obtain ⟨rfl, rfl, rfl, rfl, rfl, rfl, rfl, rfl, rfl, rfl⟩ := hS
  obtain ⟨rfl, rfl⟩ := hb
  obtain ⟨harm, hboot⟩ := (engineRuns_iff _).1 harm
  simp only at harm hboot
  subst harm hcls hdone hdd hdp
  cases c <;> simp only [windowBase, windowLen, ahWidth, alWidth] at hl hi <;> cases d <;>
  simp [busCycle, settle, State.engineRuns, hboot, presentCycle, engineFuel, engineRun, engineStep, engineAgents, agentStep, engineAgentStep,
    clsStep, clsDispatch, pushTrig, push, pop, classify, chselOf, dirLevel, CycleClass.channel, CycleClass.dir, acuStep,
    acuTake, acuHigh, acuLow, acuEmit, rdChainStep, rrStep, wcStep, wrChainStep, State.chan, State.setChan, Except.map,
    ahWidth, alWidth, windowLen, lowBits, ← hi, hl]

end Sys2Proof.Machine
end

