-- ==== Sys2Proof/Laws/Encoding.lean ====
section
/-! SUPPORT. The two address bytes of a frame and the address they stand for (spec/30_encoding.md R93). -/

namespace Sys2Proof

theorem addrOf_hi_lo (a : StoreAddr) : addrOf (addrHi a) (addrLo a) = a := by
  apply BitVec.eq_of_getLsbD_eq
  intro i hi
  simp only [addrOf, addrHi, addrLo, BitVec.getLsbD_append, BitVec.getLsbD_extractLsb']
  by_cases h : i < 8
  · simp [h]
  · simp [h, show i - 8 < 8 by omega, show 8 + (i - 8) = i by omega]

theorem addrHi_of (h l : Byte) : addrHi (addrOf h l) = h := by
  apply BitVec.eq_of_getLsbD_eq
  intro i hi
  simp only [addrOf, addrHi, BitVec.getLsbD_append, BitVec.getLsbD_extractLsb', hi, decide_true, Bool.true_and,
    show ¬(8 + i < 8) by omega, if_false, Nat.add_sub_cancel_left]

theorem addrLo_of (h l : Byte) : addrLo (addrOf h l) = l := by
  apply BitVec.eq_of_getLsbD_eq
  intro i hi
  simp only [addrOf, addrLo, BitVec.getLsbD_append, BitVec.getLsbD_extractLsb', hi, decide_true, Bool.true_and,
    Nat.zero_add, if_true]

end Sys2Proof
end

