-- ==== Sys2Proof/Laws/PerInstr.lean ====
section
/-! SUPPORT. Per instruction: its packet carries the code of its row of the opcode table, at the port of the row's format. -/

namespace Sys2Proof.Laws.EncodedCode

/-- What a row of spec/opcode_table.json fixes of a packet: format class, mask, match. -/
structure Row where
  wire : Bool
  call : Bool
  mask : Nat
  code : Nat

/-- A `BUSCYC` row. -/
def busRow (mask code : Nat) : Row := ⟨false, false, mask, code⟩

/-- A `WIRE0`, `WIRE1` or `WIREA` row: byte 0 of the frame. -/
def wireRow (code : Nat) : Row := ⟨true, false, 0xFF, code⟩

/-- A `CALL` row: the selector. -/
def callRow (code : Nat) : Row := ⟨false, true, 0xFF, code⟩

/-- The rows, copied from the table's columns `match` and `mask`. -/
def rowOf : Instr → Row
  | .prd _ _ => busRow 0x7 0x5
  | .pwr _ _ _ => busRow 0x7 0x4
  | .srd _ _ => busRow 0x7 0x7
  | .swr _ _ _ => busRow 0x7 0x6
  | .nocyc _ _ => busRow 0x4 0x0
  | .wren => wireRow 0x06
  | .wrdi => wireRow 0x04
  | .rdsr => wireRow 0x05
  | .wrsr _ => wireRow 0x01
  | .read _ _ => wireRow 0x03
  | .write _ _ => wireRow 0x02
  | .boot => callRow 0x00
  | .probe => callRow 0x01
  | .restore => callRow 0x02
  | .arm _ _ _ => callRow 0x03
  | .repair => callRow 0x04
  | .nvRead _ _ => callRow 0x05
  | .nvWrite _ _ => callRow 0x06
  | .backupTick => callRow 0x07
  | .writeAllNow => callRow 0x08
  | .exportImage => callRow 0x09
  | .importImage _ => callRow 0x0A

/-- A packet shows a row's code where the row's format has it. -/
def shows (r : Row) : Packet → Prop
  | .bus v _ _ _ => r.wire = false ∧ r.call = false ∧ v.toNat &&& r.mask = r.code
  | .wire (op :: _) _ => r.wire = true ∧ r.call = false ∧ op.toNat &&& r.mask = r.code
  | .wire [] _ => False
  | .call sel _ => r.wire = false ∧ r.call = true ∧ sel.toNat &&& r.mask = r.code

/-- The encoder puts the table's code into the packet of `i`. -/
def Statement (i : Instr) : Prop := shows (rowOf i) (encode i)

theorem prd (first second : Nat) : Statement (.prd first second) := by
  simp [Statement, shows, rowOf, encode, busRow, wireRow, callRow, WireCmd.packet, WireCmd.tx]
theorem pwr (first second : Nat) (data : Byte) : Statement (.pwr first second data) := by
  simp [Statement, shows, rowOf, encode, busRow, wireRow, callRow, WireCmd.packet, WireCmd.tx]
theorem srd (first second : Nat) : Statement (.srd first second) := by
  simp [Statement, shows, rowOf, encode, busRow, wireRow, callRow, WireCmd.packet, WireCmd.tx]
theorem swr (first second : Nat) (data : Byte) : Statement (.swr first second data) := by
  simp [Statement, shows, rowOf, encode, busRow, wireRow, callRow, WireCmd.packet, WireCmd.tx]
theorem nocyc (chsel dir : Bool) : Statement (.nocyc chsel dir) := by
  cases chsel <;> cases dir <;> simp [Statement, shows, rowOf, encode, busRow, nocycVector] <;> decide
theorem wren : Statement .wren := by
  simp [Statement, shows, rowOf, encode, busRow, wireRow, callRow, WireCmd.packet, WireCmd.tx]
theorem wrdi : Statement .wrdi := by
  simp [Statement, shows, rowOf, encode, busRow, wireRow, callRow, WireCmd.packet, WireCmd.tx]
theorem rdsr : Statement .rdsr := by
  simp [Statement, shows, rowOf, encode, busRow, wireRow, callRow, WireCmd.packet, WireCmd.tx]
theorem wrsr (v : Byte) : Statement (.wrsr v) := by
  simp [Statement, shows, rowOf, encode, busRow, wireRow, callRow, WireCmd.packet, WireCmd.tx]
theorem read (a : StoreAddr) (n : Nat) : Statement (.read a n) := by
  simp [Statement, shows, rowOf, encode, busRow, wireRow, callRow, WireCmd.packet, WireCmd.tx]
theorem write (a : StoreAddr) (p : List Byte) : Statement (.write a p) := by
  simp [Statement, shows, rowOf, encode, busRow, wireRow, callRow, WireCmd.packet, WireCmd.tx]
theorem boot : Statement .boot := by
  simp [Statement, shows, rowOf, encode, busRow, wireRow, callRow, WireCmd.packet, WireCmd.tx]
theorem probe : Statement .probe := by
  simp [Statement, shows, rowOf, encode, busRow, wireRow, callRow, WireCmd.packet, WireCmd.tx]
theorem restore : Statement .restore := by
  simp [Statement, shows, rowOf, encode, busRow, wireRow, callRow, WireCmd.packet, WireCmd.tx]
theorem arm (base patOut patIn : Nat) : Statement (.arm base patOut patIn) := by
  simp [Statement, shows, rowOf, encode, busRow, wireRow, callRow, WireCmd.packet, WireCmd.tx]
theorem repair : Statement .repair := by
  simp [Statement, shows, rowOf, encode, busRow, wireRow, callRow, WireCmd.packet, WireCmd.tx]
theorem nvRead (addr : StoreAddr) (n : Nat) : Statement (.nvRead addr n) := by
  simp [Statement, shows, rowOf, encode, busRow, wireRow, callRow, WireCmd.packet, WireCmd.tx]
theorem nvWrite (addr : StoreAddr) (bytes : List Byte) : Statement (.nvWrite addr bytes) := by
  simp [Statement, shows, rowOf, encode, busRow, wireRow, callRow, WireCmd.packet, WireCmd.tx]
theorem backupTick : Statement .backupTick := by
  simp [Statement, shows, rowOf, encode, busRow, wireRow, callRow, WireCmd.packet, WireCmd.tx]
theorem writeAllNow : Statement .writeAllNow := by
  simp [Statement, shows, rowOf, encode, busRow, wireRow, callRow, WireCmd.packet, WireCmd.tx]
theorem exportImage : Statement .exportImage := by
  simp [Statement, shows, rowOf, encode, busRow, wireRow, callRow, WireCmd.packet, WireCmd.tx]
theorem importImage (src : List Int) : Statement (.importImage src) := by
  simp [Statement, shows, rowOf, encode, busRow, wireRow, callRow, WireCmd.packet, WireCmd.tx]

end Sys2Proof.Laws.EncodedCode
end

