-- ==== Sys2Proof/Laws/Run.lean ====
section
/-! SUPPORT. What the end of a run is (spec/70 R302). -/

namespace Sys2Proof.Machine

/-- A run that comes to a state ends there: the script is used up and the state is quiescent. -/
theorem runEnded_of_runToEnd {n : Nat} {s t : State} (h : runToEnd n s = some (.next t)) : t.runEnded = true := by
  induction n generalizing s with
  | zero =>
    unfold runToEnd at h
    split_ifs at h with he
    cases h
    exact he
  | succ n ih =>
    unfold runToEnd at h
    split_ifs at h with he
    · cases h
      exact he
    · split at h
      · exact ih h
      · cases h
      · cases h

/-- A state at which a run has ended is its own end, however many steps are allowed. -/
theorem runToEnd_of_runEnded {s : State} (h : s.runEnded = true) (n : Nat) : runToEnd n s = some (.next s) := by
  cases n <;> simp [runToEnd, h]

/-- More steps allowed find the same end. -/
theorem runToEnd_mono {n m : Nat} {s : State} {o : Host.Outcome State Fault Refusal} (h : runToEnd n s = some o)
    (hm : n ≤ m) : runToEnd m s = some o := by
  induction n generalizing s m with
  | zero =>
    unfold runToEnd at h
    split_ifs at h with he
    cases h
    exact runToEnd_of_runEnded he m
  | succ n ih =>
    obtain ⟨k, rfl⟩ : ∃ k, m = k + 1 := ⟨m - 1, by omega⟩
    unfold runToEnd at h ⊢
    split_ifs at h ⊢ with he
    · exact h
    · split at h <;> first | exact ih h (by omega) | exact h

end Sys2Proof.Machine
end

