-- ==== Sys2Proof/Laws/Steady.lean ====
section
/-! SUPPORT. A property that also survives the updates of the boot sequencer, of the events and of RESET survives every step. -/

namespace Sys2Proof.Machine

/-- A property every part of a step keeps, whatever `BOOT` and the call's own registers become. -/
structure Steady (P : State → Prop) : Prop extends Kept P where
  events : ∀ {s} (es : List Event), P s → P { s with env := { s.env with events := es } }
  result : ∀ {s} (r : CallResult), P s → P { s with result := r }
  boot : ∀ {s} (b : BootState), P s → P { s with boot := b }
  start : ∀ {s}, P s → P { s with cursor := 0, boot := .bProbe }
  probe : ∀ {s} (n : Nat), P s → P { s with probeCount := n }
  raise : ∀ {s} (c : FaultCause), P s → P (enterFault s c)
  ids : ∀ {s} (a b : List Nat), P s → P { s with seqIds := a, movIds := b }
  arm : ∀ {s} (base : Nat) (pats : Nat × Nat), P s → P (armRegisters base pats s)
  advance : ∀ {s}, P s → P { s with cursor := nextCursor s.cfg.len s.cursor }
  pause : ∀ {s} (b : Bool), P s → P (s.setPaused b)
  reset : ∀ {s}, P s → P (hardReset s)

section

variable {P : State → Prop} (H : Steady P)
include H

theorem probeOp_keeps {s : State} (h : P s) : (probeOp s).Keeps P := by
  have h1 : P (nextProbe s).2 := by
    unfold nextProbe
    split
    · exact h
    · next n ns hn =>
      refine H.env h ⟨rfl, List.suffix_rfl, List.suffix_rfl, ?_, List.suffix_rfl⟩
      rw [hn]
      exact List.suffix_cons n ns
  simp only [probeOp]
  split_ifs
  · exact H.probe _ h1
  · exact H.raise _ (H.probe _ h1)
  · exact H.probe _ h1

theorem armOp_keeps (base : Nat) (pats : Nat × Nat) {s : State} (h : P s) : (armOp base pats s).Keeps P := by
  have h1 : P (nextAlloc s).2 := by
    unfold nextAlloc
    split
    · exact h
    · next a as ha =>
      refine H.env h ⟨rfl, List.suffix_rfl, ?_, List.suffix_rfl, List.suffix_rfl⟩
      rw [ha]
      exact List.suffix_cons a as
  simp only [armOp]
  split_ifs
  · trivial
  · trivial
  · exact H.ids _ _ h1
  · exact H.arm _ _ (H.ids _ _ h1)
  · exact H.raise _ (H.ids _ _ h1)

theorem bootStage_keeps {s : State} (h : P s) : (bootStage s).Keeps P := by
  have K := H.toKept
  unfold bootStage
  split
  · exact H.start h
  · refine keeps_bind (probeOp_keeps H h) fun r s1 p1 => ?_
    show P (if r = .ok then { s1 with boot := .bRestore } else s1)
    split_ifs
    · exact H.boot _ p1
    · exact p1
  · exact keeps_bind (restoreOp_keeps K h) fun _ s1 p1 => H.boot _ p1
  · refine keeps_bind (armOp_keeps H _ _ h) fun r s1 p1 => ?_
    show P (if r = .ok then { s1 with boot := .bRepair } else s1)
    split_ifs
    · exact H.boot _ p1
    · exact p1
  · exact keeps_bind (repairOp_keeps K h) fun _ s1 p1 => H.boot _ p1
  · exact h
  · exact h

theorem bootRun_keeps (n : Nat) {s : State} (h : P s) : (bootRun n s).Keeps P := by
  induction n generalizing s with
  | zero => exact h
  | succ n ih =>
    unfold bootRun
    split_ifs
    · exact h
    · exact keeps_bind (bootStage_keeps H h) fun _ s1 p1 => ih p1

theorem finish_keeps {r : Res CallResult} {t : State} (hr : r.Keeps P) (ht : finish r = .next t) : P t := by
  rcases finish_eq_next.1 ht with ⟨a, s, rfl, rfl⟩ | ⟨s, rfl, rfl⟩
  · exact H.result a hr
  · exact H.reset hr

omit H in
theorem ofCycle_keeps {r : Except Fault State} {t : State} (hr : ∀ u, r = .ok u → P u) (ht : ofCycle r = .next t) :
    P t := by
  cases r with
  | ok u => cases ht; exact hr _ rfl
  | error f => cases ht

/-- Every operation keeps the property. -/
theorem exec_keeps (i : Instr) {s t : State} (h : P s) (ht : exec i s = .next t) : P t := by
  have K := H.toKept
  have call : ∀ {α : Type} {r : Res α} {k : α → State → Res CallResult}, finish (r.bind k) = .next t → r.Keeps P →
      (∀ a s, P s → (k a s).Keeps P) → P t :=
    fun ht hr hk => finish_keeps H (keeps_bind hr hk) ht
  cases i with
  | prd f g => exact ofCycle_keeps (fun u hu => busCycle_kept K h hu) ht
  | pwr f g b => exact ofCycle_keeps (fun u hu => busCycle_kept K h hu) ht
  | srd f g => exact ofCycle_keeps (fun u hu => busCycle_kept K h hu) ht
  | swr f g b => exact ofCycle_keeps (fun u hu => busCycle_kept K h hu) ht
  | nocyc c d => exact ofCycle_keeps (fun u hu => settle_kept K (H.lines _ h) hu) ht
  | wren => exact call ht (xferLogged_keeps K _ _ _ _ h) fun _ _ p => p
  | wrdi => exact call ht (xferLogged_keeps K _ _ _ _ h) fun _ _ p => p
  | rdsr => exact call ht (xferLogged_keeps K _ _ _ _ h) fun _ _ p => p
  | wrsr v => exact call ht (xferLogged_keeps K _ _ _ _ h) fun _ _ p => p
  | read a n => exact call ht (xferLogged_keeps K _ _ _ _ h) fun _ _ p => p
  | write a p => exact call ht (xferLogged_keeps K _ _ _ _ h) fun _ _ p => p
  | boot => exact call ht (bootRun_keeps H 5 h) fun _ _ p => p
  | probe => exact finish_keeps H (probeOp_keeps H h) ht
  | restore => exact call ht (restoreOp_keeps K h) fun _ _ p => p
  | arm b o i => exact finish_keeps H (armOp_keeps H _ _ h) ht
  | repair => exact call ht (repairOp_keeps K h) fun _ _ p => p
  | nvRead a n => exact call ht (nvReadOp_keeps K _ _ h) fun _ _ p => p
  | nvWrite a bs => exact call ht (nvWriteOp_keeps K _ _ h) fun _ _ p => p
  | backupTick => exact call ht (persistChunk_keeps K _ (H.advance h)) fun _ _ p => p
  | writeAllNow =>
    exact call ht (keeps_bind (sweepChunks_keeps K _ _ (H.pause true h)) fun _ _ p => H.pause false p) fun _ _ p => p
  | exportImage => exact finish_keeps H (exportOp_keeps K h) ht
  | importImage src => exact finish_keeps H (importOp_keeps K src h) ht

omit H in
theorem ofMicro_keeps {m : Micro} {s t : State} (h : P s) (hm : ∀ u, m = some (.ok u) → P u) (ht : ofMicro m s = .next t) :
    P t := by
  unfold ofMicro at ht
  split at ht
  · cases ht; exact h
  · cases ht; exact hm _ rfl
  · cases ht

theorem bootEvent_keeps {s t : State} (h : P s) (ht : bootEvent s = .next t) : P t := by
  have hb := bootStage_keeps H h
  unfold bootEvent at ht
  split at ht
  · next he => rw [he] at hb; cases ht; exact hb
  · next he => rw [he] at hb; cases ht; exact H.reset hb
  · cases ht
  · cases ht

/-- Every step keeps the property. -/
theorem step_keeps {s t : State} (h : P s) (ht : step s = .next t) : P t := by
  have K := H.toKept
  unfold step at ht
  split at ht
  · next e s1 he =>
    have h1 : P s1 := by
      unfold fetch at he
      split at he
      · cases he
      · cases he; exact H.events _ h
    cases e with
    | packet p =>
      simp only [handle] at ht
      split at ht
      · exact exec_keeps H _ h1 ht
      · cases ht
    | reset => cases ht; exact H.reset h1
    | tick =>
      simp only [handle, tick] at ht
      split_ifs at ht
      · exact exec_keeps H .backupTick h1 ht
      · cases ht; exact h1
    | glitch => exact ofCycle_keeps (fun u hu => glitch_kept K h1 hu) ht
    | swRead c i =>
      simp only [handle, swRead] at ht
      split_ifs at ht
      · cases ht; exact H.result _ h1
      · cases ht; exact h1
    | lines l => cases ht; exact H.lines l h1
    | agent a =>
      simp only [handle, agentEvent] at ht
      split at ht
      · exact bootEvent_keeps H h1 ht
      · exact ofMicro_keeps h1 (fun u hu => H.agent h1 hu) ht
  · simp only [idle] at ht
    split_ifs at ht
    · exact ofMicro_keeps h (fun u hu => engineStep_kept K h hu) ht
    · exact bootEvent_keeps H h ht

end

end Sys2Proof.Machine
end

