-- ==== Sys2Proof/Tests/Slice0.lean ====
section
/-! SUPPORT. Tests from spec/95_test_vectors.md and witnesses for the hypotheses of the statements. -/

namespace Sys2Proof.Tests

open Sys2Proof.Machine

/-! ### States of the test configurations -/

/-- T4 of the test vectors. -/
def t4 : Config := { Config.t32 with len := 4, ckOffset := 3, ckFn := .sumBelow 3 }

/-- A booted block of configuration `g` whose region begins with `bs`. -/
def booted (g : Config) (bs : List Byte) : State :=
  { State.reset with
    cfg := g, boot := .bRunning, armed := true, fabBase := g.baseOffset, dirpat := (g.dirpatOut, g.dirpatIn)
    ram := Memory.writeList [] g.baseOffset bs
    chP := { Chan.reset with baseReg := g.baseOffset }, chS := { Chan.reset with baseReg := g.secBaseOffset } }

/-- T32, region 00 01 02 03 04 05 and zeros. -/
def run32 : State := booted Config.t32 [0, 1, 2, 3, 4, 5]

/-- T4, region 11 22 33 44. -/
def run4 : State := booted t4 [0x11, 0x22, 0x33, 0x44]

/-- T4 before arming, region 11 22 33 44. -/
def off4 : State := { run4 with armed := false, boot := .bFault, fault := ⟨true, false⟩ }

/-- T4 armed by hand before the boot's probe, which then fails. -/
def halted4 : State := { run4 with boot := .bFault, fault := ⟨false, true⟩ }

/-- T4 after power-up with a store that begins 11 22 33 44. -/
def cold4 : State := { State.reset with cfg := t4, nv := Memory.writeList [] 0 [0x11, 0x22, 0x33, 0x44] }

/-- With these outcomes for the coming frames. -/
def withOutcomes (s : State) (os : List FrameOutcome) : State := { s with env := { s.env with outcomes := os } }

/-- With this activity between the coming byte accesses. -/
def withRaces (s : State) (rs : List (List HostAct)) : State := { s with env := { s.env with races := rs } }

/-- What a field of the next state is; none where there is no next state. -/
def after {α : Type} (o : Host.Outcome State Fault Refusal) (f : State → α) : Option α :=
  match o with
  | .next t => some (f t)
  | .fault _ => none
  | .refused _ => none

/-- The fault or refusal of a step that has no next state. -/
def stopOf (o : Host.Outcome State Fault Refusal) : Option (Fault ⊕ Refusal) :=
  match o with
  | .next _ => none
  | .fault f => some (.inl f)
  | .refused r => some (.inr r)

/-! ### WellFormed refuses an ill-formed term -/

theorem test_wf_read_zero_refused : (Instr.read 0 0).wf = false := by decide
theorem test_wf_read_one : (Instr.read 0 1).wf = true := by decide

/-! ### Decoding: words written out from R91, R92, R96 -/

theorem test_decode_prd : decode (.bus 0b101#3 0x7A 0x3 0) = .ok (.prd 0x7A 0x3) := by decide
theorem test_decode_pwr : decode (.bus 0b100#3 0 5 0xAA) = .ok (.pwr 0 5 0xAA) := by decide
theorem test_decode_srd : decode (.bus 0b111#3 1 0 0) = .ok (.srd 1 0) := by decide
theorem test_decode_swr : decode (.bus 0b110#3 1 0 0x59) = .ok (.swr 1 0 0x59) := by decide
theorem test_decode_nocyc : decode (.bus 0b010#3 1 0 0) = .ok (.nocyc true false) := by decide
theorem test_decode_wren : decode (.wire [0x06] 0) = .ok .wren := by decide
theorem test_decode_wrdi : decode (.wire [0x04] 0) = .ok .wrdi := by decide
theorem test_decode_rdsr : decode (.wire [0x05] 1) = .ok .rdsr := by decide
theorem test_decode_wrsr : decode (.wire [0x01, 0x00] 0) = .ok (.wrsr 0) := by decide
theorem test_decode_read : decode (.wire [0x03, 0x12, 0x34] 16) = .ok (.read 0x1234 16) := by decide
theorem test_decode_write : decode (.wire [0x02, 0x12, 0x34, 0xAA, 0xBB] 0) = .ok (.write 0x1234 [0xAA, 0xBB]) := by decide
theorem test_decode_boot : decode (.call 0x00 []) = .ok .boot := by decide
theorem test_decode_probe : decode (.call 0x01 []) = .ok .probe := by decide
theorem test_decode_restore : decode (.call 0x02 []) = .ok .restore := by decide
theorem test_decode_arm : decode (.call 0x03 [.nat 0x20040000, .nat 1, .nat 2]) = .ok (.arm 0x20040000 1 2) := by decide
theorem test_decode_repair : decode (.call 0x04 []) = .ok .repair := by decide
theorem test_decode_nv_read : decode (.call 0x05 [.addr 0x0010, .nat 16]) = .ok (.nvRead 0x0010 16) := by decide
theorem test_decode_nv_write : decode (.call 0x06 [.addr 0x0100, .bytes [1]]) = .ok (.nvWrite 0x0100 [1]) := by decide
theorem test_decode_backup_tick : decode (.call 0x07 []) = .ok .backupTick := by decide
theorem test_decode_write_all_now : decode (.call 0x08 []) = .ok .writeAllNow := by decide
theorem test_decode_export : decode (.call 0x09 []) = .ok .exportImage := by decide
theorem test_decode_import : decode (.call 0x0A [.ints [1, 2]]) = .ok (.importImage [1, 2]) := by decide

/-- V44: 07 and the empty frame are refused. -/
theorem test_decode_unknown_opcode : decode (.wire [0x07] 0) = .error .unknownWireOpcode ∧
    decode (.wire [] 0) = .error .unknownWireOpcode := by decide
theorem test_decode_wren_extra_byte : decode (.wire [0x06, 0x00] 0) = .error .extraBytes := by decide
theorem test_decode_short_read : decode (.wire [0x03, 0x12] 1) = .error .badFrameLength := by decide
theorem test_decode_read_nothing : decode (.wire [0x03, 0x12, 0x34] 0) = .error .badResponseCount := by decide
theorem test_decode_unknown_selector : decode (.call 0x0B []) = .error .unknownSelector := by decide
theorem test_decode_arm_arguments : decode (.call 0x03 []) = .error .badArguments := by decide

/-! ### One step on a small state -/

/-- V22. -/
theorem test_prd : after (exec (.prd 0 5) run32) (fun t => (t.sampled, t.ddir, t.ram)) =
    some ([0x05], .inward, run32.ram) := by decide
/-- R140, R33: armed with the pair the wrong way round the lines end outward. -/
theorem test_prd_swapped_patterns : after (exec (.prd 0 5) { run32 with dirpat := (0, 255) })
    (fun t => (t.ddir, t.sampled.length, t.cls)) = some (.outward, 1, .idle) := by decide
/-- V21: `AMUX` lines above bit 3 are ignored in the second sub-phase. -/
theorem test_prd_high_lines_ignored : after (exec (.prd 0 0x35) run32) (·.dout) = some 0x05 := by decide
/-- V23. -/
theorem test_pwr : after (exec (.pwr 0 5 0xAA) run32) (fun t => (t.shadow 5, t.shadow 4, t.cls)) =
    some (0xAA, 0x04, .idle) := by decide
/-- V29: the activity counter wraps. -/
theorem test_pwr_counter_wraps :
    after (exec (.pwr 0 5 1) { run32 with cfg := { Config.t32 with wacEnabled := true }, wac := [(5, 255)] }) (·.wac) =
      some [] := by decide
/-- V30, V31. -/
theorem test_swr : after (exec (.swr 1 0 0x59) run32) (fun t => (t.secreg 2, t.shadow 2)) = some (0x59, 0x02) := by decide
theorem test_srd : after (exec (.srd 1 0) (run32.setCell .secondary 2 0x59)) (·.sampled) = some [0x59] := by decide
/-- V20. -/
theorem test_prd_out_of_window : stopOf (exec (.prd 2 0) run32) = some (.inl (.indexOutOfRange .primary 0x20)) := by decide
/-- V5. -/
theorem test_nocyc : after (exec (.nocyc true true) run32) (fun t => (t.cls, t.sampled)) = some (.idle, []) := by decide
/-- V6. -/
theorem test_glitch : after (step (run32.withEvent .glitch)) (fun t => (t.cls, t.chP)) = some (.idle, run32.chP) := by decide
/-- V35, V37. -/
theorem test_wren : after (exec .wren run4) (·.wel) = some true := by decide
theorem test_wrdi : after (exec .wrdi { run4 with wel := true }) (·.wel) = some false := by decide
theorem test_rdsr : after (exec .rdsr { run4 with sr := 0x5A }) (·.result) = some (.bytes [0x5A]) := by decide
theorem test_wrsr_frame : after (exec (.wrsr 7) run4) (·.frames) = some [⟨[0x01, 7], []⟩] := by decide
/-- V38. -/
theorem test_write : after (exec (.write 0x0110 [0xAA, 0xBB]) { run4 with wel := true }) (fun t => (t.nv, t.wel)) =
    some ([(0x0110, 0xAA), (0x0111, 0xBB)], false) := by decide
/-- V39. -/
theorem test_write_not_enabled : after (exec (.write 0x0110 [0xAA]) run4) (·.nv) = some [] := by decide
/-- V42. -/
theorem test_read : after (exec (.read 0x010F 4) { run4 with nv := [(0x0110, 0xAA), (0x0111, 0xBB)] }) (·.result) =
    some (.bytes [0, 0xAA, 0xBB, 0]) := by decide
/-- V47: the wrap. -/
theorem test_read_wraps : after (exec (.read 0xFFFF 2) { run4 with nv := [(0, 7), (0xFFFF, 9)] }) (·.result) =
    some (.bytes [9, 7]) := by decide
/-- V57, V61. -/
theorem test_nv_read_overflow : stopOf (exec (.nvRead 0xFFFF 2) run4) = some (.inr .nvRangeOverflow) := by decide
theorem test_nv_read : after (exec (.nvRead 0xFFFF 1) run4) (fun t => t.frames.map FrameRecord.tx) =
    some [[0x03, 0xFF, 0xFF]] := by decide
/-- V51: 17 bytes are two pairs. -/
theorem test_nv_write : after (exec (.nvWrite 0x0100 (List.replicate 17 1)) run4) (fun t => t.frames.map FrameRecord.tx) =
    some [[6], [2, 1, 0, 1, 1, 1, 1, 1, 1, 1, 1, 1, 1, 1, 1, 1, 1, 1, 1], [6], [2, 1, 0x10, 1]] := by decide
/-- V62 with one byte: the WRITE frame is still sent, the failed WREN is logged. -/
theorem test_nv_write_failed_wren : after (exec (.nvWrite 0x0100 [1]) (withOutcomes run4 [.fail]))
    (fun t => (t.frames.length, t.log)) = some (2, [.transportFail .wren 0x0100 0]) := by decide
/-- V67: LEN = 4, the cursor stays 0 and the whole region goes out. -/
theorem test_backup_tick : after (exec .backupTick run4) (fun t => (t.cursor, t.frames.map FrameRecord.tx)) =
    some (0, [[6], [2, 0, 0, 0x11, 0x22, 0x33, 0x44]]) := by decide
/-- V79: a write after its byte was read is not in the frame. -/
theorem test_backup_tick_race :
    after (exec .backupTick (withRaces run4 [[], [.cycle .primary .wr 0 0 9, .cycle .primary .wr 0 1 8]]))
      (fun t => (t.nv, t.shadow 0)) = some ([(0, 0x11), (1, 8), (2, 0x33), (3, 0x44)], 9) := by decide
/-- R210: a write before the WRITE frame does not change the buffered byte that goes out. -/
theorem test_backup_tick_race_before_write : after (exec .backupTick
    (withRaces run4 [[], [], [], [], [], [.cycle .primary .wr 0 0 9]])) (fun t => (t.nv, t.shadow 0)) =
    some ([(0, 0x11), (1, 0x22), (2, 0x33), (3, 0x44)], 9) := by decide
/-- V74 on T4. -/
theorem test_write_all_now : after (exec .writeAllNow { run4 with cursor := 0 }) (fun t => (t.nv, t.paused, t.wel)) =
    some ([(0, 0x11), (1, 0x22), (2, 0x33), (3, 0x44)], false, false) := by decide
/-- Program 5, part b. -/
theorem test_restore : after (exec .restore cold4) (fun t => (t.shadowBytes 0 4, t.frames)) =
    some ([0x11, 0x22, 0x33, 0x44], [⟨[3, 0, 0], [0x11, 0x22, 0x33, 0x44]⟩]) := by decide
/-- V82. -/
theorem test_export : after (exec .exportImage run4) (·.result) = some (.ints [17, 34, 51, 68]) := by decide
/-- V87, V85. -/
theorem test_import : after (exec (.importImage [256, 511, -1]) off4) (fun t => t.shadowBytes 0 4) =
    some [0x00, 0xFF, 0xFF, 0x44] := by decide
theorem test_import_oversized : after (exec (.importImage [1, 2, 3, 4, 5]) off4) (fun t => (t.ram, t.log, t.result)) =
    some (off4.ram, [.importRejected 5], .rejected) := by decide
/-- V92, V93. -/
theorem test_probe_at_maximum : after (exec .probe { cold4 with env := { cold4.env with probes := [1000] } })
    (fun t => (t.result, t.fault.raised)) = some (.ok, false) := by decide
theorem test_probe_fault : after (exec .probe { cold4 with env := { cold4.env with probes := [1001] } })
    (fun t => (t.boot, t.fault.busActivity)) = some (.bFault, true) := by decide
/-- R259: in the fault state a cycle is not served, whatever ARMED holds. -/
theorem test_fault_state_serves_nothing : after (exec (.pwr 0 0 9) halted4) (fun t => (t.shadow 0, t.cls, t.ddir)) =
    some (0x11, .idle, .inward) := by decide
/-- R237: in B_RUNNING a failing probe called by hand raises nothing. -/
theorem test_probe_running : after (exec .probe { run4 with env := { run4.env with probes := [1001] } })
    (fun t => (t.boot, t.fault.raised, t.result)) = some (.bRunning, false, .busActivityFault 1001) := by decide
/-- V95, V96, V98. -/
theorem test_arm : after (exec (.arm 0x20040000 1 2) cold4) (fun t => (t.armed, t.chP.baseReg, t.chS.baseReg)) =
    some (true, 0x20040000, 0x20041000) := by decide
theorem test_arm_failure : after (exec (.arm 0x20040000 1 2) { cold4 with env := { cold4.env with allocs := [([0], [])] } })
    (fun t => (t.armed, t.boot, t.chP.baseReg)) = some (false, .bFault, 0) := by decide
/-- R173: after a failed arm a second one, with a full allocation, does not start the engine. -/
theorem test_arm_in_fault_state : after (exec (.arm 0x20040000 1 2) off4) (fun t => (t.armed, t.boot, t.chP)) =
    some (false, .bFault, off4.chP) := by decide
/-- V100 on T4: the field becomes 11 + 22 + 33 = 66. -/
theorem test_repair : after (exec .repair run4) (fun t => (t.shadow 3, t.log)) = some (0x66, [.checksumFixed]) := by decide
/-- Program 1 on T4. -/
theorem test_boot : after (exec .boot cold4) (fun t => (t.boot, t.armed, t.shadow 0, t.log)) =
    some (.bRunning, true, 0x11, [.checksumFixed]) := by decide
/-- R302: with a last event that makes the strobe stick the run has no end. -/
theorem test_stuck_strobe_never_ends :
    runToEnd 20 (run4.withEvent (.lines { Lines.quiet with strobe := true, dir := true })) = none := by decide
/-- R302: the run of a silent block after power-up ends in `B_RUNNING`. -/
theorem test_run_to_end : ((runToEnd 2 (cold4.withEvent (.packet (encode .boot)))).map fun o =>
    after o fun t => (t.boot, t.runEnded)) = some (some (.bRunning, true)) := by decide
/-- Program 5, part a. -/
theorem test_boot_probe_fault : after (exec .boot { cold4 with env := { cold4.env with probes := [1001] } })
    (fun t => (t.boot, t.frames, t.armed)) = some (.bFault, [], false) := by decide

/-! ### Witnesses: concrete values that meet the hypotheses of each statement, clause by clause -/

/-- The engine with the classifier in `c`, the given control lines and `DONE`. -/
def withCls (c : Cls) (strobe chsel dir : Bool) (done : Option Unit) : State :=
  { run32 with cls := c, done := done, lines := { Lines.quiet with strobe := strobe, chsel := chsel, dir := dir } }

/-- T32 with a secondary window of 8 cells, so that secondary addresses 8 to 15 lie outside it. -/
def run32s8 : State := booted { Config.t32 with secLen := 8 } [0, 1, 2, 3, 4, 5]

/-- T4 with the host writing and glitching inside a tick. -/
def raced4 : State := withRaces run4 [[], [.cycle .primary .wr 0 0 9, .cycle .primary .wr 0 1 8], [.glitch]]

/-- T4 after power-up with the probe counting `n`. -/
def probing (n : Nat) : State := { cold4 with env := { cold4.env with probes := [n] } }

/-- T4 after power-up with a platform that answers these sets. -/
def allocating (a b : List Nat) : State := { cold4 with env := { cold4.env with allocs := [(a, b)] } }

theorem witness_DecodeOfEncode : (Instr.read 0x0010 1).wf = true := by decide

theorem witness_EncodeOfDecode : decode (.wire [0x03, 0x00, 0x10] 1) = .ok (.read 0x0010 1) ∧
    decode (.call 0x05 [.addr 0x0010, .nat 0]) = .ok (.nvRead 0x0010 0) ∧
    (0b100#3).getLsbD 2 = true ∧ (0b011#3).getLsbD 2 = false := by decide

theorem witness_UnknownFrameRefused :
    (0x00 : Byte) ∉ ([0x06, 0x04, 0x05, 0x01, 0x03, 0x02] : List Byte) ∧
      (0x07 : Byte) ∉ ([0x06, 0x04, 0x05, 0x01, 0x03, 0x02] : List Byte) := by decide

theorem witness_StepRunsDecoded : decode (.call 0x07 []) = .ok .backupTick := by decide

theorem witness_TickCallsBackup : (run4.boot = .bRunning ∧ run4.paused = false) ∧
    ¬(off4.boot = .bRunning ∧ off4.paused = false) ∧
    ¬((run4.setPaused true).boot = .bRunning ∧ (run4.setPaused true).paused = false) := by decide

theorem witness_SilentBlockRests : (off4.env.events = [] ∧ off4.boot.final = true ∧ off4.engineRuns = false) ∧
    (run4.env.events = [] ∧ run4.boot.final = true ∧ run4.ready = true ∧ run4.lines.strobe = false) ∧
    run4.runEnded = true ∧ halted4.runEnded = true := by decide

theorem witness_ClassifierSteps : (cold4.engineRuns = false ∧ halted4.engineRuns = false) ∧
    (let s := withCls .idle true false true none; s.engineRuns = true ∧ s.cls = .idle ∧ s.lines.strobe = true) ∧
    (let s := withCls .idle false false true none; s.engineRuns = true ∧ s.cls = .idle ∧ s.lines.strobe = false) ∧
    (let s := withCls .settle false false true none; s.engineRuns = true ∧ s.cls = .settle ∧ s.lines.strobe = false) ∧
    (let s := withCls .settle true false true none; s.engineRuns = true ∧ s.cls = .settle ∧ s.lines.strobe = true ∧
      s.lines.chsel = false ∧ s.lines.dir = true ∧ s.chP.trigRd = none) ∧
    (let s := withCls .settle true false false none; s.engineRuns = true ∧ s.cls = .settle ∧ s.lines.strobe = true ∧
      s.lines.chsel = false ∧ s.lines.dir = false ∧ s.chP.trigWr = none) ∧
    (let s := withCls .settle true true true none; s.engineRuns = true ∧ s.cls = .settle ∧ s.lines.strobe = true ∧
      s.lines.chsel = true ∧ s.lines.dir = true ∧ s.chS.trigRd = none) ∧
    (let s := withCls .settle true true false none; s.engineRuns = true ∧ s.cls = .settle ∧ s.lines.strobe = true ∧
      s.lines.chsel = true ∧ s.lines.dir = false ∧ s.chS.trigWr = none) ∧
    (let s := withCls (.busy .prd) true false true none; s.engineRuns = true ∧ s.cls = .busy .prd ∧ s.done = none) ∧
    (let s := withCls (.busy .swr) true true false (some ()); s.engineRuns = true ∧ s.cls = .busy .swr ∧ s.done = some ()) ∧
    (let s := withCls .release true false true none; s.engineRuns = true ∧ s.cls = .release ∧ s.lines.strobe = true) ∧
    (let s := withCls .release false false true none; s.engineRuns = true ∧ s.cls = .release ∧ s.lines.strobe = false) := by
  decide

/-- The primary channel's registers as given, the second `AMUX` level `second`. -/
def withChan (ch : Chan) (second : Nat) : State :=
  { run32 with chP := ch, lines := { Lines.quiet with amuxSecond := second, dataValid := true } }

theorem witness_CaptureSteps :
    (let s := withChan { run32.chP with trigRd := some () } 0; s.engineRuns = true ∧ (s.chan .primary).acu = .wait ∧
      (s.chan .primary).trigRd = some () ∧ (s.chan .primary).trigWr = none) ∧
    (let s := withChan { run32.chP with trigWr := some () } 0; s.engineRuns = true ∧ (s.chan .primary).acu = .wait ∧
      (s.chan .primary).trigRd = none ∧ (s.chan .primary).trigWr = some ()) ∧
    (let s := withChan { run32.chP with acu := .high } 0; s.engineRuns = true ∧ (s.chan .primary).acu = .high) ∧
    (let s := withChan { run32.chP with acu := .low, ahi := 1 } 15; s.engineRuns = true ∧ (s.chan .primary).acu = .low ∧
      31 = ((s.chan .primary).ahi <<< alWidth s.cfg .primary) ||| (s.lines.amuxSecond % 2 ^ alWidth s.cfg .primary) ∧
      31 < windowLen s.cfg .primary) ∧
    (let s := withChan { run32.chP with acu := .low, ahi := 2 } 0; s.engineRuns = true ∧ (s.chan .primary).acu = .low ∧
      32 = ((s.chan .primary).ahi <<< alWidth s.cfg .primary) ||| (s.lines.amuxSecond % 2 ^ alWidth s.cfg .primary) ∧
      windowLen s.cfg .primary ≤ 32) ∧
    (let s := withChan { run32.chP with acu := .emit, alo := 5 } 0; s.engineRuns = true ∧ (s.chan .primary).acu = .emit ∧
      0x20040005 = ((s.chan .primary).baseReg ||| (((s.chan .primary).ahi <<< alWidth s.cfg .primary) |||
        (s.chan .primary).alo)) % 2 ^ s.cfg.localW ∧
      (s.chan .primary).akind = .rd ∧ (s.chan .primary).idxRd = none) ∧
    (let s := withChan { run32.chP with acu := .emit, alo := 5, akind := .wr } 0; s.engineRuns = true ∧
      (s.chan .primary).akind = .wr ∧ (s.chan .primary).idxWr = none) := by decide

theorem witness_ReadRingSteps :
    (let s := withChan { run32.chP with idxRd := some 0x20040005 } 0; s.engineRuns = true ∧
      (s.chan .primary).rdRing = .addr ∧ (s.chan .primary).idxRd = some 0x20040005) ∧
    (let s := withChan { run32.chP with rdRing := .lookup, laRd := 0x2004001F } 0; s.engineRuns = true ∧
      (s.chan .primary).rdRing = .lookup ∧ localMapped s.cfg (s.chan .primary).laRd = true) ∧
    (let s := withChan { run32.chP with rdRing := .dataout } 0; s.engineRuns = true ∧
      (s.chan .primary).rdRing = .dataout ∧ (s.chan .primary).doutQ = none) ∧
    (let s := withChan { run32.chP with doutQ := some 5 } 0; s.engineRuns = true ∧ (s.chan .primary).rr = .wait ∧
      (s.chan .primary).doutQ = some 5) ∧
    (let s := withChan { run32.chP with rr := .taken } 0; s.engineRuns = true ∧ (s.chan .primary).rr = .taken) ∧
    (let s : State := { run32 with chP := { run32.chP with rr := .driving }, ddir := .outward }; s.engineRuns = true ∧
      (s.chan .primary).rr = .driving ∧ s.done = none ∧ s.ddir = .outward) ∧
    (let s := withChan { run32.chP with rr := .driving } 0; s.engineRuns = true ∧ (s.chan .primary).rr = .driving ∧
      s.done = none ∧ s.ddir = .inward) ∧ Config.t32.dirpatOut ≠ Config.t32.dirpatIn := by decide

theorem witness_WriteRingSteps :
    (let s := withChan { run32.chP with idxWr := some 0x20040000 } 0; s.engineRuns = true ∧
      (s.chan .primary).wrRing = .addr ∧ (s.chan .primary).idxWr = some 0x20040000) ∧
    (let s := withChan { run32.chP with wrRing := .datain } 0; s.engineRuns = true ∧ (s.chan .primary).wrRing = .datain ∧
      (s.chan .primary).dinQ = none ∧ s.lines.dataValid = true ∧ s.ddir = .inward) ∧
    (let s : State := { run32 with chP := { run32.chP with wrRing := .datain } }; s.engineRuns = true ∧
      (s.chan .primary).wrRing = .datain ∧ s.lines.dataValid = false) ∧
    (let s := withChan { run32.chP with wrRing := .datain, dinQ := some 9 } 0; s.engineRuns = true ∧
      (s.chan .primary).wrRing = .datain ∧ (s.chan .primary).dinQ = some 9) ∧
    (let s := withChan { run32.chP with wrRing := .store, laWr := 0x2004001F } 0; s.engineRuns = true ∧
      (s.chan .primary).wrRing = .store ∧ s.done = none ∧ localMapped s.cfg (s.chan .primary).laWr = true) := by decide

theorem witness_PrimaryReadServed : run32.serves = true ∧ 0 = cycleIndex run32.cfg .primary 0 0 ∧
    31 = cycleIndex run32.cfg .primary 1 15 ∧ 31 < run32.cfg.len := by decide

theorem witness_SecondaryReadServed : run32.serves = true ∧ 0 = cycleIndex run32.cfg .secondary 0 0 ∧
    15 = cycleIndex run32.cfg .secondary 7 1 ∧ 15 < run32.cfg.secLen := by decide

theorem witness_PrimaryWriteServed : run32.serves = true ∧ run32.memoriesOk = true ∧
    31 = cycleIndex run32.cfg .primary 1 15 ∧ 31 < run32.cfg.len := by decide

theorem witness_SecondaryWriteServed : run32.serves = true ∧ run32.memoriesOk = true ∧
    15 = cycleIndex run32.cfg .secondary 7 1 ∧ 15 < run32.cfg.secLen := by decide

theorem witness_NoCycleChangesNothing : run32.ready = true ∧ off4.engineRuns = false ∧
    halted4.engineRuns = false := by decide

theorem witness_OutOfWindowFaults : run32s8.serves = true ∧
    (HostCycle.mk .primary .rd 2 0 0).inWindow run32s8.cfg = false ∧
    (HostCycle.mk .secondary .wr 4 0 0).inWindow run32s8.cfg = false ∧
    (HostCycle.mk .secondary .wr 4 0 0).index run32s8.cfg = 8 := by decide

theorem witness_UnarmedCyclesIgnored : off4.engineRuns = false ∧ halted4.engineRuns = false ∧ (HostCycle.mk .primary .wr 0 0 1).dir = .wr ∧
    (HostCycle.mk .secondary .rd 0 0 0).dir = .rd := by decide

theorem witness_GlitchDropped : run32.ready = true := by decide

theorem witness_StuckStrobeStalls : (withCls .release true false true none).cls = .release ∧
    (withCls .release true false true none).lines.strobe = true ∧
    (withCls .release true false true none).engineAtRest = true ∧ Agent.cls ≠ .bootSeq ∧
    (let s := withCls .idle true false true none; s.engineRuns = true ∧ s.boot = .bRunning ∧ s.env.events = [] ∧ s.lines.strobe = true) := by decide

theorem witness_ExclusivityKept : (run32.engineShape = true ∧ run32.engineOk = true) ∧
    ∃ t, step (run32.withEvent (.packet (.bus 0b100#3 0 5 0xAA))) = .next t := ⟨by decide, _, rfl⟩

/-- The data lines clause: the state after a served read, whose classifier is idle. -/
theorem witness_ExclusivityKept_lines : after (exec (.prd 0 5) run32)
    (fun t => (t.engineOk, t.patternsOk, t.cls)) = some (true, true, .idle) := by decide

theorem witness_QueuesNeverMisused : (withCls .settle true false false none).engineShape = true := by decide

theorem witness_ReadsLatestWrite : run32.serves = true ∧ run32.memoriesOk = true ∧
    (∀ x ∈ [HostCycle.mk .primary .wr 0 5 0xAA, HostCycle.mk .secondary .wr 0 1 7, HostCycle.mk .primary .rd 1 15 0],
      x.inWindow run32.cfg = true) ∧
    (HostCycle.mk .primary .rd 0 5 0).inWindow run32.cfg = true ∧ (HostCycle.mk .primary .rd 0 5 0).dir = .rd := by decide

theorem witness_BusEngineIsolated : (∃ t, exec (HostCycle.mk .primary .wr 0 5 0xAA).instr run32 = .next t) ∧
    ∃ t, exec (.nocyc true false) run32 = .next t := ⟨⟨_, rfl⟩, _, rfl⟩

theorem witness_LatchCommands : run4.frameWorks = true ∧ (withOutcomes run4 [.ok, .fail]).frameWorks = true := by decide
theorem witness_ReadStatusCommand : run4.frameWorks = true := by decide
theorem witness_WriteStatusCommand : run4.frameWorks = true ∧ { run4 with wel := true }.wel = true := by decide
theorem witness_ReadMemoryCommand : run4.frameWorks = true ∧ 1 ≤ 2 ∧
    [(9 : Byte), 7] = (List.range 2).map
      (fun k => State.nvByte { run4 with nv := [(0, 7), (0xFFFF, 9)] } (((0xFFFF : StoreAddr).toNat + k) % 65536)) := by decide
theorem witness_WriteMemoryCommand : { run4 with wel := true }.frameWorks = true ∧
    { run4 with wel := true }.memoriesOk = true ∧ { run4 with wel := true }.wel = true ∧
    ([1, 2] : List Byte).length ≤ 65536 := by decide
theorem witness_WriteClearsLatch : run4.frameWorks = true ∧ run4.memoriesOk = true ∧ run4.wel = false := by decide

theorem witness_FailedRead : 1 ≤ 1 ∧ (withOutcomes run4 [.short [1, 2]]).env.outcomes.head? = some (.short [1, 2]) ∧
    (withOutcomes run4 [.fail]).env.outcomes.head? = some .fail := by decide
theorem witness_FailedWriteOldOrNew : (withOutcomes run4 [.fail]).memoriesOk = true ∧ ([1, 2] : List Byte).length ≤ 65536 ∧
    (withOutcomes run4 [.fail]).env.outcomes.head? = some .fail ∧
    (withOutcomes run4 [.short []]).env.outcomes.head? = some (.short []) := by decide
theorem witness_FailedLatchCommand : (withOutcomes run4 [.fail]).env.outcomes.head? = some .fail ∧
    (withOutcomes run4 [.short []]).env.outcomes.head? = some (.short []) := by decide

theorem witness_DriverRead : 65536 < (0xFFFF : StoreAddr).toNat + 2 ∧
    (1 ≤ 1 ∧ (0xFFFF : StoreAddr).toNat + 1 ≤ 65536 ∧ run4.frameWorks = true) ∧
    (withOutcomes run4 [.short [1]]).env.outcomes.head? = some (.short [1]) ∧
    (withOutcomes run4 [.fail]).env.outcomes.head? = some .fail := by decide
theorem witness_DriverWriteFrames :
    (let s := withOutcomes run4 [.fail, .ok, .short []]; s.powerStays = true ∧ s.driverIdle = true ∧
        (0x0100 : StoreAddr).toNat + (List.replicate 17 (1 : Byte)).length ≤ 65536 ∧ s.hostQuiet = true) ∧
    (let s := withOutcomes raced4 [.fail, .ok, .short []]; s.powerStays = true ∧ s.driverIdle = true ∧
        s.serves = true ∧ s.racesInWindow = true) := by decide
theorem witness_DriverWriteStores : 65536 < (0xFFF0 : StoreAddr).toNat + (List.replicate 17 (1 : Byte)).length ∧
    (run4.serialWorks = true ∧ run4.driverIdle = true ∧ run4.memoriesOk = true ∧
      (0xFFF0 : StoreAddr).toNat + (List.replicate 16 (1 : Byte)).length ≤ 65536 ∧ run4.hostQuiet = true) ∧
    (raced4.serialWorks = true ∧ raced4.driverIdle = true ∧ raced4.memoriesOk = true ∧ raced4.serves = true ∧
      raced4.racesInWindow = true) := by decide
theorem witness_RestoreCopiesImage : run4.armed = true ∧ cold4.armed = false ∧ cold4.cfg.wf = true ∧
    cold4.serialWorks = true ∧ cold4.hostQuiet = true ∧ cold4.driverIdle = true ∧ cold4.memoriesOk = true := by decide
theorem witness_RestoreBestEffort :
    let s := withOutcomes { cold4 with cfg := Config.t32 } [.short [7, 8], .ok]
    s.armed = false ∧ s.cfg.wf = true ∧ s.powerStays = true ∧ s.hostQuiet = true ∧ s.driverIdle = true ∧
      s.memoriesOk = true ∧ s.env.outcomes[1]? = some .ok ∧ 16 * 1 + 15 < s.cfg.len ∧
      s.env.outcomes[0]? = some (.short [7, 8]) ∧ 1 + 1 < min 16 (s.cfg.len - 16 * 0) ∧
      ([7, 8] : List Byte)[1]? = some 8 := by decide
theorem witness_BackupTickPersists : run32.cfg.wf = true ∧ run32.serialWorks = true ∧ run32.hostQuiet = true ∧
    run32.memoriesOk = true ∧ 16 = (if run32.cfg.len ≤ run32.cursor + 16 then 0 else run32.cursor + 16) ∧
    16 = min 16 (run32.cfg.len - 16) := by decide
theorem witness_CursorCoverage : run32.cfg.wf = true ∧ run32.hostQuiet = true ∧ run32.powerStays = true ∧
    run32.driverIdle = true ∧ run32.cursorOk = true ∧ 2 = (run32.cfg.len + 15) / 16 := by decide
theorem witness_FullSweepPersists : run32.cfg.wf = true ∧ run32.serialWorks = true ∧ run32.hostQuiet = true ∧
    run32.driverIdle = true ∧ run32.memoriesOk = true := by decide
theorem witness_RoundTripIdentity : run32.cfg.wf = true ∧ run32.serialWorks = true ∧ run32.hostQuiet = true ∧
    run32.memoriesOk = true := by decide
theorem witness_RacingBackupNotTorn : raced4.serves = true ∧ raced4.memoriesOk = true ∧ raced4.racesInWindow = true ∧
    raced4.powerStays = true ∧ 0 = (if raced4.cfg.len ≤ raced4.cursor + 16 then 0 else raced4.cursor + 16) ∧
    4 = min 16 (raced4.cfg.len - 0) := by decide

theorem witness_ProbeVerdict : (1000 = (probing 1000).env.probes.headD 0 ∧ 1000 ≤ (probing 1000).cfg.probeMax) ∧
    (1001 = (probing 1001).env.probes.headD 0 ∧ (probing 1001).cfg.probeMax < 1001 ∧ (probing 1001).boot ≠ .bRunning) ∧
    (let s : State := { run4 with env := { run4.env with probes := [1001] } };
      1001 = s.env.probes.headD 0 ∧ s.cfg.probeMax < 1001 ∧ s.boot = .bRunning) := by decide
theorem witness_ArmConfigures : cold4.cfg.wf = true ∧ (cold4.armed = false ∧ cold4.boot ≠ .bFault) ∧ 0x20040000 < 2 ^ cold4.cfg.localW ∧
    0x20040000 % 2 ^ (cold4.cfg.ahW + cold4.cfg.alW) = 0 ∧
    (cold4.cfg.expectedSeq, cold4.cfg.expectedMov) = cold4.env.allocs.headD (cold4.cfg.expectedSeq, cold4.cfg.expectedMov) ∧
    (∀ x, x ∈ cold4.cfg.expectedSeq ↔ x ∈ cold4.cfg.expectedSeq) ∧
    (∀ x, x ∈ cold4.cfg.expectedMov ↔ x ∈ cold4.cfg.expectedMov) :=
  ⟨by decide, by decide, by decide, by decide, by decide, fun _ => Iff.rfl, fun _ => Iff.rfl⟩
theorem witness_ArmFailureHalts : (allocating [0, 1, 2] [0, 1, 2]).armed = false ∧
    0x20040000 % 2 ^ ((allocating [0, 1, 2] [0, 1, 2]).cfg.ahW + (allocating [0, 1, 2] [0, 1, 2]).cfg.alW) = 0 ∧
    ([0, 1, 2], [0, 1, 2]) = (allocating [0, 1, 2] [0, 1, 2]).env.allocs.headD (cold4.cfg.expectedSeq, cold4.cfg.expectedMov) ∧
    ¬((∀ x, x ∈ [0, 1, 2] ↔ x ∈ (allocating [0, 1, 2] [0, 1, 2]).cfg.expectedSeq) ∧
      (∀ x, x ∈ [0, 1, 2] ↔ x ∈ (allocating [0, 1, 2] [0, 1, 2]).cfg.expectedMov)) :=
  ⟨by decide, by decide, by decide, fun h => absurd ((h.2 3).2 (by decide)) (by decide)⟩
/-- The clause of the fault state: a matching allocation there. -/
theorem witness_ArmFailureHalts_fault : off4.armed = false ∧ off4.boot = .bFault ∧
    (off4.cfg.expectedSeq, off4.cfg.expectedMov) = off4.env.allocs.headD (off4.cfg.expectedSeq, off4.cfg.expectedMov) ∧
    0x20040000 % 2 ^ (off4.cfg.ahW + off4.cfg.alW) = 0 := by decide
theorem witness_ArmRefusals : run4.armed = true ∧ cold4.armed = false ∧
    0x20040004 % 2 ^ (cold4.cfg.ahW + cold4.cfg.alW) ≠ 0 := by decide
theorem witness_RepairFixesField :
    (run4.cfg.wf = true ∧ run4.hostQuiet = true ∧ run4.memoriesOk = true ∧
      run4.shadowBytes run4.cfg.ckOffset run4.cfg.ckLen ≠ checksum run4.cfg (run4.shadowBytes 0 run4.cfg.len)) ∧
    ((run4.setCell .primary 3 0x66).memoriesOk = true ∧
      (run4.setCell .primary 3 0x66).shadowBytes run4.cfg.ckOffset run4.cfg.ckLen =
        checksum run4.cfg ((run4.setCell .primary 3 0x66).shadowBytes 0 run4.cfg.len)) := by decide
theorem witness_BootReachesRunning : (cold4.boot = .bReset ∧ cold4.armed = false ∧ cold4.cfg.wf = true ∧
    cold4.hostQuiet = true ∧ cold4.powerStays = true ∧ cold4.memoriesOk = true ∧
    cold4.env.probes.headD 0 ≤ cold4.cfg.probeMax ∧
    (cold4.cfg.expectedSeq, cold4.cfg.expectedMov) =
      cold4.env.allocs.headD (cold4.cfg.expectedSeq, cold4.cfg.expectedMov)) ∧ cold4.serialWorks = true ∧
    (probing 1000).env.probes.headD 0 ≤ (probing 1000).cfg.probeMax := by decide
/-- A platform that answers the expected identifiers in an order of its own. -/
theorem witness_BootReachesRunning_allocs :
    let s := allocating cold4.cfg.expectedSeq.reverse cold4.cfg.expectedMov.reverse
    (s.cfg.expectedSeq.reverse, s.cfg.expectedMov.reverse) = s.env.allocs.headD (s.cfg.expectedSeq, s.cfg.expectedMov) ∧
      (∀ x, x ∈ s.cfg.expectedSeq.reverse ↔ x ∈ s.cfg.expectedSeq) ∧
      (∀ x, x ∈ s.cfg.expectedMov.reverse ↔ x ∈ s.cfg.expectedMov) :=
  ⟨by decide, fun _ => List.mem_reverse, fun _ => List.mem_reverse⟩
theorem witness_BootProbeFault : (probing 1001).boot = .bReset ∧ (probing 1001).env.probes.head? = some 1001 ∧
    (probing 1001).cfg.probeMax < 1001 := by decide
theorem witness_BootArmFault : (allocating [] []).boot = .bReset ∧ (allocating [] []).armed = false ∧
    (allocating [] []).cfg.wf = true ∧ (allocating [] []).hostQuiet = true ∧ (allocating [] []).serialWorks = true ∧
    (allocating [] []).driverIdle = true ∧ (allocating [] []).memoriesOk = true ∧
    (allocating [] []).env.probes.headD 0 ≤ (allocating [] []).cfg.probeMax ∧
    (allocating [] []).env.allocs.head? = some ([], []) ∧
    ¬((∀ x, x ∈ [] ↔ x ∈ (allocating [] []).cfg.expectedSeq) ∧ (∀ x, x ∈ [] ↔ x ∈ (allocating [] []).cfg.expectedMov)) :=
  ⟨by decide, by decide, by decide, by decide, by decide, by decide, by decide, by decide, by decide,
    fun h => absurd ((h.1 0).2 (by decide)) (by decide)⟩
theorem witness_OnlyResetUndoes : (run4.withEvent .tick).powerStays = true ∧
    (run4.withEvent .tick).env.events.head? ≠ some .reset ∧ (∃ t, step (run4.withEvent .tick) = .next t) ∧
    ((run4.withEvent .tick).armed = true ∧ (run4.withEvent .tick).boot = .bRunning) ∧ (off4.fault.engineArm = true ∧ off4.boot = .bFault) ∧
    (enterFault cold4 .busActivity).fault.busActivity = true :=
  ⟨by decide, by decide, ⟨_, rfl⟩, by decide, by decide, by decide⟩
theorem witness_ExportAnswersRegion : run4.hostQuiet = true := by decide
theorem witness_ImportGuard : run4.armed = true ∧ off4.armed = false ∧ off4.cfg.len < ([1, 2, 3, 4, 5] : List Int).length ∧
    ([256, 511, -1, 7] : List Int).length ≤ off4.cfg.len ∧ off4.hostQuiet = true ∧ off4.memoriesOk = true := by decide
theorem witness_SoftwareReads : run4.boot = .bRunning ∧ 3 < windowLen run4.cfg .primary ∧
    15 < windowLen run4.cfg .secondary ∧ off4.boot ≠ .bRunning := by decide
theorem witness_MemoriesStayCanonical : run4.memoriesOk = true ∧ ∃ t, step (run4.withEvent .tick) = .next t :=
  ⟨by decide, _, rfl⟩
theorem witness_ControlStateKept : (run4.cursorOk = true ∧ run4.runningArmed = true) ∧ run4.faultOk = true ∧ run4.driverIdle = true ∧
    ∃ t, step (run4.withEvent .tick) = .next t := ⟨by decide, by decide, by decide, _, rfl⟩
theorem witness_RegisterWidthsKept : run32.widthsOk = true ∧
    ∃ t, step (run32.withEvent (.packet (.bus 0b101#3 1 15 0))) = .next t := ⟨by decide, _, rfl⟩

end Sys2Proof.Tests
end

namespace Sys2Proof.Machine

/-! ### Keeping a property: the shared operations by what they change -/

/-- The fields of the state that record what happened or what is to come, and that neither the shape of the engine nor the
memories nor the boot order depends on. -/
structure Notes where
  wel : Bool
  sr : Byte
  seqIds : List Nat
  movIds : List Nat
  nvSel : Bool
  frame : List Byte
  probeCount : Nat
  log : List LogEvent
  lines : Lines
  result : CallResult
  sampled : List Byte
  frames : List FrameRecord
  env : Env
  fresh : Nat

/-- The notes of a state. -/
def State.notes (s : State) : Notes :=
  { wel := s.wel, sr := s.sr, seqIds := s.seqIds, movIds := s.movIds, nvSel := s.nvSel, frame := s.frame,
    probeCount := s.probeCount, log := s.log, lines := s.lines, result := s.result, sampled := s.sampled,
    frames := s.frames, env := s.env, fresh := s.fresh }

/-- A state with other notes. -/
def State.note (s : State) (n : Notes) : State :=
  { s with
    wel := n.wel, sr := n.sr, seqIds := n.seqIds, movIds := n.movIds, nvSel := n.nvSel, frame := n.frame,
    probeCount := n.probeCount, log := n.log, lines := n.lines, result := n.result, sampled := n.sampled,
    frames := n.frames, env := n.env, fresh := n.fresh }

@[simp] theorem note_notes (s : State) : s.note s.notes = s := rfl

/-- A property that the agents, the stores and any change of the notes keep survives every shared operation below a call. -/
theorem Kept.of_parts {P : State → Prop} (agent : ∀ {a s t}, P s → agentStep a s = some (.ok t) → P t)
    (note : ∀ {s} (n : Notes), P s → P (s.note n)) (cell : ∀ {s} (i : Nat) (v : Byte), P s → P (s.setCell .primary i v))
    (store : ∀ {s} (a : Nat) (p : List Byte), P s → P { s with nv := nvStore s.nv a p })
    (storeMaybe : ∀ {s} (a k : Nat) (p : List Byte), P s → P { s with nv := nvStoreMaybe s.nv a k p }) : Kept P where
  agent := agent
  lines {s} l h := note { s.notes with lines := l } h
  unanswered {s} h :=
    note { s.notes with sampled := s.sampled ++ [Config.freeByte s.fresh], fresh := s.fresh + 1 } h
  env {s e} h _ := note { s.notes with env := e } h
  cell v h _ := cell _ v h
  draw {s} n h := note { s.notes with fresh := s.fresh + n } h
  log {s} e h := note { s.notes with log := s.log ++ [e] } h
  sel {s} c h := note { s.notes with nvSel := true, frame := c.tx } h
  desel {s} c rx h := note { s.notes with nvSel := false, frame := [], frames := s.frames ++ [⟨c.tx, rx⟩] } h
  devOk {s} c h := by
    cases c with
    | wren => exact note { s.notes with wel := true } h
    | wrdi => exact note { s.notes with wel := false } h
    | rdsr => exact h
    | wrsr v => exact note { s.notes with
        sr := Config.statusAfter s.fresh s.sr v, wel := s.wel && Config.freeBit (s.fresh + 1), fresh := s.fresh + 2 } h
    | read a n => exact h
    | write a p =>
      show P { s with nv := if s.wel then nvStore s.nv a.toNat p else s.nv, wel := false }
      split_ifs
      · exact note (s := { s with nv := nvStore s.nv a.toNat p }) { s.notes with wel := false } (store a.toNat p h)
      · exact note { s.notes with wel := false } h
  devFailed {s} c h := by
    cases c with
    | wren | wrdi => exact note { s.notes with wel := Config.freeBit s.fresh, fresh := s.fresh + 1 } h
    | rdsr | read a n => exact h
    | wrsr v => exact note (s := s) { s.notes with
        sr := Config.statusAfter s.fresh s.sr v, wel := Config.freeBit (s.fresh + 2), fresh := s.fresh + 3 } h
    | write a p => exact note (s := { s with nv := nvStoreMaybe s.nv a.toNat s.fresh p }) { s.notes with
        wel := Config.freeBit (s.fresh + p.length), fresh := s.fresh + p.length + 1 } (storeMaybe a.toNat s.fresh p h)

/-- A property that survives every shared operation and is blind to the notes survives every step, if the updates of the boot
sequencer, of the cursor and of RESET keep it. -/
theorem Steady.of_kept {P : State → Prop} (K : Kept P) (note : ∀ {s} (n : Notes), P s → P (s.note n))
    (boot : ∀ {s} (b : BootState), P s → P { s with boot := b })
    (start : ∀ {s}, P s → P { s with cursor := 0, boot := .bProbe })
    (raise : ∀ {s} (c : FaultCause), P s → P (enterFault s c))
    (arm : ∀ {s} (base : Nat) (pats : Nat × Nat), P s → P (armRegisters base pats s))
    (advance : ∀ {s}, P s → P { s with cursor := nextCursor s.cfg.len s.cursor })
    (pause : ∀ {s} (b : Bool), P s → P (s.setPaused b)) (reset : ∀ {s}, P s → P (hardReset s)) : Steady P where
  toKept := K
  events {s} es h := note { s.notes with env := { s.env with events := es } } h
  result {s} r h := note { s.notes with result := r } h
  boot := boot
  start := start
  probe {s} n h := note { s.notes with probeCount := n } h
  raise := raise
  ids {s} a b h := note { s.notes with seqIds := a, movIds := b } h
  arm := arm
  advance := advance
  pause := pause
  reset := reset

/-! ### The shape of the engine -/

theorem engineOk_iff (s : State) :
    s.engineOk = true ↔ s.engineShape = true ∧ (s.patternsOk = true → s.linesOk = true) := by
  simp only [State.engineOk, Bool.and_eq_true, Bool.or_eq_true, Bool.not_eq_true', and_congr_right_iff]
  intro _
  cases s.patternsOk <;> simp

theorem linesOk_of_inward {s : State} (h : s.ddir = .inward) : s.linesOk = true := by simp [State.linesOk, h]

/-- Where the lines are outward a read cycle is in its drive window. -/
theorem driving_of_outward {s : State} (hl : s.linesOk = true) (ho : s.ddir ≠ .inward) :
    ∃ k, s.cls = .busy k ∧ s.done = none ∧ (s.chan k.channel).rr = .driving := by
  cases hc : s.cls with
  | busy k => exact ⟨k, rfl, by simpa [State.linesOk, hc, ho] using hl⟩
  | _ => simp [State.linesOk, hc, ho] at hl

/-- A responder away from its first position serves a read. -/
theorem dir_rd_of_rr {ch : Chan} {d : Dir} (h : ch.inFlight d = true) (hr : ch.rr ≠ .wait) : d = .rd := by
  cases d with
  | rd => rfl
  | wr => exact absurd ((inFlight_wr_iff ch).1 h).1.2.2.2.2 hr

/-- At most one channel is away from rest, and it holds one cycle. -/
theorem channels_of_shape {s : State} (h : s.engineShape = true) :
    ∃ c, (s.chan (otherChannel c)).resting = true ∧ ((s.chan c).resting = true ∨ ∃ d, (s.chan c).inFlight d = true) := by
  cases hc : s.cls with
  | busy k =>
    refine ⟨k.channel, ?_⟩
    simp only [State.engineShape, hc, Bool.and_eq_true] at h
    cases hd : s.done with
    | none => exact ⟨h.1, .inr ⟨k.dir, by simpa [hd] using h.2⟩⟩
    | some u => exact ⟨h.1, .inl (by simpa [hd] using h.2)⟩
  | _ =>
    simp only [State.engineShape, hc, Bool.and_eq_true] at h
    exact ⟨.primary, h.1.2, .inl h.1.1⟩

/-! ### Exclusivity (R118), a channel at a time -/

/-- A channel's trigger queues that are full. -/
def Chan.trigMarks (ch : Chan) : List Bool := [ch.trigRd.isSome, ch.trigWr.isSome]

/-- A channel's chains away from their first ring position. -/
def Chan.ringMarks (ch : Chan) : List Bool := [decide (ch.rdRing ≠ .addr), decide (ch.wrRing ≠ .addr)]

/-- A channel's responder and capturer, where active. -/
def Chan.activeMarks (ch : Chan) : List Bool := [decide (ch.rr ≠ .wait), decide (ch.wrRing = .datain)]

/-- Two channels together have at most one mark of each kind. -/
def Chan.exclusiveWith (x y : Chan) : Prop :=
  countMarks (x.trigMarks ++ y.trigMarks) ≤ 1 ∧ countMarks (x.ringMarks ++ y.ringMarks) ≤ 1 ∧
    countMarks (x.activeMarks ++ y.activeMarks) ≤ 1

theorem exclusive_iff (s : State) : s.exclusive = true ↔ s.chP.exclusiveWith s.chS := by
  simp [State.exclusive, Chan.exclusiveWith, Chan.trigMarks, Chan.ringMarks, Chan.activeMarks, and_assoc]

theorem exclusiveWith_comm (x y : Chan) : x.exclusiveWith y ↔ y.exclusiveWith x := by
  simp only [Chan.exclusiveWith, countMarks, List.countP_append, Nat.add_comm]

theorem resting_marks {ch : Chan} (h : ch.resting = true) :
    countMarks ch.trigMarks = 0 ∧ countMarks ch.ringMarks = 0 ∧ countMarks ch.activeMarks = 0 := by
  rw [resting_iff] at h
  simp [countMarks, Chan.trigMarks, Chan.ringMarks, Chan.activeMarks, h]

theorem inFlight_marks {ch : Chan} {d : Dir} (h : ch.inFlight d = true) :
    countMarks ch.trigMarks ≤ 1 ∧ countMarks ch.ringMarks ≤ 1 ∧ countMarks ch.activeMarks ≤ 1 := by
  simp only [countMarks, Chan.trigMarks, Chan.ringMarks, Chan.activeMarks, List.countP_cons, List.countP_nil]
  cases d with
  | rd =>
    obtain ⟨⟨htrig, -, hring, -⟩, -⟩ := (inFlight_rd_iff ch).1 h
    simp only [htrig, hring]
    refine ⟨?_, ?_, ?_⟩ <;> simp <;> split_ifs <;> simp
  | wr =>
    obtain ⟨⟨htrig, -, hring, -, hrr⟩, -⟩ := (inFlight_wr_iff ch).1 h
    simp only [htrig, hring, hrr]
    refine ⟨?_, ?_, ?_⟩ <;> simp <;> split_ifs <;> simp

/-- The shape of the engine gives exclusivity: the other channel rests, and one cycle marks each kind at most once. -/
theorem exclusive_of_shape {s : State} (h : s.engineShape = true) : s.exclusive = true := by
  obtain ⟨c, ho, hc⟩ := channels_of_shape h
  have hone : countMarks (s.chan c).trigMarks ≤ 1 ∧ countMarks (s.chan c).ringMarks ≤ 1 ∧
      countMarks (s.chan c).activeMarks ≤ 1 := by
    rcases hc with hr | ⟨d, hf⟩
    · have := resting_marks hr
      omega
    · exact inFlight_marks hf
  have hpair : (s.chan c).exclusiveWith (s.chan (otherChannel c)) := by
    have := resting_marks ho
    simp only [countMarks] at this hone
    simp only [Chan.exclusiveWith, countMarks, List.countP_append]
    omega
  rw [exclusive_iff]
  cases c with
  | primary => exact hpair
  | secondary => exact (exclusiveWith_comm _ _).1 hpair

/-- Outside a read cycle the lines are inputs (R294). -/
theorem inward_of_not_read {s : State} (h : s.engineShape = true) (hl : s.linesOk = true) (hp : s.cls ≠ .busy .prd)
    (hs : s.cls ≠ .busy .srd) : s.ddir = .inward := by
  by_contra ho
  obtain ⟨k, hc, hd, hr⟩ := driving_of_outward hl ho
  have hk : k.dir = .rd := dir_rd_of_rr ((engineShape_busy_iff hc hd).1 h).2 (by simp [hr])
  cases k with
  | prd => exact hp hc
  | srd => exact hs hc
  | pwr => cases hk
  | swr => cases hk

/-! ### Every step keeps the shape -/

theorem armRegisters_shape (base : Nat) (pats : Nat × Nat) (s : State) : (armRegisters base pats s).engineShape = true := rfl

theorem hardReset_shape (s : State) : (hardReset s).engineShape = true := rfl

theorem steady_engineShape : Steady (fun s => s.engineShape = true) :=
  Steady.of_kept
    (Kept.of_parts agentStep_shape (fun _ h => h) (fun _ _ h => h) (fun _ _ h => h) (fun _ _ _ h => h))
    (note := fun _ h => h) (boot := fun _ h => h) (start := fun h => h) (raise := fun _ h => h)
    (arm := fun base pats _ => armRegisters_shape base pats _) (advance := fun h => h) (pause := fun _ h => h)
    (reset := fun _ => hardReset_shape _)

theorem engineOk_of_inward {s : State} (h : s.engineShape = true) (hd : s.ddir = .inward) : s.engineOk = true :=
  (engineOk_iff s).2 ⟨h, fun _ => linesOk_of_inward hd⟩

theorem steady_engineOk : Steady (fun s => s.engineOk = true) :=
  Steady.of_kept
    (Kept.of_parts agentStep_ok (fun _ h => h) (fun _ _ h => h) (fun _ _ h => h) (fun _ _ _ h => h))
    (note := fun _ h => h) (boot := fun _ h => h) (start := fun h => h)
    (raise := fun {s} c h =>
      engineOk_of_inward (steady_engineShape.raise c ((engineOk_iff s).1 h).1) (enterFault_ddir s c))
    (arm := fun base pats _ => engineOk_of_inward (armRegisters_shape base pats _) rfl)
    (advance := fun h => h) (pause := fun _ h => h)
    (reset := fun _ => engineOk_of_inward (hardReset_shape _) rfl)

/-- Settles O21: the shape is an invariant, and it gives exclusivity and the direction of the lines. -/
theorem exclusivityKept : Obligations.ExclusivityKept := by
  unfold Obligations.ExclusivityKept
  intro s t ht
  refine ⟨fun h => ?_, fun h => ?_⟩
  · have hshape := step_keeps steady_engineShape h ht
    exact ⟨hshape, exclusive_of_shape hshape⟩
  · have hok := step_keeps steady_engineOk h ht
    obtain ⟨hshape, hlines⟩ := (engineOk_iff t).1 hok
    exact ⟨hok, fun hpat => inward_of_not_read hshape (hlines hpat)⟩

end Sys2Proof.Machine

namespace Sys2Proof.Machine

/-! ### What a micro-step of the engine does -/

/-- The micro-steps of the engine, one constructor per rule, each with its guard and its next state. -/
inductive Move (s : State) : Agent → State → Prop where
  /-- R111. -/
  | see : s.cls = .idle → s.lines.strobe = true → Move s .cls { s with cls := .settle }
  /-- R112. -/
  | drop : s.cls = .settle → s.lines.strobe = false → Move s .cls { s with cls := .idle }
  /-- R113, R114 for a read class. -/
  | dispatchRd (k : CycleClass) : s.cls = .settle → s.lines.strobe = true →
      k = classify s.lines.chsel s.lines.dir → k.dir = .rd → (s.chan k.channel).trigRd = none →
      Move s .cls { s.setChan k.channel { s.chan k.channel with trigRd := some () } with cls := .busy k }
  /-- R113, R114 for a write class. -/
  | dispatchWr (k : CycleClass) : s.cls = .settle → s.lines.strobe = true →
      k = classify s.lines.chsel s.lines.dir → k.dir = .wr → (s.chan k.channel).trigWr = none →
      Move s .cls { s.setChan k.channel { s.chan k.channel with trigWr := some () } with cls := .busy k }
  /-- R115. -/
  | complete (k : CycleClass) : s.cls = .busy k → s.done = some () → Move s .cls { s with done := none, cls := .release }
  /-- R116. -/
  | release : s.cls = .release → s.lines.strobe = false → Move s .cls { s with cls := .idle }
  /-- R131 for a read. -/
  | takeRd (c : Channel) : (s.chan c).acu = .wait → (s.chan c).trigRd = some () →
      Move s (.acu c) (s.setChan c { s.chan c with trigRd := none, akind := .rd, acu := .high })
  /-- R131 for a write. -/
  | takeWr (c : Channel) : (s.chan c).acu = .wait → (s.chan c).trigRd = none → (s.chan c).trigWr = some () →
      Move s (.acu c) (s.setChan c { s.chan c with trigWr := none, akind := .wr, acu := .high })
  /-- R132. -/
  | high (c : Channel) : (s.chan c).acu = .high → Move s (.acu c)
      (s.setChan c { s.chan c with ahi := lowBits (ahWidth s.cfg c) s.lines.amuxFirst, acu := .low })
  /-- R133. -/
  | low (c : Channel) : (s.chan c).acu = .low →
      windowAddr s.cfg c (s.chan c).ahi (lowBits (alWidth s.cfg c) s.lines.amuxSecond) < windowLen s.cfg c → Move s (.acu c)
      (s.setChan c { s.chan c with alo := lowBits (alWidth s.cfg c) s.lines.amuxSecond, acu := .emit })
  /-- R134 for a read. -/
  | emitRd (c : Channel) (la : Nat) : (s.chan c).acu = .emit → (s.chan c).akind = .rd → (s.chan c).idxRd = none →
      la = localAddr s.cfg (s.chan c).baseReg (windowAddr s.cfg c (s.chan c).ahi (s.chan c).alo) →
      Move s (.acu c) (s.setChan c { s.chan c with idxRd := some la, acu := .wait })
  /-- R134 for a write. -/
  | emitWr (c : Channel) (la : Nat) : (s.chan c).acu = .emit → (s.chan c).akind = .wr → (s.chan c).idxWr = none →
      la = localAddr s.cfg (s.chan c).baseReg (windowAddr s.cfg c (s.chan c).ahi (s.chan c).alo) →
      Move s (.acu c) (s.setChan c { s.chan c with idxWr := some la, acu := .wait })
  /-- R175. -/
  | rdAddr (c : Channel) (la : Nat) : (s.chan c).rdRing = .addr → (s.chan c).idxRd = some la →
      Move s (.rdChain c) (s.setChan c { s.chan c with laRd := la, idxRd := none, rdRing := .lookup })
  /-- R176. -/
  | rdLookup (c : Channel) : (s.chan c).rdRing = .lookup → localMapped s.cfg (s.chan c).laRd = true →
      Move s (.rdChain c)
        (s.setChan c { s.chan c with rdata := Memory.read s.ram (s.chan c).laRd, rdRing := .dataout })
  /-- R177. -/
  | rdDataout (c : Channel) : (s.chan c).rdRing = .dataout → (s.chan c).doutQ = none →
      Move s (.rdChain c) (s.setChan c { s.chan c with doutQ := some (s.chan c).rdata, rdRing := .addr })
  /-- R142. -/
  | rrTake (c : Channel) (b : Byte) : (s.chan c).rr = .wait → (s.chan c).doutQ = some b →
      Move s (.rr c) ({ s with dout := b }.setChan c { s.chan c with doutQ := none, rr := .taken })
  /-- R143. -/
  | rrOpen (c : Channel) : (s.chan c).rr = .taken →
      Move s (.rr c) ((s.applyPattern s.dirpat.1).setChan c { s.chan c with rr := .driving })
  /-- R144. -/
  | rrClose (c : Channel) : (s.chan c).rr = .driving → s.done = none →
      Move s (.rr c)
        (({ (hostSample s).applyPattern s.dirpat.2 with done := some () }).setChan c { s.chan c with rr := .wait })
  /-- R152. -/
  | sample (c : Channel) : (s.chan c).wrRing = .datain → (s.chan c).dinQ = none → s.lines.dataValid = true →
      Move s (.wc c) ({ s with fresh := if s.ddir = DataDir.inward then s.fresh else s.fresh + 1 }.setChan c
        { s.chan c with din := dataIn s, dinQ := some (dataIn s) })
  /-- R178. -/
  | wrAddr (c : Channel) (la : Nat) : (s.chan c).wrRing = .addr → (s.chan c).idxWr = some la →
      Move s (.wrChain c) (s.setChan c { s.chan c with laWr := la, idxWr := none, wrRing := .datain })
  /-- R179. -/
  | wrDatain (c : Channel) (b : Byte) : (s.chan c).wrRing = .datain → (s.chan c).dinQ = some b →
      Move s (.wrChain c) (s.setChan c { s.chan c with wdata := b, dinQ := none, wrRing := .store })
  /-- R180, R154. -/
  | wrStore (c : Channel) : (s.chan c).wrRing = .store → s.done = none →
      localMapped s.cfg (s.chan c).laWr = true →
      Move s (.wrChain c)
        (({ s with
          ram := Memory.write s.ram (s.chan c).laWr (s.chan c).wdata, wac := (countWrite c (s.chan c).laWr s).wac
          done := some () }).setChan c { s.chan c with wrRing := .addr })

/-- The activity counter of a store is all that `countWrite` touches. -/
theorem countWrite_ram (c : Channel) (la : Nat) (s : State) (m : List Host.Cell) :
    countWrite c la { s with ram := m } = { s with ram := m, wac := (countWrite c la s).wac } := by
  cases c with
  | primary => simp only [countWrite]; split_ifs <;> rfl
  | secondary => rfl

theorem localAddr_lt (g : Config) (base addr : Nat) : localAddr g base addr < 2 ^ g.localW :=
  Nat.mod_lt _ (by positivity)

theorem move_of_cls {s t : State} (h : clsStep s = some (.ok t)) : Move s .cls t := by
  simp only [clsStep] at h
  split at h
  · next hc =>
    split_ifs at h with hl
    cases h
    exact .see hc hl
  · next hc =>
    split_ifs at h with hl
    · simp only [clsDispatch, pushTrig, Option.some.injEq] at h
      obtain ⟨u, hu, rfl⟩ := map_eq_ok.1 h
      split at hu
      · next hd =>
        obtain ⟨q, hq, rfl⟩ := map_eq_ok.1 hu
        obtain ⟨hn, rfl⟩ := push_eq_ok.1 hq
        exact .dispatchRd _ hc hl rfl hd hn
      · next hd =>
        obtain ⟨q, hq, rfl⟩ := map_eq_ok.1 hu
        obtain ⟨hn, rfl⟩ := push_eq_ok.1 hq
        exact .dispatchWr _ hc hl rfl hd hn
    · cases h
      exact .drop hc (by simpa using hl)
  · next k hc =>
    split at h
    · cases h
    · next u hd =>
      obtain ⟨r, hr, rfl⟩ := map_eq_ok.1 (Option.some.inj h)
      obtain ⟨-, hn⟩ := pop_eq_ok.1 hr
      rw [hn]
      exact .complete k hc hd
  · next hc =>
    split_ifs at h with hl
    cases h
    exact .release hc (by simpa using hl)

theorem move_of_acu {c : Channel} {s t : State} (h : acuStep c s = some (.ok t)) : Move s (.acu c) t := by
  simp only [acuStep] at h
  split at h
  · next ha =>
    split at h
    · next ht => cases h; exact .takeRd c ha ht
    · next hn ht => cases h; exact .takeWr c ha hn ht
    · cases h
  · next ha => cases h; exact .high c ha
  · next ha =>
    obtain ⟨hw, rfl⟩ := acuLow_eq_ok.1 (Option.some.inj h)
    exact .low c ha hw
  · next ha =>
    simp only [acuEmit, Option.some.injEq] at h
    split at h
    · next hk =>
      obtain ⟨q, hq, rfl⟩ := map_eq_ok.1 h
      obtain ⟨hn, rfl⟩ := push_eq_ok.1 hq
      exact .emitRd c _ ha hk hn rfl
    · next hk =>
      obtain ⟨q, hq, rfl⟩ := map_eq_ok.1 h
      obtain ⟨hn, rfl⟩ := push_eq_ok.1 hq
      exact .emitWr c _ ha hk hn rfl

theorem move_of_rdChain {c : Channel} {s t : State} (h : rdChainStep c s = some (.ok t)) : Move s (.rdChain c) t := by
  simp only [rdChainStep] at h
  split at h
  · next hr =>
    split at h <;> cases h
    next hi => exact .rdAddr c _ hr hi
  · next hr =>
    obtain ⟨b, hb, rfl⟩ := map_eq_ok.1 (Option.some.inj h)
    obtain ⟨hm, rfl⟩ := memRead_eq_ok.1 hb
    exact .rdLookup c hr hm
  · next hr =>
    split at h <;> cases h
    next hq => exact .rdDataout c hr hq

theorem move_of_rr {c : Channel} {s t : State} (h : rrStep c s = some (.ok t)) : Move s (.rr c) t := by
  simp only [rrStep] at h
  split at h
  · next hr =>
    split at h <;> cases h
    next hq => exact .rrTake c _ hr hq
  · next hr => cases h; exact .rrOpen c hr
  · next hr =>
    obtain ⟨q, hq, rfl⟩ := map_eq_ok.1 (Option.some.inj h)
    obtain ⟨hd, rfl⟩ := push_eq_ok.1 hq
    exact .rrClose c hr hd

theorem move_of_wc {c : Channel} {s t : State} (h : wcStep c s = some (.ok t)) : Move s (.wc c) t := by
  simp only [wcStep] at h
  split at h
  · next hg =>
    obtain ⟨q, hq, rfl⟩ := map_eq_ok.1 (Option.some.inj h)
    obtain ⟨hn, rfl⟩ := push_eq_ok.1 hq
    exact .sample c hg.1 hn hg.2.2
  · cases h

theorem move_of_wrChain {c : Channel} {s t : State} (h : wrChainStep c s = some (.ok t)) : Move s (.wrChain c) t := by
  simp only [wrChainStep] at h
  split at h
  · next hr =>
    split at h <;> cases h
    next hi => exact .wrAddr c _ hr hi
  · next hr =>
    split at h <;> cases h
    next hi => exact .wrDatain c _ hr hi
  · next hr =>
    split at h
    · cases h
    · next hd =>
      obtain ⟨hm, -, rfl⟩ := wrStore_eq_ok.1 (Option.some.inj h)
      rw [countWrite_ram]
      exact .wrStore c hr hd hm

/-- Whatever agent takes a step, it is one of the moves, and the engine runs. -/
theorem move_of_agentStep {a : Agent} {s t : State} (h : agentStep a s = some (.ok t)) :
    s.engineRuns = true ∧ Move s a t := by
  have hr := engineRuns_of_agentStep h
  refine ⟨hr, ?_⟩
  rw [agentStep, if_pos hr] at h
  cases a with
  | cls => exact move_of_cls h
  | acu c => exact move_of_acu h
  | rr c => exact move_of_rr h
  | wc c => exact move_of_wc h
  | rdChain c => exact move_of_rdChain h
  | wrChain c => exact move_of_wrChain h
  | bootSeq => cases h

/-! ### What a micro-step leaves alone -/

theorem sameSoftwareDomain_refl (s : State) : sameSoftwareDomain s s := by simp [sameSoftwareDomain]

/-- A channel's registers other than `BASEREG` are the engine's own. -/
theorem sameSoftwareDomain_setChan {s u : State} {c : Channel} {ch : Chan} (h : sameSoftwareDomain s u)
    (hb : ch.baseReg = (s.chan c).baseReg) : sameSoftwareDomain s (u.setChan c ch) := by
  simp only [sameSoftwareDomain] at h
  cases c <;> simp only [chan_primary, chan_secondary] at hb <;> simp [sameSoftwareDomain, h, hb]

/-- A micro-step of the engine touches nothing of the software domain (R264). -/
theorem Move.software {a : Agent} {s t : State} (h : Move s a t) : sameSoftwareDomain s t := by
  have hs := sameSoftwareDomain_refl s
  cases h with
  | see | drop | complete | release => exact hs
  | dispatchRd k | dispatchWr k => exact sameSoftwareDomain_setChan hs rfl
  | rrClose c => exact sameSoftwareDomain_setChan (by simp [sameSoftwareDomain]) rfl
  | _ => exact sameSoftwareDomain_setChan hs rfl

/-! ### Memories -/

theorem sparseWrite_mem {α : Type} [DecidableEq α] {d v : α} {a : Nat} {m : List (Nat × α)} {x : Nat × α}
    (h : x ∈ sparseWrite d m a v) : x ∈ m ∨ x.1 = a := by
  induction m with
  | nil =>
    simp only [sparseWrite] at h
    split_ifs at h
    · cases h
    · exact .inr (by simp_all)
  | cons y r ih =>
    obtain ⟨b, w⟩ := y
    simp only [sparseWrite] at h
    split_ifs at h
    · exact .inl h
    · rcases List.mem_cons.1 h with rfl | h
      · exact .inr rfl
      · exact .inl h
    · exact .inl (List.mem_cons_of_mem _ h)
    · rcases List.mem_cons.1 h with rfl | h
      · exact .inr rfl
      · exact .inl (List.mem_cons_of_mem _ h)
    · rcases List.mem_cons.1 h with rfl | h
      · exact .inl List.mem_cons_self
      · exact (ih h).imp_left (List.mem_cons_of_mem _)

/-- Every address a store lists has 16 bits. -/
def addrsFit (m : List Host.Cell) : Prop := ∀ x ∈ m, x.1 < 65536

theorem addrsFit_write {m : List Host.Cell} (h : addrsFit m) (a : Nat) (v : Byte) :
    addrsFit (Memory.write m (a % 65536) v) := fun x hx => by
  rcases sparseWrite_mem hx with hm | ha
  · exact h x hm
  · omega

theorem addrsFit_nvStore (p : List Byte) {m : List Host.Cell} (h : addrsFit m) (a : Nat) : addrsFit (nvStore m a p) := by
  induction p generalizing m a with
  | nil => exact h
  | cons b bs ih => exact ih (addrsFit_write h a b) (a + 1)

theorem addrsFit_nvStoreMaybe (p : List Byte) {m : List Host.Cell} (h : addrsFit m) (a k : Nat) :
    addrsFit (nvStoreMaybe m a k p) := by
  induction p generalizing m a k with
  | nil => exact h
  | cons b bs ih => exact ih (addrsFit_write h a _) (a + 1) (k + 1)

theorem memoriesOk_iff (s : State) : s.memoriesOk = true ↔
    Memory.wf s.ram = true ∧ Memory.wf s.nv = true ∧ sparseWf 0 0 s.wac = true ∧ addrsFit s.nv := by
  simp [State.memoriesOk, addrsFit, and_assoc]

theorem countWrite_wac_wf (c : Channel) (la : Nat) {s : State} (h : sparseWf 0 0 s.wac = true) :
    sparseWf 0 0 (countWrite c la s).wac = true := by
  cases c with
  | secondary => exact h
  | primary =>
    simp only [countWrite]
    split_ifs
    · exact sparseWrite_wf h (Nat.zero_le _)
    · exact h

/-- Only STORE touches local RAM and the counters. -/
theorem Move.memories {a : Agent} {s t : State} (h : Move s a t) : (t.ram = s.ram ∧ t.wac = s.wac) ∨
    ∃ c, t.ram = Memory.write s.ram (s.chan c).laWr (s.chan c).wdata ∧ t.wac = (countWrite c (s.chan c).laWr s).wac := by
  cases h with
  | wrStore c => exact .inr ⟨c, by simp⟩
  | _ => exact .inl (by simp)

theorem agentStep_memoriesOk {a : Agent} {s t : State} (h : s.memoriesOk = true) (hs : agentStep a s = some (.ok t)) :
    t.memoriesOk = true := by
  obtain ⟨-, hm⟩ := move_of_agentStep hs
  obtain ⟨-, hnv, -⟩ := hm.software
  obtain ⟨hram, hnvwf, hwac, hfit⟩ := (memoriesOk_iff s).1 h
  rw [memoriesOk_iff, hnv]
  rcases hm.memories with ⟨hr, hw⟩ | ⟨c, hr, hw⟩ <;> rw [hr, hw]
  · exact ⟨hram, hnvwf, hwac, hfit⟩
  · exact ⟨memory_write_wf hram _ _, hnvwf, countWrite_wac_wf c _ hwac, hfit⟩

theorem ramAfterReset_wf (g : Config) (k : Nat) : Memory.wf (ramAfterReset g k) = true :=
  memory_writeList_wf _ (memory_writeList_wf _ memory_wf_nil _) _

theorem hardReset_memoriesOk {s : State} (h : s.memoriesOk = true) : (hardReset s).memoriesOk = true := by
  obtain ⟨-, hnv, -, hfit⟩ := (memoriesOk_iff s).1 h
  exact (memoriesOk_iff _).2 ⟨ramAfterReset_wf _ _, hnv, rfl, hfit⟩

theorem setCell_memoriesOk {s : State} (c : Channel) (i : Nat) (v : Byte) (h : s.memoriesOk = true) :
    (s.setCell c i v).memoriesOk = true := by
  obtain ⟨hram, hrest⟩ := (memoriesOk_iff s).1 h
  exact (memoriesOk_iff _).2 ⟨memory_write_wf hram _ v, hrest⟩

theorem memoriesOk_of_nv {s : State} {m : List Host.Cell} (h : s.memoriesOk = true) (hm : Memory.wf m = true)
    (hf : addrsFit m) : ({ s with nv := m } : State).memoriesOk = true := by
  obtain ⟨hram, -, hwac, -⟩ := (memoriesOk_iff s).1 h
  exact (memoriesOk_iff _).2 ⟨hram, hm, hwac, hf⟩

theorem kept_memoriesOk : Kept (fun s => s.memoriesOk = true) :=
  Kept.of_parts agentStep_memoriesOk (note := fun _ h => h) (cell := fun i v h => setCell_memoriesOk _ i v h)
    (store := fun a p h => by
      obtain ⟨-, hnv, -, hfit⟩ := (memoriesOk_iff _).1 h
      exact memoriesOk_of_nv h (nvStore_wf p hnv a) (addrsFit_nvStore p hfit a))
    (storeMaybe := fun a k p h => by
      obtain ⟨-, hnv, -, hfit⟩ := (memoriesOk_iff _).1 h
      exact memoriesOk_of_nv h (nvStoreMaybe_wf p hnv a k) (addrsFit_nvStoreMaybe p hfit a k))

theorem steady_memoriesOk : Steady (fun s => s.memoriesOk = true) :=
  Steady.of_kept kept_memoriesOk (note := fun _ h => h) (boot := fun _ h => h) (start := fun h => h)
    (raise := fun _ h => h) (arm := fun _ _ h => h) (advance := fun h => h) (pause := fun _ h => h)
    (reset := hardReset_memoriesOk)

/-- Settles O57: every store of the block goes through a canonical write, and a frame's address wraps at 65536. -/
theorem memoriesStayCanonical : Obligations.MemoriesStayCanonical := by
  unfold Obligations.MemoriesStayCanonical
  intro s t h ht
  exact step_keeps steady_memoriesOk h ht

/-! ### Register widths -/

theorem chan_widthsOk_iff (g : Config) (c : Channel) (ch : Chan) : ch.widthsOk g c = true ↔
    (ch.baseReg < 2 ^ g.localW ∧ ch.ahi < 2 ^ ahWidth g c ∧ ch.alo < 2 ^ alWidth g c) ∧
    (ch.laRd < 2 ^ g.localW ∧ ch.laWr < 2 ^ g.localW) ∧
    (∀ la, ch.idxRd = some la → la < 2 ^ g.localW) ∧ (∀ la, ch.idxWr = some la → la < 2 ^ g.localW) := by
  cases hr : ch.idxRd <;> cases hw : ch.idxWr <;> simp [Chan.widthsOk, hr, hw, and_assoc]

theorem lowBits_lt (w v : Nat) : lowBits w v < 2 ^ w := Nat.mod_lt _ (by positivity)

theorem widthsOk_iff (s : State) : s.widthsOk = true ↔
    (∀ c, (s.chan c).widthsOk s.cfg c = true) ∧ s.fabBase < 2 ^ s.cfg.localW := by
  simp only [State.widthsOk, Bool.and_eq_true, decide_eq_true_eq, and_congr_left_iff]
  exact fun _ => ⟨fun ⟨hp, hs⟩ c => by cases c <;> assumption, fun h => ⟨h .primary, h .secondary⟩⟩

theorem widthsOk_setChan {s : State} {c : Channel} {ch : Chan} (h : s.widthsOk = true)
    (hc : ch.widthsOk s.cfg c = true) : (s.setChan c ch).widthsOk = true := by
  obtain ⟨hall, hfab⟩ := (widthsOk_iff s).1 h
  have hP := hall .primary
  have hS := hall .secondary
  cases c <;> simp_all [State.widthsOk]

/-- What a micro-step writes into a register fits it; it hands on what fits the same width. -/
theorem Move.widths {a : Agent} {s t : State} (h : Move s a t) (hs : s.widthsOk = true) : t.widthsOk = true := by
  obtain ⟨hall, -⟩ := (widthsOk_iff s).1 hs
  have hch := fun c => (chan_widthsOk_iff s.cfg c (s.chan c)).1 (hall c)
  cases h with
  | see | drop | complete | release => exact hs
  | dispatchRd k | dispatchWr k => exact widthsOk_setChan hs (hall _)
  | takeRd c | takeWr c | rdLookup c | rdDataout c | wrDatain c => exact widthsOk_setChan hs (hall c)
  | rrTake c b => exact widthsOk_setChan (s := { s with dout := b }) hs (hall c)
  | rrOpen c => exact widthsOk_setChan (s := s.applyPattern s.dirpat.1) hs (hall c)
  | rrClose c => exact
    widthsOk_setChan (by simpa [State.widthsOk] using hs) (by simp only [applyPattern_cfg, hostSample_cfg]; exact hall c)
  | sample c => exact widthsOk_setChan (s := { s with fresh := _ }) hs (hall c)
  | wrStore c => exact widthsOk_setChan (s := { s with ram := _, wac := _, done := some () }) hs (hall c)
  | high c =>
    obtain ⟨⟨hb, -, hl⟩, hrest⟩ := hch c
    exact widthsOk_setChan hs ((chan_widthsOk_iff _ _ _).2 ⟨⟨hb, lowBits_lt _ _, hl⟩, hrest⟩)
  | low c =>
    obtain ⟨⟨hb, ha, -⟩, hrest⟩ := hch c
    exact widthsOk_setChan hs ((chan_widthsOk_iff _ _ _).2 ⟨⟨hb, ha, lowBits_lt _ _⟩, hrest⟩)
  | emitRd c la _ _ _ hla =>
    obtain ⟨hregs, hlas, -, hiw⟩ := hch c
    refine widthsOk_setChan hs ((chan_widthsOk_iff _ _ _).2 ⟨hregs, hlas, fun x hx => ?_, hiw⟩)
    rw [← Option.some.inj hx, hla]
    exact localAddr_lt _ _ _
  | emitWr c la _ _ _ hla =>
    obtain ⟨hregs, hlas, hir, -⟩ := hch c
    refine widthsOk_setChan hs ((chan_widthsOk_iff _ _ _).2 ⟨hregs, hlas, hir, fun x hx => ?_⟩)
    rw [← Option.some.inj hx, hla]
    exact localAddr_lt _ _ _
  | rdAddr c la _ hi =>
    obtain ⟨hregs, ⟨-, hw⟩, hir, hiw⟩ := hch c
    exact widthsOk_setChan hs ((chan_widthsOk_iff _ _ _).2 ⟨hregs, ⟨hir la hi, hw⟩, by simp, hiw⟩)
  | wrAddr c la _ hi =>
    obtain ⟨hregs, ⟨hr, -⟩, hir, hiw⟩ := hch c
    exact widthsOk_setChan hs ((chan_widthsOk_iff _ _ _).2 ⟨hregs, ⟨hr, hiw la hi⟩, hir, by simp⟩)

theorem agentStep_widthsOk {a : Agent} {s t : State} (h : s.widthsOk = true) (hs : agentStep a s = some (.ok t)) :
    t.widthsOk = true := (move_of_agentStep hs).2.widths h

theorem armRegisters_widthsOk (base : Nat) (pats : Nat × Nat) {s : State} (h : s.widthsOk = true) :
    (armRegisters base pats s).widthsOk = true := by
  obtain ⟨hall, -⟩ := (widthsOk_iff s).1 h
  refine (widthsOk_iff _).2 ⟨fun c => ?_, lowBits_lt _ _⟩
  obtain ⟨⟨-, ha, hl⟩, hlas, -⟩ := (chan_widthsOk_iff s.cfg c (s.chan c)).1 (hall c)
  cases c <;>
    exact (chan_widthsOk_iff _ _ _).2 ⟨⟨lowBits_lt _ _, ha, hl⟩, hlas, nofun, nofun⟩

theorem chan_afterReset_widthsOk (g : Config) (c : Channel) (k : Nat) : (Chan.afterReset g c k).widthsOk g c = true :=
  (chan_widthsOk_iff _ _ _).2
    ⟨⟨lowBits_lt _ _, lowBits_lt _ _, lowBits_lt _ _⟩, ⟨lowBits_lt _ _, lowBits_lt _ _⟩, by simp [Chan.afterReset, Chan.reset]⟩

theorem hardReset_widthsOk (s : State) : (hardReset s).widthsOk = true :=
  (widthsOk_iff _).2
    ⟨fun c => by cases c <;> exact chan_afterReset_widthsOk s.cfg _ _, lowBits_lt _ _⟩

theorem steady_widthsOk : Steady (fun s => s.widthsOk = true) :=
  Steady.of_kept
    (Kept.of_parts agentStep_widthsOk (fun _ h => h) (fun _ _ h => h) (fun _ _ h => h) (fun _ _ _ h => h))
    (note := fun _ h => h) (boot := fun _ h => h) (start := fun h => h) (raise := fun _ h => h)
    (arm := fun base pats h => armRegisters_widthsOk base pats h) (advance := fun h => h) (pause := fun _ h => h)
    (reset := fun _ => hardReset_widthsOk _)

/-- Settles O59: a register is written with a value cut to its width, or with one that fitted the same width. -/
theorem registerWidthsKept : Obligations.RegisterWidthsKept := by
  unfold Obligations.RegisterWidthsKept
  intro s t h ht
  exact step_keeps steady_widthsOk h ht

/-! ### The faults a micro-step can raise -/

/-- The model faults that are no misuse of a queue: R135's and the model's own for an address outside both windows. -/
def Fault.ofAddress : Fault → Prop
  | .indexOutOfRange _ _ | .localUnmapped _ => True
  | .queueOverflow _ | .queueUnderflow _ | .regionIndex _ _ => False

theorem map_eq_error {ε α β : Type} {e : Except ε α} {g : α → β} {x : ε} : e.map g = .error x ↔ e = .error x := by
  cases e <;> simp [Except.map]

theorem push_empty {α : Type} (q : QueueName) (v : α) : push q none v = .ok (some v) := rfl

theorem memRead_error {s : State} {la : Nat} {f : Fault} (h : memRead s la = .error f) : f.ofAddress := by
  unfold memRead at h
  split_ifs at h
  cases h
  trivial

theorem wrStore_error {c : Channel} {s : State} {f : Fault} (hd : s.done = none) (h : wrStore c s = .error f) :
    f.ofAddress := by
  simp only [wrStore, memWrite] at h
  split_ifs at h
  · simp only [hd, push_empty, Except.map, reduceCtorEq] at h
  · cases h
    trivial

theorem acuLow_error {c : Channel} {s : State} {f : Fault} (h : acuLow c s = .error f) : f.ofAddress := by
  simp only [acuLow] at h
  split_ifs at h
  cases h
  trivial

/-- A channel that does not rest holds a cycle, and no completion is pending. -/
theorem inFlight_of_not_resting {s : State} {c : Channel} (h : s.engineShape = true) (hr : (s.chan c).resting ≠ true) :
    s.done = none ∧ ∃ d, (s.chan c).inFlight d = true := by
  obtain ⟨k, hc, hd, rfl⟩ := busy_of_not_resting h hr
  exact ⟨hd, k.dir, ((engineShape_busy_iff hc hd).1 h).2⟩

theorem not_resting_of_acu {ch : Chan} (h : ch.acu ≠ .wait) : ch.resting ≠ true := by simp [resting_iff, h]

theorem not_resting_of_rr {ch : Chan} (h : ch.rr ≠ .wait) : ch.resting ≠ true := by simp [resting_iff, h]

/-- While an address capture unit works on a cycle both index queues of its channel are empty. -/
theorem idx_empty_of_acu {ch : Chan} {d : Dir} (h : ch.inFlight d = true) (ha : ch.acu ≠ .wait) :
    ch.idxRd = none ∧ ch.idxWr = none := by
  cases d with
  | rd =>
    obtain ⟨⟨-, hw, -⟩, hplace⟩ := (inFlight_rd_iff ch).1 h
    simp only [ha, false_and, and_false, false_or, or_false] at hplace
    exact ⟨hplace.2.2.2.1, hw⟩
  | wr =>
    obtain ⟨⟨-, hr, -⟩, hplace⟩ := (inFlight_wr_iff ch).1 h
    simp only [ha, false_and, and_false, false_or, or_false] at hplace
    exact ⟨hr, hplace.2.2.2.1⟩

/-- The classifier pushes a trigger where both channels rest, and pops `DONE` where it is full. -/
theorem clsStep_no_error {s : State} {f : Fault} (h : s.engineShape = true) : clsStep s ≠ some (.error f) := by
  intro hs
  simp only [clsStep] at hs
  split at hs
  · split_ifs at hs
    cases hs
  · next hc =>
    simp only [State.engineShape, hc, Bool.and_eq_true] at h
    have hrest : ∀ c, (s.chan c).resting = true := fun c => by cases c; exacts [h.1.1, h.1.2]
    obtain ⟨hrd, hwr, -⟩ := (resting_iff _).1 (hrest (classify s.lines.chsel s.lines.dir).channel)
    split_ifs at hs
    · simp only [clsDispatch, pushTrig, Option.some.injEq] at hs
      split at hs <;> simp only [hrd, hwr, push_empty, Except.map, reduceCtorEq] at hs
    · cases hs
  · split at hs
    · cases hs
    · next hd => simp only [hd, pop, Except.map, Option.some.injEq, reduceCtorEq] at hs
  · split_ifs at hs
    cases hs

theorem acuStep_error {c : Channel} {s : State} {f : Fault} (h : s.engineShape = true)
    (hs : acuStep c s = some (.error f)) : f.ofAddress := by
  simp only [acuStep] at hs
  split at hs
  · split at hs <;> cases hs
  · cases hs
  · exact acuLow_error (Option.some.inj hs)
  · next ha =>
    obtain ⟨-, d, hf⟩ := inFlight_of_not_resting h (not_resting_of_acu (by simp [ha] : (s.chan c).acu ≠ .wait))
    obtain ⟨hrd, hwr⟩ := idx_empty_of_acu hf (by simp [ha])
    simp only [acuEmit, Option.some.injEq] at hs
    split at hs <;> simp only [hrd, hwr, push_empty, Except.map, reduceCtorEq] at hs

/-- Under the shape of the engine a micro-step faults on an address only. -/
theorem agentStep_error {a : Agent} {s : State} {f : Fault} (h : s.engineShape = true)
    (hs : agentStep a s = some (.error f)) : f.ofAddress := by
  rw [agentStep, if_pos (engineRuns_of_agentStep hs)] at hs
  cases a with
  | cls => exact absurd hs (clsStep_no_error h)
  | acu c => exact acuStep_error h hs
  | rr c =>
    simp only [engineAgentStep, rrStep] at hs
    split at hs
    · split at hs <;> cases hs
    · cases hs
    · next hr =>
      obtain ⟨hd, -⟩ := inFlight_of_not_resting h (not_resting_of_rr (by simp [hr] : (s.chan c).rr ≠ .wait))
      simp only [rrClose, hd, push_empty, Except.map, Option.some.injEq, reduceCtorEq] at hs
  | wc c =>
    simp only [engineAgentStep, wcStep] at hs
    split at hs
    · next hg => simp only [hg.2.1, push_empty, Except.map, Option.some.injEq, reduceCtorEq] at hs
    · cases hs
  | rdChain c =>
    simp only [engineAgentStep, rdChainStep] at hs
    split at hs
    · split at hs <;> cases hs
    · exact memRead_error (map_eq_error.1 (Option.some.inj hs))
    · split at hs <;> cases hs
  | wrChain c =>
    simp only [engineAgentStep, wrChainStep] at hs
    split at hs
    · split at hs <;> cases hs
    · split at hs <;> cases hs
    · split at hs
      · cases hs
      · next hd => exact wrStore_error hd (Option.some.inj hs)
  | bootSeq => cases hs

/-- Settles O22: under the shape of the engine a micro-step can only fault on an address. -/
theorem queuesNeverMisused : Obligations.QueuesNeverMisused := by
  unfold Obligations.QueuesNeverMisused
  intro s a q h
  exact ⟨fun hs => agentStep_error h hs, fun hs => agentStep_error h hs⟩

/-! ### RESET and the state after reset -/

theorem step_withEvent (s : State) (e : Event) : step (s.withEvent e) = handle e s := rfl

/-- Settles O53: `hardReset` gives every field R52 gives a value. -/
theorem resetValues : Obligations.ResetValues := by
  unfold Obligations.ResetValues
  intro s
  refine ⟨hardReset s, step_withEvent s .reset, ?_⟩
  exact ⟨rfl, rfl, rfl, rfl, rfl, rfl, rfl, rfl, rfl, rfl, rfl, rfl, rfl, rfl, rfl, fun _ => rfl⟩

/-- Settles O60: the state after reset is one concrete state. -/
theorem invariantsAtReset : Obligations.InvariantsAtReset := by
  unfold Obligations.InvariantsAtReset
  decide

/-! ### The read ring and the read responder -/

/-- An agent's event is its step, or nothing where it has none. -/
theorem step_agent {s : State} {a : Agent} (ha : a ≠ .bootSeq) :
    step (s.withEvent (.agent a)) = ofMicro (agentStep a s) s := by
  rw [step_withEvent]
  cases a with
  | bootSeq => exact absurd rfl ha
  | _ => rfl

theorem step_agent_next {s t : State} {a : Agent} (hr : s.engineRuns = true) (ha : a ≠ .bootSeq)
    (h : engineAgentStep a s = some (.ok t)) : step (s.withEvent (.agent a)) = .next t := by
  rw [step_agent ha, agentStep, if_pos hr, h]
  rfl

theorem rrClose_eq {c : Channel} {s : State} (hd : s.done = none) :
    rrClose c s = .ok (({ (hostSample s).applyPattern s.dirpat.2 with done := some () }).setChan c
      { s.chan c with rr := .wait }) := by
  rw [rrClose, hd]
  rfl

/-- Settles O10, rule by rule. -/
theorem readRingSteps : Obligations.ReadRingSteps := by
  unfold Obligations.ReadRingSteps
  refine ⟨fun g hg => ⟨patternDir_out g, patternDir_in hg⟩, fun s c hrun => ⟨?_, ?_, ?_, ?_, ?_, ?_, ?_⟩⟩
  · intro la hr hi
    exact step_agent_next hrun (by simp) (by simp [engineAgentStep, rdChainStep, hr, hi])
  · intro hr hm
    exact step_agent_next hrun (by simp) (by simp [engineAgentStep, rdChainStep, hr, memRead, hm, Except.map])
  · intro hr hq
    exact step_agent_next hrun (by simp) (by simp [engineAgentStep, rdChainStep, hr, hq])
  · intro b hr hq
    exact step_agent_next hrun (by simp) (by simp [engineAgentStep, rrStep, hr, hq])
  · intro hr
    exact step_agent_next hrun (by simp) (by simp [engineAgentStep, rrStep, hr]; rfl)
  · intro hr hd ho
    exact step_agent_next hrun (by simp)
      (by simp [engineAgentStep, rrStep, hr, rrClose_eq hd, hostSample_outward ho])
  · intro hr hd hi
    exact step_agent_next hrun (by simp)
      (by simp [engineAgentStep, rrStep, hr, rrClose_eq hd, hostSample_inward hi])

end Sys2Proof.Machine

namespace Sys2Proof.Machine

/-! ### Calls that run to their end

`Kept` asks a property to survive the opening of a frame by itself, and `Steady` to survive every value of `BOOT`. That no frame
outlives its call, and that `BOOT` and `FAULT` move together, survive a whole frame and a whole boot stage only. Here a property
is followed through the calls that end; one that is cut ends in a RESET whatever it had done. -/

/-- If this part of a call ends with a value, the state it ends in has the property. -/
def Res.Ends {α : Type} (P : State → Prop) (r : Res α) : Prop := ∀ a t, r = .ok a t → P t

@[simp] theorem ends_ok {α : Type} {P : State → Prop} {a : α} {s : State} : (Res.ok a s).Ends P ↔ P s := by
  simp [Res.Ends]
@[simp] theorem ends_cut {α : Type} {P : State → Prop} {s : State} : (Res.cut s : Res α).Ends P := by simp [Res.Ends]
@[simp] theorem ends_fault {α : Type} {P : State → Prop} {f : Fault} : (Res.fault f : Res α).Ends P := by simp [Res.Ends]
@[simp] theorem ends_refused {α : Type} {P : State → Prop} {r : Refusal} : (Res.refused r : Res α).Ends P := by
  simp [Res.Ends]

theorem ends_bind {α β : Type} {P Q : State → Prop} {r : Res α} {k : α → State → Res β} (hr : r.Ends P)
    (hk : ∀ a s, P s → (k a s).Ends Q) : (r.bind k).Ends Q := fun b t hbt => by
  obtain ⟨a, s, ha, hb⟩ := bind_eq_ok.1 hbt
  exact hk a s (hr a s ha) b t hb

theorem ends_and {α : Type} {P Q : State → Prop} {r : Res α} (hp : r.Ends P) (hq : r.Ends Q) :
    r.Ends fun s => P s ∧ Q s := fun a t h => ⟨hp a t h, hq a t h⟩

theorem ends_of_keeps {α : Type} {P : State → Prop} {r : Res α} (h : r.Keeps P) : r.Ends P := fun a t hr => by
  rw [hr] at h
  exact h

/-- A property that the engine's agents, a cell written, a whole frame, and notes that leave the serial lines as they are
keep. -/
structure FrameKept (P : State → Prop) : Prop where
  agent : ∀ {a s t}, P s → agentStep a s = some (.ok t) → P t
  note : ∀ {s} (n : Notes), n.nvSel = s.nvSel → n.frame = s.frame → P s → P (s.note n)
  cell : ∀ {s} (i : Nat) (v : Byte), P s → P (s.setCell .primary i v)
  xfer : ∀ {s} (c : WireCmd), P s → (nvXfer c s).Ends P

namespace FrameKept

variable {P : State → Prop} (H : FrameKept P) {s t : State}
include H

theorem lines (l : Lines) (h : P s) : P { s with lines := l } := H.note { s.notes with lines := l } rfl rfl h
theorem env (e : Env) (h : P s) : P { s with env := e } := H.note { s.notes with env := e } rfl rfl h
theorem log (e : LogEvent) (h : P s) : P (s.logged e) := H.note { s.notes with log := s.log ++ [e] } rfl rfl h
theorem result (r : CallResult) (h : P s) : P { s with result := r } := H.note { s.notes with result := r } rfl rfl h
theorem unanswered (h : P s) : P (unansweredRead s) :=
  H.note { s.notes with sampled := s.sampled ++ [Config.freeByte s.fresh], fresh := s.fresh + 1 } rfl rfl h

/-! #### The host between two steps of a call -/

theorem engineRun_kept (n : Nat) (h : P s) (hs : engineRun n s = .ok t) : P t := by
  induction n generalizing s with
  | zero => cases hs; exact h
  | succ n ih =>
    unfold engineRun at hs
    split at hs
    · cases hs; exact h
    · cases hs
    · next hu =>
      obtain ⟨a, -, ha⟩ := List.exists_of_findSome?_eq_some hu
      exact ih (H.agent h ha) hs

theorem busCycle_kept {c : Channel} {d : Dir} {f g : Nat} {x : Byte} (h : P s) (hs : busCycle c d f g x s = .ok t) : P t := by
  unfold busCycle at hs
  split at hs
  · cases hs
  · next s1 h1 =>
    have p1 : P s1 := H.engineRun_kept _ (H.lines _ h) h1
    split at hs
    · cases hs
    · next s2 h2 =>
      have p2 : P s2 := H.engineRun_kept _ (H.lines _ p1) h2
      cases hs
      split_ifs
      exacts [H.unanswered p2, p2]

theorem glitch_kept (h : P s) (hs : glitch s = .ok t) : P t := by
  have hup : P { s with lines := { s.lines with strobe := true } } := H.lines _ h
  simp only [glitch] at hs
  split at hs
  · cases hs
  · next h1 => exact H.engineRun_kept _ (H.lines _ (H.agent hup h1)) hs
  · exact H.engineRun_kept _ (H.lines _ hup) hs

theorem serveActs_ends (acts : List HostAct) (h : P s) : (serveActs acts s).Ends P := by
  induction acts generalizing s with
  | nil => exact ends_ok.2 h
  | cons x acts ih =>
    cases x with
    | lines l => exact ih (H.lines l h)
    | reset => exact ends_cut
    | cycle c d f g v =>
      unfold serveActs
      split
      · exact ends_fault
      · next h1 => exact ih (H.busCycle_kept h h1)
    | glitch =>
      unfold serveActs
      split
      · exact ends_fault
      · next h1 => exact ih (H.glitch_kept h h1)
    | agent a =>
      unfold serveActs
      split
      · exact ih h
      · exact ends_fault
      · next h1 => exact ih (H.agent h h1)

theorem raceWindow_ends (h : P s) : (raceWindow s).Ends P := by
  unfold raceWindow
  split
  · exact ends_ok.2 h
  · exact H.serveActs_ends _ (H.env _ h)

/-! #### Byte accesses and frames -/

theorem softReads_ends (n i : Nat) (h : P s) : (softReads n i s).Ends P := by
  induction n generalizing i s with
  | zero => exact ends_ok.2 h
  | succ n ih =>
    refine ends_bind (P := P) (ends_bind (H.raceWindow_ends h) fun _ s1 p1 => ?_) fun _ s1 p1 =>
      ends_bind (ih (i + 1) p1) fun _ s2 p2 => ends_ok.2 p2
    split_ifs
    exacts [ends_ok.2 p1, ends_fault]

theorem softWrites_ends (i : Nat) (vs : List Byte) (h : P s) : (softWrites i vs s).Ends P := by
  induction vs generalizing i s with
  | nil => exact ends_ok.2 h
  | cons v vs ih =>
    refine ends_bind (P := P) (ends_bind (H.raceWindow_ends h) fun _ s1 p1 => ?_) fun _ s1 p1 => ih (i + 1) p1
    split_ifs
    exacts [ends_ok.2 (H.cell i v p1), ends_fault]

theorem xferLogged_ends (op : XferOp) (addr n : Nat) (c : WireCmd) (h : P s) : (xferLogged op addr n c s).Ends P := by
  refine ends_bind (H.xfer c h) fun r s1 p1 => ends_ok.2 ?_
  split_ifs
  exacts [p1, H.log _ p1]

theorem nvReadOp_ends (addr n : Nat) (h : P s) : (nvReadOp addr n s).Ends P := by
  unfold nvReadOp
  split_ifs
  exacts [ends_refused, ends_ok.2 h, H.xferLogged_ends _ _ _ _ h]

theorem driverFrame_ends (op : XferOp) (addr n : Nat) (c : WireCmd) (h : P s) : (driverFrame op addr n c s).Ends P :=
  ends_bind (H.raceWindow_ends h) fun _ _ p1 => H.xferLogged_ends _ _ _ _ p1

theorem nvWriteChunks_ends (addr : Nat) (ps : List (List Byte)) (h : P s) : (nvWriteChunks addr ps s).Ends P := by
  induction ps generalizing addr s with
  | nil => exact ends_ok.2 h
  | cons p ps ih =>
    refine ends_bind (P := P) (ends_bind (H.driverFrame_ends _ _ _ _ h) fun _ s1 p1 => ?_) fun _ s2 p2 => ih _ p2
    exact ends_bind (H.driverFrame_ends _ _ _ _ p1) fun _ s2 p2 => ends_ok.2 p2

theorem nvWriteOp_ends (addr : Nat) (bs : List Byte) (h : P s) : (nvWriteOp addr bs s).Ends P := by
  unfold nvWriteOp
  split_ifs
  exacts [ends_refused, H.nvWriteChunks_ends _ _ h]

/-! #### The calls -/

theorem restoreStrides_ends (n i : Nat) (h : P s) : (restoreStrides n i s).Ends P := by
  induction n generalizing i s with
  | zero => exact ends_ok.2 h
  | succ n ih =>
    refine ends_bind (P := P) (ends_bind (H.raceWindow_ends h) fun _ s0 p0 => ?_) fun _ s2 p2 => ih _ p2
    exact ends_bind (H.nvReadOp_ends _ _ p0) fun rx s1 p1 =>
      H.softWrites_ends _ _ (H.note { s1.notes with fresh := (fillStride _ rx s1).2.fresh } rfl rfl p1)

theorem restoreOp_ends (h : P s) : (restoreOp s).Ends P := by
  unfold restoreOp
  split_ifs
  exacts [ends_refused, H.restoreStrides_ends _ _ h]

theorem persistChunk_ends (i : Nat) (h : P s) : (persistChunk i s).Ends P :=
  ends_bind (H.softReads_ends _ _ h) fun _ _ p1 => H.nvWriteOp_ends _ _ p1

theorem sweepChunks_ends (n i : Nat) (h : P s) : (sweepChunks n i s).Ends P := by
  induction n generalizing i s with
  | zero => exact ends_ok.2 h
  | succ n ih => exact ends_bind (H.persistChunk_ends i h) fun _ _ p1 => ih _ p1

theorem repairOp_ends (h : P s) : (repairOp s).Ends P := by
  refine ends_bind (H.softReads_ends _ _ h) fun _ s1 p1 => ends_bind (H.softReads_ends _ _ p1) fun _ s2 p2 => ?_
  split_ifs
  · exact ends_ok.2 p2
  · exact ends_bind (H.softWrites_ends _ _ p2) fun _ s3 p3 => ends_ok.2 (H.log _ p3)

theorem importOp_ends (src : List Int) (h : P s) : (importOp src s).Ends P := by
  unfold importOp
  split_ifs
  · exact ends_refused
  · exact ends_ok.2 (H.log _ h)
  · exact ends_bind (H.softWrites_ends _ _ h) fun _ _ p1 => ends_ok.2 p1

end FrameKept

/-! ### What probe and arm can answer -/

/-- `probe` reads a count and writes it; above the maximum it answers the fault, and raises it outside `B_RUNNING`. -/
theorem probeOp_answers (s : State) : ∃ (e : Env) (n : Nat),
    probeOp s = .ok .ok { s with env := e, probeCount := n } ∨
    (s.boot = .bRunning ∧ probeOp s = .ok (.busActivityFault n) { s with env := e, probeCount := n }) ∨
    (s.boot ≠ .bRunning ∧
      probeOp s = .ok (.busActivityFault n) (enterFault { s with env := e, probeCount := n } .busActivity)) := by
  obtain ⟨e, he⟩ : ∃ e, (nextProbe s).2 = { s with env := e } := by
    unfold nextProbe
    split <;> exact ⟨_, rfl⟩
  refine ⟨e, (nextProbe s).1, ?_⟩
  by_cases hm : s.cfg.probeMax < (nextProbe s).1
  · by_cases hb : s.boot = .bRunning
    · exact .inr (.inl ⟨hb, by simp [probeOp, he, hm, hb]⟩)
    · exact .inr (.inr ⟨hb, by simp [probeOp, he, hm, hb]⟩)
  · exact .inl (by simp [probeOp, he, hm])

/-- `arm` is refused, starts the engine outside `B_FAULT`, or answers the fault, which it raises on wrong identifiers. -/
theorem armOp_answers (base : Nat) (pats : Nat × Nat) (s : State) : ∃ (e : Env) (p q : List Nat),
    (∃ r, armOp base pats s = .refused r) ∨
    (s.boot ≠ .bFault ∧
      armOp base pats s = .ok .ok (armRegisters base pats { s with env := e, seqIds := p, movIds := q })) ∨
    (s.boot = .bFault ∧ armOp base pats s = .ok (.engineFault p q) { s with env := e, seqIds := p, movIds := q }) ∨
    armOp base pats s = .ok (.engineFault p q) (enterFault { s with env := e, seqIds := p, movIds := q } .engineArm) := by
  obtain ⟨e, he⟩ : ∃ e, (nextAlloc s).2 = { s with env := e } := by
    unfold nextAlloc
    split <;> exact ⟨_, rfl⟩
  refine ⟨e, (nextAlloc s).1.1, (nextAlloc s).1.2, ?_⟩
  simp only [armOp, he]
  split_ifs with ha hb hids hf
  · exact .inl ⟨_, rfl⟩
  · exact .inl ⟨_, rfl⟩
  · exact .inr (.inr (.inl ⟨hf, rfl⟩))
  · exact .inr (.inl ⟨hf, rfl⟩)
  · exact .inr (.inr (.inr rfl))

/-! ### Steps that run to their end -/

/-- The moves of `BOOT` at the end of a stage that worked (R230). -/
inductive NextStage (s : State) : BootState → Prop where
  | restore : s.boot = .bProbe → NextStage s .bRestore
  | arm : s.boot = .bRestore → NextStage s .bArm
  | repair : s.boot = .bArm → s.armed = true → NextStage s .bRepair
  | running : s.boot = .bRepair → NextStage s .bRunning

/-- A property that every call keeps to its end, the moves of the boot sequencer taken where it takes them, and that RESET
gives. -/
structure StepKept (P : State → Prop) : Prop extends FrameKept P where
  boot : ∀ {s b}, NextStage s b → P s → P { s with boot := b }
  start : ∀ {s}, s.boot = .bReset → P s → P { s with cursor := 0, boot := .bProbe }
  raise : ∀ {s} (c : FaultCause), P s → P (enterFault s c)
  arm : ∀ {s} (base : Nat) (pats : Nat × Nat), s.boot ≠ .bFault → P s → P (armRegisters base pats s)
  advance : ∀ {s}, P s → P { s with cursor := nextCursor s.cfg.len s.cursor }
  sweep : ∀ {s}, P s → (writeAllNowOp s).Ends P
  reset : ∀ s, P (hardReset s)

/-- The control state that a micro-step of the engine leaves as it is. -/
theorem agentStep_control {a : Agent} {s t : State} (hs : agentStep a s = some (.ok t)) :
    t.cfg = s.cfg ∧ t.cursor = s.cursor ∧ t.boot = s.boot ∧ t.fault = s.fault ∧ t.armed = s.armed := by
  obtain ⟨hcfg, -, -, -, hcursor, -, -, -, -, hboot, -, hfault, -, -, -, harmed, -⟩ := (move_of_agentStep hs).2.software
  exact ⟨hcfg, hcursor, hboot, hfault, harmed⟩

/-- A micro-step of the engine leaves the serial lines and the pause as they are (R192). -/
theorem agentStep_serial {a : Agent} {s t : State} (hs : agentStep a s = some (.ok t)) :
    t.nvSel = s.nvSel ∧ t.frame = s.frame ∧ t.paused = s.paused := by
  obtain ⟨-, -, -, -, -, hpaused, hsel, hframe, -⟩ := (move_of_agentStep hs).2.software
  exact ⟨hsel, hframe, hpaused⟩

/-- Neither a restore pass nor a repair moves `BOOT`. -/
theorem kept_boot (b : BootState) : Kept (fun s => s.boot = b) :=
  Kept.of_parts
    (fun {a s t} h hs => by
      obtain ⟨-, -, hb, -⟩ := agentStep_control hs
      exact hb.trans h)
    (fun _ h => h) (fun _ _ h => h) (fun _ _ h => h) (fun _ _ _ h => h)

namespace StepKept

variable {P : State → Prop} (H : StepKept P) {s t : State}
include H

theorem counted (e : Env) (n : Nat) (h : P s) : P { s with env := e, probeCount := n } :=
  H.note { s.notes with env := e, probeCount := n } rfl rfl h

theorem allocated (e : Env) (p q : List Nat) (h : P s) : P { s with env := e, seqIds := p, movIds := q } :=
  H.note { s.notes with env := e, seqIds := p, movIds := q } rfl rfl h

theorem probeOp_ends (h : P s) : (probeOp s).Ends P := by
  obtain ⟨e, n, ho | ⟨-, ho⟩ | ⟨-, ho⟩⟩ := probeOp_answers s <;> rw [ho, ends_ok]
  exacts [H.counted e n h, H.counted e n h, H.raise _ (H.counted e n h)]

theorem armOp_ends (base : Nat) (pats : Nat × Nat) (h : P s) : (armOp base pats s).Ends P := by
  obtain ⟨e, p, q, ⟨r, ho⟩ | ⟨hb, ho⟩ | ⟨-, ho⟩ | ho⟩ := armOp_answers base pats s <;> rw [ho]
  · exact ends_refused
  · exact ends_ok.2 (H.arm base pats hb (H.allocated e p q h))
  · exact ends_ok.2 (H.allocated e p q h)
  · exact ends_ok.2 (H.raise _ (H.allocated e p q h))

theorem bootStage_ends (h : P s) : (bootStage s).Ends P := by
  unfold bootStage
  split
  · next hb => exact ends_ok.2 (H.start hb h)
  · next hb =>
    obtain ⟨e, n, ho | ⟨-, ho⟩ | ⟨-, ho⟩⟩ := probeOp_answers s <;>
      simp only [ho, bind_ok, reduceCtorEq, if_true, if_false, ends_ok]
    · exact H.boot (s := { s with env := e, probeCount := n }) (.restore hb) (H.counted e n h)
    · exact H.counted e n h
    · exact H.raise _ (H.counted e n h)
  · next hb =>
    exact ends_bind (ends_and (H.restoreOp_ends h) (ends_of_keeps (restoreOp_keeps (kept_boot _) hb))) fun _ s1 ⟨p1, hb1⟩ =>
      ends_ok.2 (H.boot (.arm hb1) p1)
  · next hb =>
    obtain ⟨e, p, q, ⟨r, ho⟩ | ⟨hf, ho⟩ | ⟨-, ho⟩ | ho⟩ :=
        armOp_answers s.cfg.baseOffset (s.cfg.dirpatOut, s.cfg.dirpatIn) s <;>
      simp only [ho, bind_ok, bind_refused, reduceCtorEq, if_true, if_false, ends_ok, ends_refused]
    · exact H.boot (s := armRegisters _ _ _) (.repair hb rfl) (H.arm _ _ hf (H.allocated e p q h))
    · exact H.allocated e p q h
    · exact H.raise _ (H.allocated e p q h)
  · next hb =>
    exact ends_bind (ends_and (H.repairOp_ends h) (ends_of_keeps (repairOp_keeps (kept_boot _) hb))) fun _ s1 ⟨p1, hb1⟩ =>
      ends_ok.2 (H.boot (.running hb1) p1)
  · exact ends_ok.2 h
  · exact ends_ok.2 h

theorem bootRun_ends (n : Nat) (h : P s) : (bootRun n s).Ends P := by
  induction n generalizing s with
  | zero => exact ends_ok.2 h
  | succ n ih =>
    unfold bootRun
    split_ifs
    exacts [ends_ok.2 h, ends_bind (H.bootStage_ends h) fun _ _ p1 => ih p1]

theorem finish_keeps {r : Res CallResult} (hr : r.Ends P) (ht : finish r = .next t) : P t := by
  rcases finish_eq_next.1 ht with ⟨a, s, rfl, rfl⟩ | ⟨s, -, rfl⟩
  · exact H.result a (ends_ok.1 hr)
  · exact H.reset s

/-- A call that hands on what a part of it gave. -/
theorem call_keeps {α : Type} {r : Res α} {f : α → CallResult} (hr : r.Ends P)
    (ht : finish (r.bind fun a s => .ok (f a) s) = .next t) : P t :=
  H.finish_keeps (ends_bind hr fun _ _ p1 => ends_ok.2 p1) ht

theorem exec_keeps (i : Instr) (h : P s) (ht : exec i s = .next t) : P t := by
  cases i with
  | prd f g => exact ofCycle_keeps (fun u hu => H.busCycle_kept h hu) ht
  | pwr f g b => exact ofCycle_keeps (fun u hu => H.busCycle_kept h hu) ht
  | srd f g => exact ofCycle_keeps (fun u hu => H.busCycle_kept h hu) ht
  | swr f g b => exact ofCycle_keeps (fun u hu => H.busCycle_kept h hu) ht
  | nocyc c d => exact ofCycle_keeps (fun u hu => H.engineRun_kept _ (H.lines _ h) hu) ht
  | wren | wrdi | rdsr | wrsr v | read a n | write a p => exact H.call_keeps (H.xferLogged_ends _ _ _ _ h) ht
  | boot => exact H.call_keeps (H.bootRun_ends 5 h) ht
  | probe => exact H.finish_keeps (H.probeOp_ends h) ht
  | restore => exact H.call_keeps (H.restoreOp_ends h) ht
  | arm b o i => exact H.finish_keeps (H.armOp_ends _ _ h) ht
  | repair => exact H.call_keeps (H.repairOp_ends h) ht
  | nvRead a n => exact H.call_keeps (H.nvReadOp_ends _ _ h) ht
  | nvWrite a bs => exact H.call_keeps (H.nvWriteOp_ends _ _ h) ht
  | backupTick => exact H.call_keeps (H.persistChunk_ends _ (H.advance h)) ht
  | writeAllNow => exact H.call_keeps (H.sweep h) ht
  | exportImage => exact H.call_keeps (H.softReads_ends _ _ h) ht
  | importImage src => exact H.finish_keeps (H.importOp_ends src h) ht

theorem bootEvent_keeps (h : P s) (ht : bootEvent s = .next t) : P t := by
  have hb := H.bootStage_ends h
  unfold bootEvent at ht
  split at ht
  · next he => cases ht; exact hb _ _ he
  · cases ht; exact H.reset _
  · cases ht
  · cases ht

theorem handle_keeps (e : Event) (h : P s) (ht : handle e s = .next t) : P t := by
  cases e with
  | packet p =>
    simp only [handle] at ht
    split at ht
    · exact H.exec_keeps _ h ht
    · cases ht
  | reset => cases ht; exact H.reset s
  | tick =>
    simp only [handle, tick] at ht
    split_ifs at ht
    · exact H.exec_keeps .backupTick h ht
    · cases ht; exact h
  | glitch => exact ofCycle_keeps (fun u hu => H.glitch_kept h hu) ht
  | swRead c i =>
    simp only [handle, swRead] at ht
    split_ifs at ht
    · cases ht; exact H.result _ h
    · cases ht; exact h
  | lines l => cases ht; exact H.lines l h
  | agent a =>
    simp only [handle, agentEvent] at ht
    split at ht
    · exact H.bootEvent_keeps h ht
    · exact ofMicro_keeps h (fun u hu => H.agent h hu) ht

theorem step_keeps (h : P s) (ht : step s = .next t) : P t := by
  unfold step at ht
  split at ht
  · next e s1 he =>
    refine H.handle_keeps e ?_ ht
    unfold fetch at he
    split at he <;> cases he
    exact H.env _ h
  · simp only [idle] at ht
    split_ifs at ht
    · refine ofMicro_keeps h (fun u hu => ?_) ht
      obtain ⟨a, -, ha⟩ := List.exists_of_findSome?_eq_some hu
      exact H.agent h ha
    · exact H.bootEvent_keeps h ht

end StepKept

/-! ### The parameters and the cursor -/

theorem steady_cfg (g : Config) : Steady (fun s => s.cfg = g) :=
  Steady.of_kept
    (Kept.of_parts (fun h hs => (agentStep_control hs).1.trans h) (fun _ h => h) (fun _ _ h => h)
      (fun _ _ h => h) (fun _ _ _ h => h))
    (note := fun _ h => h) (boot := fun _ h => h) (start := fun h => h) (raise := fun _ h => h)
    (arm := fun _ _ h => h) (advance := fun h => h) (pause := fun _ h => h) (reset := fun h => h)

theorem cursorOk_iff (s : State) : s.cursorOk = true ↔ s.cursor % 16 = 0 ∧ (s.cursor < s.cfg.len ∨ s.cursor = 0) := by
  simp [State.cursorOk]

theorem cursorOk_zero {s : State} (h : s.cursor = 0) : s.cursorOk = true := (cursorOk_iff s).2 (by omega)

theorem nextCursor_ok {s : State} (h : s.cursorOk = true) :
    ({ s with cursor := nextCursor s.cfg.len s.cursor } : State).cursorOk = true := by
  have := (cursorOk_iff s).1 h
  refine (cursorOk_iff _).2 ?_
  simp only [nextCursor]
  split_ifs <;> omega

theorem steady_cursorOk : Steady (fun s => s.cursorOk = true) :=
  Steady.of_kept
    (Kept.of_parts
      (fun {a s t} h hs => by
        obtain ⟨hg, hc, -⟩ := agentStep_control hs
        rwa [cursorOk_iff, hg, hc, ← cursorOk_iff])
      (fun _ h => h) (fun _ _ h => h) (fun _ _ h => h) (fun _ _ _ h => h))
    (note := fun _ h => h) (boot := fun _ h => h) (start := fun _ => cursorOk_zero rfl) (raise := fun _ h => h)
    (arm := fun _ _ h => h) (advance := nextCursor_ok) (pause := fun _ h => h) (reset := fun _ => cursorOk_zero rfl)

/-! ### The fault state and the armed engine -/

/-- A property blind to the notes that survives every shared operation survives every call to its end. -/
theorem Kept.frameKept {P : State → Prop} (K : Kept P) (note : ∀ {s} (n : Notes), P s → P (s.note n))
    (cell : ∀ {s} (i : Nat) (v : Byte), P s → P (s.setCell .primary i v)) : FrameKept P where
  agent := K.agent
  note n _ _ h := note n h
  cell := cell
  xfer c h := ends_of_keeps (nvXfer_keeps K c h)

/-- A sweep of a property that does not look at `PAUSED`. -/
theorem FrameKept.writeAllNowOp_ends {P : State → Prop} (H : FrameKept P) (pause : ∀ {s} (b : Bool), P s → P (s.setPaused b))
    {s : State} (h : P s) : (writeAllNowOp s).Ends P :=
  ends_bind (H.sweepChunks_ends _ _ (pause true h)) fun _ _ p1 => ends_ok.2 (pause false p1)

theorem faultOk_iff (s : State) :
    s.faultOk = true ↔ (s.fault.raised = true ↔ s.boot = .bFault) ∧ (s.boot = .bFault → s.ddir = .inward) := by
  simp only [State.faultOk, Bool.and_eq_true, decide_eq_true_eq]

theorem add_raised (f : FaultSet) (c : FaultCause) : (f.add c).raised = true := by
  cases c <;> simp [FaultSet.add, FaultSet.raised]

/-- Where the engine takes a step `BOOT` is not `B_FAULT`, so the lines are free to move. -/
theorem agentStep_faultOk {a : Agent} {s t : State} (h : s.faultOk = true) (hs : agentStep a s = some (.ok t)) :
    t.faultOk = true := by
  obtain ⟨-, -, hb, hf, -⟩ := agentStep_control hs
  have hnb : s.boot ≠ .bFault := ((engineRuns_iff s).1 (engineRuns_of_agentStep hs)).2
  rw [faultOk_iff, hb, hf]
  exact ⟨((faultOk_iff s).1 h).1, fun hb => absurd hb hnb⟩

/-- `BOOT` may move between states other than `B_FAULT`. -/
theorem faultOk_of_boot {s t : State} (h : s.faultOk = true) (hf : t.fault = s.fault) (hs : s.boot ≠ .bFault)
    (ht : t.boot ≠ .bFault) : t.faultOk = true := by
  rw [faultOk_iff, hf]
  have := ((faultOk_iff s).1 h).1
  exact ⟨⟨fun hr => absurd (this.1 hr) hs, fun hb => absurd hb ht⟩, fun hb => absurd hb ht⟩

theorem NextStage.not_fault {s : State} {b : BootState} (h : NextStage s b) : s.boot ≠ .bFault ∧ b ≠ .bFault := by
  cases h <;> simp_all

theorem frameKept_faultOk : FrameKept (fun s => s.faultOk = true) :=
  (Kept.of_parts agentStep_faultOk (fun _ h => h) (fun _ _ h => h) (fun _ _ h => h) (fun _ _ _ h => h)).frameKept
    (fun _ h => h) (fun _ _ h => h)

theorem stepKept_faultOk : StepKept (fun s => s.faultOk = true) where
  toFrameKept := frameKept_faultOk
  boot hn h := faultOk_of_boot h rfl hn.not_fault.1 hn.not_fault.2
  start hb h := faultOk_of_boot h rfl (by simp [hb]) (by simp)
  raise {s} c _ := (faultOk_iff _).2 ⟨by simp [add_raised], fun _ => enterFault_ddir s c⟩
  arm base pats hb h := faultOk_of_boot h rfl hb hb
  advance h := h
  sweep h := frameKept_faultOk.writeAllNowOp_ends (fun _ h => h) h
  reset _ := rfl

theorem runningArmed_iff (s : State) :
    s.runningArmed = true ↔ (s.boot = .bRepair ∨ s.boot = .bRunning → s.armed = true) := by
  simp only [State.runningArmed, decide_eq_true_eq]

theorem agentStep_runningArmed {a : Agent} {s t : State} (h : s.runningArmed = true)
    (hs : agentStep a s = some (.ok t)) : t.runningArmed = true := by
  obtain ⟨-, -, hb, -, ha⟩ := agentStep_control hs
  rwa [runningArmed_iff, hb, ha, ← runningArmed_iff]

theorem frameKept_runningArmed : FrameKept (fun s => s.runningArmed = true) :=
  (Kept.of_parts agentStep_runningArmed (fun _ h => h) (fun _ _ h => h) (fun _ _ h => h) (fun _ _ _ h => h)).frameKept
    (fun _ h => h) (fun _ _ h => h)

theorem stepKept_runningArmed : StepKept (fun s => s.runningArmed = true) where
  toFrameKept := frameKept_runningArmed
  boot {s b} hn h := (runningArmed_iff _).2 fun hb => by
    cases hn with
    | restore | arm => simp at hb
    | repair _ ha => exact ha
    | running hr => exact (runningArmed_iff s).1 h (.inl hr)
  start _ _ := rfl
  raise _ _ := rfl
  arm base pats _ _ := (runningArmed_iff _).2 fun _ => rfl
  advance h := h
  sweep h := frameKept_runningArmed.writeAllNowOp_ends (fun _ h => h) h
  reset _ := rfl

/-! ### The serial lines and the pause -/

/-- No frame is in progress, and `PAUSED` is `b`. -/
def State.idleWith (b : Bool) (s : State) : Prop := s.nvSel = false ∧ s.frame = [] ∧ s.paused = b

theorem driverIdle_iff (s : State) : s.driverIdle = true ↔ s.idleWith false := by
  simp [State.driverIdle, State.idleWith, and_assoc]

theorem devOk_paused (c : WireCmd) (s : State) : (devOk c s).2.paused = s.paused := by cases c <;> rfl

theorem devFailed_paused (c : WireCmd) (s : State) : (devFailed c s).paused = s.paused := by cases c <;> rfl

theorem nextOutcome_paused (s : State) : (nextOutcome s).2.paused = s.paused := by
  unfold nextOutcome
  split <;> rfl

/-- A frame that was opened is closed when the exchange ends. -/
theorem nvXfer_idle (c : WireCmd) {b : Bool} {s : State} (h : s.idleWith b) : (nvXfer c s).Ends (State.idleWith b) := by
  obtain ⟨-, -, hp⟩ := h
  have hn := nextOutcome_paused (openFrame c s)
  unfold nvXfer
  split <;> next ho =>
    rw [ho] at hn
    simp_all [State.idleWith, devOk_paused, devFailed_paused]

theorem frameKept_idleWith (b : Bool) : FrameKept (State.idleWith b) where
  agent {a s t} h hs := by
    obtain ⟨hsel, hfr, hp⟩ := agentStep_serial hs
    simpa only [State.idleWith, hp, hsel, hfr] using h
  note n hsel hfr h := ⟨hsel.trans h.1, hfr.trans h.2.1, h.2.2⟩
  cell _ _ h := h
  xfer c h := nvXfer_idle c h

theorem stepKept_driverIdle : StepKept (State.idleWith false) where
  toFrameKept := frameKept_idleWith false
  boot _ h := h
  start _ h := h
  raise _ h := h
  arm _ _ _ h := h
  advance h := h
  sweep h := ends_bind ((frameKept_idleWith true).sweepChunks_ends _ _ ⟨h.1, h.2.1, rfl⟩) fun _ _ p1 =>
    ends_ok.2 ⟨p1.1, p1.2.1, rfl⟩
  reset _ := ⟨rfl, rfl, rfl⟩

/-- Settles O58: each part is an invariant of its own. -/
theorem controlStateKept : Obligations.ControlStateKept := by
  unfold Obligations.ControlStateKept
  intro s t hcursor hfault hidle ht
  refine ⟨step_keeps steady_cursorOk hcursor ht, stepKept_faultOk.step_keeps hfault ht, ?_, ?_, fun h => ?_⟩
  · exact (driverIdle_iff t).2 (stepKept_driverIdle.step_keeps ((driverIdle_iff s).1 hidle) ht)
  · exact step_keeps (steady_cfg s.cfg) rfl ht
  · exact stepKept_runningArmed.step_keeps h ht

end Sys2Proof.Machine

namespace Sys2Proof.Machine

/-! ### The engine where nothing is to be done (R117, R84, R259) -/

theorem agentStep_of_runs {s : State} (h : s.engineRuns = true) (a : Agent) : agentStep a s = engineAgentStep a s := by
  rw [agentStep, if_pos h]

/-- The classifier is the first agent the model asks (log 10). -/
theorem engineStep_of_cls {s : State} {r : Except Fault State} (h : agentStep .cls s = some r) : engineStep s = some r := by
  simp [engineStep, engineAgents, h]

theorem engineStep_of_not_runs {s : State} (h : s.engineRuns = false) : engineStep s = none := by
  simp [engineStep, agentStep_of_not_runs h]

/-- With both channels at rest the classifier alone can have a step. -/
theorem engineStep_of_resting {s : State} (hP : s.chP.resting = true) (hS : s.chS.resting = true) (hc : clsStep s = none) :
    engineStep s = none := by
  cases hr : s.engineRuns with
  | false => exact engineStep_of_not_runs hr
  | true =>
    have rP := resting_no_step (s := s) (c := .primary) hP
    have rS := resting_no_step (s := s) (c := .secondary) hS
    simp [engineStep, engineAgents, agentStep_of_runs hr, engineAgentStep, hc, rP, rS]

theorem settle_of_no_step {s : State} (h : engineStep s = none) : settle s = .ok s := by
  simp [settle, engineFuel, engineRun, h]

/-- One step, and then none: that step is all of a run. -/
theorem settle_of_one_step {s t : State} (h : engineStep s = some (.ok t)) (ht : engineStep t = none) :
    settle s = .ok t := by
  simp [settle, engineFuel, engineRun, h, ht]

theorem ready_iff (s : State) : s.ready = true ↔ s.engineRuns = true ∧ s.cls = .idle ∧ s.chP.resting = true ∧
    s.chS.resting = true ∧ s.done = none ∧ s.ddir = .inward := by
  simp [State.ready, State.engineAtRest, and_assoc]

/-- In `C_IDLE` a resting engine takes no step without the strobe (R117). -/
theorem engineStep_of_ready {s : State} (h : s.ready = true) (hs : s.lines.strobe = false) : engineStep s = none := by
  obtain ⟨-, hcls, hP, hS, -⟩ := (ready_iff s).1 h
  exact engineStep_of_resting hP hS (by simp [clsStep, hcls, hs])

/-- Settles O16: whether it does not run or rests, the engine has no step. -/
theorem noCycleChangesNothing : Obligations.NoCycleChangesNothing := by
  unfold Obligations.NoCycleChangesNothing
  intro s c d h
  have hn : engineStep (presentNoCycle c d s) = none := by
    rcases h with hr | hr
    · exact engineStep_of_not_runs hr
    · exact engineStep_of_ready (s := presentNoCycle c d s) hr rfl
  show ofCycle (settle (presentNoCycle c d s)) = _
  rw [settle_of_no_step hn]
  rfl

/-! ### A bus cycle while the engine does not run -/

/-- The data byte the operation of a cycle carries: a read carries none. -/
def HostCycle.payload (h : HostCycle) : Byte := if h.dir = .rd then 0 else h.data

/-- The four bus-cycle operations are one function of the cycle. -/
theorem exec_cycle (h : HostCycle) (s : State) :
    exec h.instr s = ofCycle (busCycle h.chan h.dir h.first h.second h.payload s) := by
  obtain ⟨c, d, f, g, x⟩ := h
  cases c <;> cases d <;> rfl

/-- The host presents a cycle and takes it away, and the block takes no part. -/
theorem busCycle_of_not_runs {s : State} (h : s.engineRuns = false) (c : Channel) (d : Dir) (f g : Nat) (x : Byte) :
    busCycle c d f g x s = .ok (if d = .rd then unansweredRead (endCycle (presentCycle c d f g x s))
      else endCycle (presentCycle c d f g x s)) := by
  have h1 : settle (presentCycle c d f g x s) = .ok (presentCycle c d f g x s) :=
    settle_of_no_step (engineStep_of_not_runs h)
  have h2 : settle (endCycle (presentCycle c d f g x s)) = .ok (endCycle (presentCycle c d f g x s)) :=
    settle_of_no_step (engineStep_of_not_runs h)
  simp [busCycle, h1, h2]

/-- Settles O18: what the host does on its lines, and for a read its sample of an undriven bus. -/
theorem unarmedCyclesIgnored : Obligations.UnarmedCyclesIgnored := by
  unfold Obligations.UnarmedCyclesIgnored
  rintro s ⟨c, d, f, g, x⟩ l hr rfl
  rw [exec_cycle, busCycle_of_not_runs hr]
  cases d with
  | rd => exact ⟨nofun, fun _ => by cases c <;> rfl⟩
  | wr => exact ⟨fun _ => by cases c <;> rfl, nofun⟩

/-! ### Refusals of arm, software reads -/

theorem armOp_of_armed {s : State} (h : s.armed = true) (base : Nat) (pats : Nat × Nat) :
    armOp base pats s = .refused .alreadyArmed := by
  rw [armOp, if_pos h]

theorem armOp_of_misaligned {s : State} {base : Nat} (h : s.armed = false)
    (hb : lowBits (addrWidth s.cfg .primary) base ≠ 0) (pats : Nat × Nat) :
    armOp base pats s = .refused .baseMisaligned := by
  rw [armOp, if_neg (by simp [h]), if_pos hb]

/-- Settles O47: the two checks in the order R171 makes them. -/
theorem armRefusals : Obligations.ArmRefusals := by
  unfold Obligations.ArmRefusals
  intro s base o i
  have hexec : exec (.arm base o i) s = finish (armOp base (o, i) s) := rfl
  refine ⟨fun ha => ?_, fun ha hb => ?_⟩
  · rw [hexec, armOp_of_armed ha]
    rfl
  · rw [hexec, armOp_of_misaligned ha hb]
    rfl

/-- Settles O56, by the value of `BOOT`. -/
theorem softwareReads : Obligations.SoftwareReads := by
  unfold Obligations.SoftwareReads
  intro s c i
  have hstep : step (s.withEvent (.swRead c i)) = swRead c i s := step_withEvent s _
  refine ⟨fun hb hi => ?_, fun hb => ?_⟩
  · rw [hstep, swRead, if_pos hb, if_pos hi]
  · rw [hstep, swRead, if_neg hb]


/-! ### What falls between two steps of a call while the block serves cycles (R76, R210) -/

/-- A bus cycle's own registers leave the block serving. -/
theorem serves_setChan {s : State} {c : Channel} {ch : Chan} (h : s.serves = true)
    (hb : ch.baseReg = (s.chan c).baseReg) (hr : ch.resting = true) : (s.setChan c ch).serves = true := by
  obtain ⟨hw, ⟨hbP, hbS⟩, hd, he, ⟨⟨hP, hS⟩, hdone⟩, hdir⟩ := serves_iff.1 h
  cases c with
  | primary => exact serves_iff.2 ⟨hw, ⟨hb.trans hbP, hbS⟩, hd, he, ⟨⟨hr, hS⟩, hdone⟩, hdir⟩
  | secondary => exact serves_iff.2 ⟨hw, ⟨hbP, hb.trans hbS⟩, hd, he, ⟨⟨hP, hr⟩, hdone⟩, hdir⟩

theorem serves_chan_resting {s : State} (h : s.serves = true) (c : Channel) : (s.chan c).resting = true := by
  obtain ⟨-, -, -, -, ⟨⟨hP, hS⟩, -⟩, -⟩ := serves_iff.1 h
  cases c
  exacts [hP, hS]

theorem ready_of_serves {s : State} (h : s.serves = true) : s.ready = true := by
  simp only [State.serves, Bool.and_eq_true] at h
  exact h.2

/-- A cycle inside its window is served, and the block serves on; a write stores its byte, a read changes no cell (R71, R73). -/
theorem busCycle_served {s : State} {c : Channel} {f g : Nat} (d : Dir) (x : Byte) (h : s.serves = true)
    (hl : cycleIndex s.cfg c f g < windowLen s.cfg c) :
    ∃ t, busCycle c d f g x s = .ok t ∧ t.serves = true ∧ sameSoftwareDomain s t ∧
      t.ram = (match d with | .rd => s.ram | .wr => (s.setCell c (cycleIndex s.cfg c f g) x).ram) := by
  cases d with
  | rd =>
    refine ⟨_, busCycle_rd h rfl hl, ?_, ?_, ?_⟩
    · exact serves_setChan h rfl (serves_chan_resting h c)
    · exact sameSoftwareDomain_setChan (sameSoftwareDomain_refl s) rfl
    · simp
  | wr =>
    refine ⟨_, busCycle_wr h rfl hl, ?_, ?_, ?_⟩
    · exact serves_setChan h rfl (serves_chan_resting h c)
    · exact sameSoftwareDomain_setChan (sameSoftwareDomain_refl s) rfl
    · simp

/-- In `C_IDLE` the classifier sees the strobe (R111). -/
theorem agentStep_cls_idle {s : State} (hr : s.engineRuns = true) (hc : s.cls = .idle) (hs : s.lines.strobe = true) :
    agentStep .cls s = some (.ok { s with cls := .settle }) := by
  simp [agentStep_of_runs hr, engineAgentStep, clsStep, hc, hs]

/-- In `C_SETTLE` the classifier finds the strobe gone (R112). -/
theorem agentStep_cls_settle {s : State} (hr : s.engineRuns = true) (hc : s.cls = .settle) (hs : s.lines.strobe = false) :
    agentStep .cls s = some (.ok { s with cls := .idle }) := by
  simp [agentStep_of_runs hr, engineAgentStep, clsStep, hc, hs]

/-- A glitch on a resting block is seen, found gone and dropped (R112). -/
theorem glitch_of_ready {s : State} (h : s.ready = true) : glitch s = .ok (endCycle s) := by
  obtain ⟨hrun, hcls, -⟩ := (ready_iff s).1 h
  have hup := agentStep_cls_idle (s := { s with lines := { s.lines with strobe := true } }) hrun hcls rfl
  have hdown := engineStep_of_cls (agentStep_cls_settle (s := { endCycle s with cls := .settle }) hrun rfl rfl)
  have hidle : { endCycle s with cls := .idle } = endCycle s := by rw [← hcls]; rfl
  simp only [glitch, hup]
  exact settle_of_one_step (hdown.trans (congrArg (some ∘ Except.ok) hidle)) (engineStep_of_ready (s := endCycle s) h rfl)

/-- What the host may do between two steps of a call here: whole cycles inside their windows, and glitches. -/
def HostAct.mild (g : Config) : HostAct → Prop
  | .cycle c _ f h _ => cycleIndex g c f h < windowLen g c
  | .glitch => True
  | .lines _ | .agent _ | .reset => False

theorem racesInWindow_iff (s : State) : s.racesInWindow = true ↔ ∀ l ∈ s.env.races, ∀ a ∈ l, a.mild s.cfg := by
  simp only [State.racesInWindow, List.all_eq_true]
  refine forall₂_congr fun l _ => forall₂_congr fun a _ => ?_
  cases a <;> simp [HostAct.mild]

/-- Among the acts is a write of byte `b` to `SHADOW[i]` over the primary channel. -/
def BusWrote (g : Config) (acts : List HostAct) (i : Nat) (b : Byte) : Prop :=
  ∃ f h, HostAct.cycle .primary .wr f h b ∈ acts ∧ cycleIndex g .primary f h = i

theorem BusWrote.mono {g : Config} {acts acts' : List HostAct} {i : Nat} {b : Byte} (h : BusWrote g acts i b)
    (hs : acts ⊆ acts') : BusWrote g acts' i b := by
  obtain ⟨f, k, hm, hi⟩ := h
  exact ⟨f, k, hs hm, hi⟩

/-- From `s` the acts led to `t`: the block serves on, the driver's state is as it was, and a cell of `SHADOW` changed only by a
primary write to its very index. -/
structure BusRan (acts : List HostAct) (s t : State) : Prop where
  serves : t.serves = true
  memories : t.memoriesOk = true
  cfg : t.cfg = s.cfg
  frames : t.frames = s.frames
  cells : ∀ i < s.cfg.len, t.shadow i = s.shadow i ∨ BusWrote s.cfg acts i (t.shadow i)

theorem BusRan.trans {a b : List HostAct} {s t u : State} (h : BusRan a s t) (k : BusRan b t u) : BusRan (a ++ b) s u where
  serves := k.serves
  memories := k.memories
  cfg := k.cfg.trans h.cfg
  frames := k.frames.trans h.frames
  cells i hi := by
    rcases k.cells i (by rwa [h.cfg]) with hu | hu
    · rw [hu]
      exact (h.cells i hi).imp_right fun hw => hw.mono (List.subset_append_left a b)
    · rw [h.cfg] at hu
      exact .inr (hu.mono (List.subset_append_right a b))

/-- The two windows do not overlap (R11). -/
theorem windows_disjoint {g : Config} (h : g.wf = true) :
    g.secBaseOffset + g.secLen ≤ g.baseOffset ∨ g.baseOffset + g.len ≤ g.secBaseOffset := by
  obtain ⟨-, -, -, -, -, -, -, -, -, -, -, -, -, -, -, hdis, -⟩ := (cfg_wf_iff g).1 h
  exact hdis

/-- LEN is at least 1 and at most 65536 (R11). -/
theorem len_range {g : Config} (h : g.wf = true) : 0 < g.len ∧ g.len ≤ 65536 := by
  obtain ⟨hpos, -, hmax, -⟩ := (cfg_wf_iff g).1 h
  exact ⟨hpos, hmax⟩

theorem wf_of_serves {s : State} (h : s.serves = true) : s.cfg.wf = true := by
  obtain ⟨hw, -⟩ := serves_iff.1 h
  exact hw

/-- A write to a cell of either array leaves every other cell of `SHADOW` (R11: the windows are disjoint). -/
theorem shadow_setCell {s : State} (hw : s.cfg.wf = true) (hm : s.memoriesOk = true) {c : Channel} {i j : Nat}
    (hi : i < windowLen s.cfg c) (hj : j < s.cfg.len) (x : Byte) :
    (s.setCell c i x).shadow j = if c = .primary ∧ i = j then x else s.shadow j := by
  obtain ⟨hram, -⟩ := (memoriesOk_iff s).1 hm
  have hread : (s.setCell c i x).shadow j = if s.cfg.baseOffset + j = windowBase s.cfg c + i then x else s.shadow j :=
    memory_read_write hram _ _ x
  have hsep := windows_disjoint hw
  rw [hread]
  cases c with
  | primary => simp [windowBase, eq_comm]
  | secondary =>
    have hne : s.cfg.baseOffset + j ≠ windowBase s.cfg .secondary + i := by
      simp only [windowBase, windowLen] at hi ⊢
      omega
    rw [if_neg hne, if_neg (by simp)]

theorem busCycle_ran {s : State} {c : Channel} {f g : Nat} (d : Dir) (x : Byte) (h : s.serves = true)
    (hm : s.memoriesOk = true) (hl : cycleIndex s.cfg c f g < windowLen s.cfg c) :
    ∃ t, busCycle c d f g x s = .ok t ∧ t.env = s.env ∧ BusRan [.cycle c d f g x] s t := by
  obtain ⟨t, ht, hserves, hsame, hram⟩ := busCycle_served d x h hl
  have hmem : t.memoriesOk = true := busCycle_kept kept_memoriesOk hm ht
  obtain ⟨hcfg, -, -, -, -, -, -, -, hframes, -, -, -, -, -, henv, -⟩ := hsame
  refine ⟨t, ht, henv, hserves, hmem, hcfg, hframes, fun i hi => ?_⟩
  have hshadow : ∀ u : State, u.cfg = s.cfg → t.ram = u.ram → t.shadow i = u.shadow i := fun u hu hr => by
    simp only [State.shadow, State.cell, hcfg, hu, hr]
  cases d with
  | rd => exact .inl (hshadow s rfl hram)
  | wr =>
    rw [hshadow (s.setCell c (cycleIndex s.cfg c f g) x) rfl hram, shadow_setCell (wf_of_serves h) hm hl hi]
    split_ifs with hc
    · obtain ⟨rfl, rfl⟩ := hc
      exact .inr ⟨f, g, List.mem_singleton.2 rfl, rfl⟩
    · exact .inl rfl

theorem glitch_ran {s : State} (h : s.serves = true) (hm : s.memoriesOk = true) :
    ∃ t, glitch s = .ok t ∧ t.env = s.env ∧ BusRan [.glitch] s t :=
  ⟨_, glitch_of_ready (ready_of_serves h), rfl, h, hm, rfl, rfl, fun _ _ => .inl rfl⟩

/-- In-window cycles and glitches never stop a call. -/
theorem serveActs_ran (acts : List HostAct) {s : State} (h : s.serves = true) (hm : s.memoriesOk = true)
    (ha : ∀ a ∈ acts, a.mild s.cfg) : ∃ t, serveActs acts s = .ok () t ∧ t.env = s.env ∧ BusRan acts s t := by
  induction acts generalizing s with
  | nil => exact ⟨s, rfl, rfl, h, hm, rfl, rfl, fun _ _ => .inl rfl⟩
  | cons a acts ih =>
    obtain ⟨hhead, htail⟩ := List.forall_mem_cons.1 ha
    have rest : ∀ u, u.env = s.env → BusRan [a] s u →
        ∃ t, serveActs acts u = .ok () t ∧ t.env = s.env ∧ BusRan (a :: acts) s t := fun u hu hran => by
      obtain ⟨t, ht, henv, htr⟩ := ih hran.serves hran.memories (by rwa [hran.cfg])
      exact ⟨t, ht, henv.trans hu, hran.trans htr⟩
    cases a with
    | cycle c d f g x =>
      obtain ⟨u, hu, henv, hran⟩ := busCycle_ran d x h hm hhead
      simpa only [serveActs, hu] using rest u henv hran
    | glitch =>
      obtain ⟨u, hu, henv, hran⟩ := glitch_ran h hm
      simpa only [serveActs, hu] using rest u henv hran
    | lines l => exact hhead.elim
    | agent a => exact hhead.elim
    | reset => exact hhead.elim

/-! ### The byte accesses and frames of a call with mild races -/

/-- The block serves cycles, and nothing that is pending can stop a call: its races are mild and no frame will be cut. -/
structure RaceReady (s : State) : Prop where
  serves : s.serves = true
  memories : s.memoriesOk = true
  races : ∀ l ∈ s.env.races, ∀ a ∈ l, a.mild s.cfg
  uncut : ∀ o ∈ s.env.outcomes, o ≠ .cut

theorem raceReady_of {s : State} (h : s.serves = true) (hm : s.memoriesOk = true) (hr : s.racesInWindow = true)
    (hp : s.powerStays = true) : RaceReady s := by
  simp only [State.powerStays, Bool.and_eq_true, List.all_eq_true, decide_eq_true_eq] at hp
  exact ⟨h, hm, (racesInWindow_iff s).1 hr, hp.1⟩

theorem raceWindow_ran {s : State} (h : RaceReady s) : ∃ t, raceWindow s = .ok () t ∧ RaceReady t ∧
    t.env.races = s.env.races.tail ∧ BusRan (s.env.races.headD []) s t := by
  unfold raceWindow
  split
  · next hr => exact ⟨s, rfl, h, by simp [hr], h.serves, h.memories, rfl, rfl, fun _ _ => .inl rfl⟩
  · next acts rest hr =>
    have hmild := h.races
    rw [hr, List.forall_mem_cons] at hmild
    obtain ⟨t, ht, henv, hran⟩ := serveActs_ran acts (s := { s with env := { s.env with races := rest } }) h.serves
      h.memories hmild.1
    refine ⟨t, ht, ⟨hran.serves, hran.memories, ?_, ?_⟩, by rw [henv, hr]; rfl, ?_⟩
    · rw [henv, hran.cfg]
      exact hmild.2
    · rw [henv]
      exact h.uncut
    · rw [hr]
      exact ⟨hran.serves, hran.memories, hran.cfg, hran.frames, hran.cells⟩

theorem softRead_ran {s : State} {i : Nat} (h : RaceReady s) (hi : i < s.cfg.len) :
    ∃ t, softRead i s = .ok (t.shadow i) t ∧ RaceReady t ∧ t.env.races = s.env.races.tail ∧
      BusRan (s.env.races.headD []) s t := by
  obtain ⟨t, ht, hready, hraces, hran⟩ := raceWindow_ran h
  refine ⟨t, ?_, hready, hraces, hran⟩
  rw [softRead, ht, bind_ok, if_pos (by rwa [hran.cfg])]

theorem flatten_take_succ {α : Type} (ls : List (List α)) (k : Nat) :
    (ls.take (k + 1)).flatten = ls.headD [] ++ (ls.tail.take k).flatten := by
  cases ls <;> simp

/-- Each byte a call reads was in its cell at the start or came there by a primary write that fell before its read. -/
theorem softReads_ran (n : Nat) {s : State} {i : Nat} (h : RaceReady s) (hi : i + n ≤ s.cfg.len) :
    ∃ bs t, softReads n i s = .ok bs t ∧ RaceReady t ∧ t.frames = s.frames ∧ bs.length = n ∧
      ∀ j b, bs[j]? = some b → b = s.shadow (i + j) ∨ BusWrote s.cfg (s.env.races.take (j + 1)).flatten (i + j) b := by
  induction n generalizing i s with
  | zero => exact ⟨[], s, rfl, h, rfl, rfl, by simp⟩
  | succ n ih =>
    obtain ⟨u, hu, hready, hraces, hran⟩ := softRead_ran (i := i) h (by omega)
    obtain ⟨bs, t, ht, htready, hframes, hlen, hbytes⟩ := ih (i := i + 1) hready (by rw [hran.cfg]; omega)
    refine ⟨u.shadow i :: bs, t, ?_, htready, hframes.trans hran.frames, by rw [List.length_cons, hlen], fun j b hb => ?_⟩
    · rw [softReads, hu, bind_ok, ht, bind_ok]
    · rw [flatten_take_succ]
      cases j with
      | zero =>
        obtain rfl : u.shadow i = b := by simpa using hb
        simpa using hran.cells i (by omega)
      | succ j =>
        rw [List.getElem?_cons_succ] at hb
        have hj : j < n := hlen ▸ (List.getElem?_eq_some_iff.1 hb).1
        have hidx : i + (j + 1) = i + 1 + j := by omega
        rw [hidx]
        rcases hbytes j b hb with rfl | hw
        · exact (hran.cells (i + 1 + j) (by omega)).imp_right fun hw => hw.mono (List.subset_append_left _ _)
        · rw [hran.cfg, hraces] at hw
          exact .inr (hw.mono (List.subset_append_right _ _))

/-- The store's part in a frame, worked or failed: its cells, its latch, its status, and free values drawn. -/
theorem device_eq {c : WireCmd} {s d : State} (hd : d = (devOk c s).2 ∨ d = devFailed c s) :
    ∃ m w r k, d = { s with nv := m, wel := w, sr := r, fresh := k } := by
  rcases hd with rfl | rfl <;> cases c <;> exact ⟨_, _, _, _, rfl⟩

/-- A frame that no RESET cuts ends with one line of the trace, whatever its outcome (R191, R224). -/
theorem xferLogged_uncut {s : State} (op : XferOp) (addr n : Nat) (c : WireCmd) (h : ∀ o ∈ s.env.outcomes, o ≠ .cut) :
    ∃ rx d lg, (d = (devOk c s).2 ∨ d = devFailed c s) ∧
      xferLogged op addr n c s = .ok rx (({ d with log := lg } : State).afterFrames [⟨c.tx, rx⟩]) := by
  cases ho : s.env.outcomes with
  | nil => exact ⟨_, _, _, .inl rfl, xferLogged_works op addr n c (by simp [State.frameWorks, ho])⟩
  | cons o os =>
    cases o with
    | ok => exact ⟨_, _, _, .inl rfl, xferLogged_works op addr n c (by simp [State.frameWorks, ho])⟩
    | short rx => exact ⟨_, _, _, .inr rfl, xferLogged_short op addr n c (rx := rx) (by simp [ho])⟩
    | fail => exact ⟨_, _, _, .inr rfl, xferLogged_fail op addr n c (by simp [ho])⟩
    | cut => exact absurd rfl (h .cut (by simp [ho]))

theorem xferLogged_ran {s : State} (op : XferOp) (addr n : Nat) (c : WireCmd) (h : RaceReady s) :
    ∃ rx t, xferLogged op addr n c s = .ok rx t ∧ RaceReady t ∧ t.frames = s.frames ++ [⟨c.tx, rx⟩] := by
  obtain ⟨rx, d, lg, hd, hx⟩ := xferLogged_uncut op addr n c h.uncut
  have hm : d.memoriesOk = true := by
    rcases hd with rfl | rfl
    exacts [kept_memoriesOk.devOk c h.memories, kept_memoriesOk.devFailed c h.memories]
  obtain ⟨m, w, r, k, rfl⟩ := device_eq hd
  exact ⟨rx, _, hx, ⟨h.serves, hm, h.races, fun o ho => h.uncut o (List.mem_of_mem_drop ho)⟩, rfl⟩

theorem driverFrame_ran {s : State} (op : XferOp) (addr n : Nat) (c : WireCmd) (h : RaceReady s) :
    ∃ rx t, driverFrame op addr n c s = .ok rx t ∧ RaceReady t ∧ t.frames = s.frames ++ [⟨c.tx, rx⟩] := by
  obtain ⟨u, hu, hready, -, hran⟩ := raceWindow_ran h
  obtain ⟨rx, t, ht, htready, hframes⟩ := xferLogged_ran op addr n c hready
  exact ⟨rx, t, by rw [driverFrame, hu, bind_ok, ht], htready, by rw [hframes, hran.frames]⟩

/-- A chunk is sent as its WREN and WRITE frames whatever the store answers (R212). -/
theorem nvWriteChunk_ran {s : State} (addr : Nat) (p : List Byte) (h : RaceReady s) :
    ∃ t, nvWriteChunk addr p s = .ok () t ∧ RaceReady t ∧
      t.frames.map FrameRecord.tx = s.frames.map FrameRecord.tx ++ writePair addr p := by
  obtain ⟨rx1, u, hu, hready, hf1⟩ := driverFrame_ran .wren addr 0 .wren h
  obtain ⟨rx2, t, ht, htready, hf2⟩ := driverFrame_ran .write addr p.length (.write (storeAddr addr) p) hready
  refine ⟨t, by rw [nvWriteChunk, hu, bind_ok, ht, bind_ok], htready, ?_⟩
  simp [hf2, hf1, writePair, WireCmd.tx]

/-- A write of one chunk. -/
theorem nvWriteOp_one_chunk {s : State} {addr : Nat} {bs : List Byte} (ha : addr + bs.length ≤ 65536) (hpos : 0 < bs.length)
    (hle : bs.length ≤ 16) : nvWriteOp addr bs s = nvWriteChunk addr bs s := by
  have hone : chunkCount bs.length = 1 := by
    unfold chunkCount
    omega
  rw [nvWriteOp, if_neg (by omega), hone, chunksOf, chunksOf, nvWriteChunks, List.take_of_length_le hle]
  cases nvWriteChunk addr bs s <;> rfl

theorem nextCursor_lt {len : Nat} (h : 0 < len) (cursor : Nat) : nextCursor len cursor < len := by
  unfold nextCursor
  split_ifs <;> omega

/-- A chunk of the region is read and persisted as its two frames, whatever mild races fall in between (R216, R222). -/
theorem persistChunk_ran {s : State} {c : Nat} (h : RaceReady s) (hc : c < s.cfg.len) :
    ∃ bs t, persistChunk c s = .ok () t ∧ bs.length = chunkLen s.cfg.len c ∧
      t.frames.map FrameRecord.tx = s.frames.map FrameRecord.tx ++ writePair c bs ∧
      ∀ j b, bs[j]? = some b → b = s.shadow (c + j) ∨ BusWrote s.cfg (s.env.races.take (j + 1)).flatten (c + j) b := by
  have hchunk : chunkLen s.cfg.len c = min 16 (s.cfg.len - c) := rfl
  obtain ⟨-, hmax⟩ := len_range (wf_of_serves h.serves)
  obtain ⟨bs, u, hu, hready, hframes, hlen, hbytes⟩ := softReads_ran (chunkLen s.cfg.len c) (i := c) h (by omega)
  obtain ⟨t, ht, -, htx⟩ := nvWriteChunk_ran c bs hready
  refine ⟨bs, t, ?_, hlen, by rw [htx, hframes], hbytes⟩
  rw [persistChunk, hu, bind_ok, show nvImageBase + c = c from Nat.zero_add c,
    nvWriteOp_one_chunk (by omega) (by omega) (by omega), ht]

/-- Settles O43: the chunk at the new cursor is read a byte at a time, each read after its own races. -/
theorem racingBackupNotTorn : Obligations.RacingBackupNotTorn := by
  unfold Obligations.RacingBackupNotTorn
  rintro s c n hs hm hr hp hc rfl
  obtain ⟨hpos, -⟩ := len_range (wf_of_serves hs)
  obtain rfl : c = nextCursor s.cfg.len s.cursor := hc
  obtain ⟨bs, t, ht, hlen, hframes, hbytes⟩ := persistChunk_ran (s := { s with cursor := nextCursor s.cfg.len s.cursor })
    (raceReady_of hs hm hr hp) (nextCursor_lt hpos s.cursor)
  have hop : backupTickOp s = .ok () t := ht
  refine ⟨{ t with result := .done }, bs, ?_, hlen, hframes, fun j b hb => (hbytes j b hb).imp_right ?_⟩
  · show finish ((backupTickOp s).bind fun _ s1 => .ok .done s1) = _
    rw [hop]
    rfl
  · rintro ⟨f, g, hmem, hi⟩
    obtain ⟨acts, hacts, hin⟩ := List.mem_flatten.1 hmem
    exact ⟨acts, hacts, f, g, hin, hi⟩

end Sys2Proof.Machine

namespace Sys2Proof

/-! ### The encoding: what each format's decoder accepts (spec/30)

One inversion per format of R91, R92 and R96: the frame, argument list or vector that is accepted is the one the encoder
writes for the answer. -/

/-- What an operand check that answers `i` says. -/
theorem checked_eq_ok {c : Prop} [Decidable c] {i j : Instr} {e : DecodeError}
    (h : (if c then .ok i else .error e) = (.ok j : Except DecodeError Instr)) : c ∧ i = j := by
  split_ifs at h with hc
  exact ⟨hc, Except.ok.inj h⟩

theorem decodeWire0_eq_ok {i j : Instr} {rest : List Byte} {n : Nat} (h : decodeWire0 i rest n = .ok j) :
    rest = [] ∧ n = 0 ∧ i = j := by
  cases rest with
  | nil => exact ⟨rfl, checked_eq_ok h⟩
  | cons => nomatch h

theorem decodeRdsr_eq_ok {i : Instr} {rest : List Byte} {n : Nat} (h : decodeRdsr rest n = .ok i) :
    rest = [] ∧ n = 1 ∧ .rdsr = i := by
  cases rest with
  | nil => exact ⟨rfl, checked_eq_ok h⟩
  | cons => nomatch h

theorem decodeWrsr_eq_ok {i : Instr} {rest : List Byte} {n : Nat} (h : decodeWrsr rest n = .ok i) :
    ∃ v, rest = [v] ∧ n = 0 ∧ .wrsr v = i := by
  match rest with
  | [] => nomatch h
  | [v] => exact ⟨v, rfl, checked_eq_ok h⟩
  | _ :: _ :: _ => nomatch h

theorem decodeRead_eq_ok {i : Instr} {rest : List Byte} {n : Nat} (h : decodeRead rest n = .ok i) :
    ∃ hi lo, rest = [hi, lo] ∧ 1 ≤ n ∧ .read (addrOf hi lo) n = i := by
  match rest with
  | [] | [_] => nomatch h
  | [hi, lo] => exact ⟨hi, lo, rfl, checked_eq_ok h⟩
  | _ :: _ :: _ :: _ => nomatch h

theorem decodeWrite_eq_ok {i : Instr} {rest : List Byte} {n : Nat} (h : decodeWrite rest n = .ok i) :
    ∃ hi lo p, rest = hi :: lo :: p ∧ n = 0 ∧ .write (addrOf hi lo) p = i := by
  match rest with
  | [] | [_] => nomatch h
  | hi :: lo :: p => exact ⟨hi, lo, p, rfl, checked_eq_ok h⟩

theorem decodeCall0_eq_ok {i j : Instr} {args : List Arg} (h : decodeCall0 i args = .ok j) : args = [] ∧ i = j := by
  cases args with
  | nil => simpa [decodeCall0] using h
  | cons => nomatch h

theorem decodeArm_eq_ok {i : Instr} {args : List Arg} (h : decodeArm args = .ok i) :
    ∃ b out inn, args = [.nat b, .nat out, .nat inn] ∧ .arm b out inn = i := by
  unfold decodeArm at h
  split at h
  · next b out inn => exact ⟨b, out, inn, rfl, Except.ok.inj h⟩
  · nomatch h

theorem decodeNvRead_eq_ok {i : Instr} {args : List Arg} (h : decodeNvRead args = .ok i) :
    ∃ a n, args = [.addr a, .nat n] ∧ .nvRead a n = i := by
  unfold decodeNvRead at h
  split at h
  · next a n => exact ⟨a, n, rfl, Except.ok.inj h⟩
  · nomatch h

theorem decodeNvWrite_eq_ok {i : Instr} {args : List Arg} (h : decodeNvWrite args = .ok i) :
    ∃ a bs, args = [.addr a, .bytes bs] ∧ .nvWrite a bs = i := by
  unfold decodeNvWrite at h
  split at h
  · next a bs => exact ⟨a, bs, rfl, Except.ok.inj h⟩
  · nomatch h

theorem decodeImport_eq_ok {i : Instr} {args : List Arg} (h : decodeImport args = .ok i) :
    ∃ zs, args = [.ints zs] ∧ .importImage zs = i := by
  unfold decodeImport at h
  split at h
  · next zs => exact ⟨zs, rfl, Except.ok.inj h⟩
  · nomatch h

/-! ### The three ports -/

/-- The six opcodes of R96, each with its format of R92. -/
theorem encode_of_decodeWire {tx : List Byte} {n : Nat} {i : Instr} (h : decodeWire tx n = .ok i) :
    i.wf = true ∧ encode i = .wire tx n := by
  cases tx with
  | nil => nomatch h
  | cons op rest =>
    dsimp only [decodeWire] at h
    obtain ⟨rfl, h⟩ | ⟨-, h⟩ := ite_eq_iff.1 h
    · -- WREN
      obtain ⟨rfl, rfl, rfl⟩ := decodeWire0_eq_ok h
      exact ⟨rfl, rfl⟩
    obtain ⟨rfl, h⟩ | ⟨-, h⟩ := ite_eq_iff.1 h
    · -- WRDI
      obtain ⟨rfl, rfl, rfl⟩ := decodeWire0_eq_ok h
      exact ⟨rfl, rfl⟩
    obtain ⟨rfl, h⟩ | ⟨-, h⟩ := ite_eq_iff.1 h
    · -- RDSR
      obtain ⟨rfl, rfl, rfl⟩ := decodeRdsr_eq_ok h
      exact ⟨rfl, rfl⟩
    obtain ⟨rfl, h⟩ | ⟨-, h⟩ := ite_eq_iff.1 h
    · -- WRSR
      obtain ⟨v, rfl, rfl, rfl⟩ := decodeWrsr_eq_ok h
      exact ⟨rfl, rfl⟩
    obtain ⟨rfl, h⟩ | ⟨-, h⟩ := ite_eq_iff.1 h
    · -- READ
      obtain ⟨hi, lo, rfl, hn, rfl⟩ := decodeRead_eq_ok h
      exact ⟨decide_eq_true hn, by simp [encode, WireCmd.packet, WireCmd.tx, WireCmd.count, addrHi_of, addrLo_of]⟩
    obtain ⟨rfl, h⟩ | ⟨-, h⟩ := ite_eq_iff.1 h
    · -- WRITE
      obtain ⟨hi, lo, p, rfl, rfl, rfl⟩ := decodeWrite_eq_ok h
      exact ⟨rfl, by simp [encode, WireCmd.packet, WireCmd.tx, WireCmd.count, addrHi_of, addrLo_of]⟩
    nomatch h

/-- A selector of a call without arguments. -/
theorem encode_of_decodeCall0 {sel : Byte} {args : List Arg} {i j : Instr} (h : decodeCall0 i args = .ok j)
    (hwf : i.wf = true) (henc : encode i = .call sel []) : j.wf = true ∧ encode j = .call sel args := by
  obtain ⟨rfl, rfl⟩ := decodeCall0_eq_ok h
  exact ⟨hwf, henc⟩

/-- The eleven selectors of R96, each with its arguments. -/
theorem encode_of_decodeCall {sel : Byte} {args : List Arg} {i : Instr} (h : decodeCall sel args = .ok i) :
    i.wf = true ∧ encode i = .call sel args := by
  unfold decodeCall at h
  obtain ⟨rfl, h⟩ | ⟨-, h⟩ := ite_eq_iff.1 h
  · exact encode_of_decodeCall0 h rfl rfl
  obtain ⟨rfl, h⟩ | ⟨-, h⟩ := ite_eq_iff.1 h
  · exact encode_of_decodeCall0 h rfl rfl
  obtain ⟨rfl, h⟩ | ⟨-, h⟩ := ite_eq_iff.1 h
  · exact encode_of_decodeCall0 h rfl rfl
  obtain ⟨rfl, h⟩ | ⟨-, h⟩ := ite_eq_iff.1 h
  · obtain ⟨b, out, inn, rfl, rfl⟩ := decodeArm_eq_ok h
    exact ⟨rfl, rfl⟩
  obtain ⟨rfl, h⟩ | ⟨-, h⟩ := ite_eq_iff.1 h
  · exact encode_of_decodeCall0 h rfl rfl
  obtain ⟨rfl, h⟩ | ⟨-, h⟩ := ite_eq_iff.1 h
  · obtain ⟨a, n, rfl, rfl⟩ := decodeNvRead_eq_ok h
    exact ⟨rfl, rfl⟩
  obtain ⟨rfl, h⟩ | ⟨-, h⟩ := ite_eq_iff.1 h
  · obtain ⟨a, bs, rfl, rfl⟩ := decodeNvWrite_eq_ok h
    exact ⟨rfl, rfl⟩
  obtain ⟨rfl, h⟩ | ⟨-, h⟩ := ite_eq_iff.1 h
  · exact encode_of_decodeCall0 h rfl rfl
  obtain ⟨rfl, h⟩ | ⟨-, h⟩ := ite_eq_iff.1 h
  · exact encode_of_decodeCall0 h rfl rfl
  obtain ⟨rfl, h⟩ | ⟨-, h⟩ := ite_eq_iff.1 h
  · exact encode_of_decodeCall0 h rfl rfl
  obtain ⟨rfl, h⟩ | ⟨-, h⟩ := ite_eq_iff.1 h
  · obtain ⟨zs, rfl, rfl⟩ := decodeImport_eq_ok h
    exact ⟨rfl, rfl⟩
  nomatch h

/-- The four vectors with the strobe (R91). -/
theorem strobe_vector : ∀ v : BitVec 3, v.getLsbD 2 = true → v = 0b100 ∨ v = 0b101 ∨ v = 0b110 ∨ v = 0b111 := by
  decide

/-- Every vector with the strobe is a bus cycle; the data lines of a read are no operand. -/
theorem encode_decodeBus {v : BitVec 3} (f g : Nat) (d : Byte) (hv : v.getLsbD 2 = true) :
    (decodeBus v f g d).wf = true ∧ encode (decodeBus v f g d) = .bus v f g (if v.getLsbD 0 then 0 else d) := by
  rcases strobe_vector v hv with rfl | rfl | rfl | rfl <;> exact ⟨rfl, rfl⟩

/-- Without the strobe no cycle is decoded, whatever `CHSEL` and `DIR` are (R117). -/
theorem decodeBus_of_no_strobe {v : BitVec 3} (f g : Nat) (d : Byte) (hv : v.getLsbD 2 = false) :
    decodeBus v f g d = .nocyc (v.getLsbD 1) (v.getLsbD 0) := by
  have hne : v ≠ 0b101 ∧ v ≠ 0b100 ∧ v ≠ 0b111 ∧ v ≠ 0b110 := by
    refine ⟨?_, ?_, ?_, ?_⟩ <;> rintro rfl <;> simp at hv
  obtain ⟨hprd, hpwr, hsrd, hswr⟩ := hne
  rw [decodeBus, if_neg hprd, if_neg hpwr, if_neg hsrd, if_neg hswr]

/-- The vector of a sample without the strobe holds the two bits the sample does not look at. -/
theorem decodeBus_nocycVector (chsel dir : Bool) (f g : Nat) (d : Byte) :
    decodeBus (nocycVector chsel dir) f g d = .nocyc chsel dir := by
  cases chsel <;> cases dir <;> rfl

/-! ### The round trips -/

/-- Settles O1, by the operation: an address is put together from its own two bytes, and a READ asks for at least one byte. -/
theorem decodeOfEncode : Obligations.DecodeOfEncode := by
  unfold Obligations.DecodeOfEncode
  intro i hwf
  cases i with
  | prd | pwr | srd | swr => rfl
  | nocyc chsel dir => exact congrArg Except.ok (decodeBus_nocycVector chsel dir 0 0 0)
  | wren | wrdi | rdsr | wrsr => rfl
  | read a n =>
    calc decode (encode (.read a n))
      _ = if 1 ≤ n then .ok (.read (addrOf (addrHi a) (addrLo a)) n) else .error .badResponseCount := rfl
      _ = .ok (.read a n) := by rw [if_pos (of_decide_eq_true hwf), addrOf_hi_lo]
  | write a p =>
    calc decode (encode (.write a p))
      _ = .ok (.write (addrOf (addrHi a) (addrLo a)) p) := rfl
      _ = .ok (.write a p) := by rw [addrOf_hi_lo]
  | boot | probe | restore | arm | repair => rfl
  | nvRead | nvWrite | backupTick | writeAllNow | exportImage | importImage => rfl

/-- Settles O2, port by port. -/
theorem encodeOfDecode : Obligations.EncodeOfDecode := by
  unfold Obligations.EncodeOfDecode
  refine ⟨fun tx n i h => ?wire, fun sel args i h => ?call, fun v f g d hv => ?strobe, fun v f g d hv => ?noStrobe⟩
  case wire => exact encode_of_decodeWire h
  case call => exact encode_of_decodeCall h
  case strobe => exact ⟨decodeBus v f g d, rfl, encode_decodeBus f g d hv⟩
  case noStrobe => exact congrArg Except.ok (decodeBus_of_no_strobe f g d hv)

/-- Settles O3: each word is a closed packet. -/
theorem decodeOfTableWords : Obligations.DecodeOfTableWords := by
  unfold Obligations.DecodeOfTableWords
  decide

/-- Settles O5: the event at the head of the script is handled, and a packet is handled by its decoding. -/
theorem stepRunsDecoded : Obligations.StepRunsDecoded := by
  unfold Obligations.StepRunsDecoded
  intro s p i hdecode
  rw [Machine.step_withEvent, Machine.handle, hdecode]

end Sys2Proof

namespace Sys2Proof.Machine

/-! ### The classifier (R111 to R116) -/

/-- Dispatch of a read class: its trigger queue fills (R113, R114). -/
theorem clsDispatch_rd {s : State} {k : CycleClass} (hk : classify s.lines.chsel s.lines.dir = k) (hd : k.dir = .rd)
    (hq : (s.chan k.channel).trigRd = none) :
    clsDispatch s =
      .ok { s.setChan k.channel { s.chan k.channel with trigRd := some () } with cls := .busy k } := by
  simp only [clsDispatch, pushTrig, hk, hd, hq, push_empty]
  rfl

/-- Dispatch of a write class: its trigger queue fills (R113, R114). -/
theorem clsDispatch_wr {s : State} {k : CycleClass} (hk : classify s.lines.chsel s.lines.dir = k) (hd : k.dir = .wr)
    (hq : (s.chan k.channel).trigWr = none) :
    clsDispatch s =
      .ok { s.setChan k.channel { s.chan k.channel with trigWr := some () } with cls := .busy k } := by
  simp only [clsDispatch, pushTrig, hk, hd, hq, push_empty]
  rfl

theorem clsStep_settle {s : State} (hc : s.cls = .settle) (hs : s.lines.strobe = true) :
    clsStep s = some (clsDispatch s) := by
  simp [clsStep, hc, hs]

theorem clsStep_idle_quiet {s : State} (hc : s.cls = .idle) (hs : s.lines.strobe = false) : clsStep s = none := by
  simp [clsStep, hc, hs]

/-- While the arbiter withholds the classifier has no step (R115). -/
theorem clsStep_busy_waiting {s : State} {k : CycleClass} (hc : s.cls = .busy k) (hd : s.done = none) :
    clsStep s = none := by
  simp [clsStep, hc, hd]

theorem clsStep_busy_done {s : State} {k : CycleClass} (hc : s.cls = .busy k) (hd : s.done = some ()) :
    clsStep s = some (.ok { s with done := none, cls := .release }) := by
  simp only [clsStep, hc, hd]
  rfl

/-- With the strobe stuck the classifier stays in `C_RELEASE` (R116, R119). -/
theorem clsStep_release_stuck {s : State} (hc : s.cls = .release) (hs : s.lines.strobe = true) : clsStep s = none := by
  simp [clsStep, hc, hs]

theorem clsStep_release_gone {s : State} (hc : s.cls = .release) (hs : s.lines.strobe = false) :
    clsStep s = some (.ok { s with cls := .idle }) := by
  simp [clsStep, hc, hs]

/-- The event of an agent that has no step changes nothing (log 37). -/
theorem step_agent_none {s : State} {a : Agent} (ha : a ≠ .bootSeq) (h : agentStep a s = none) :
    step (s.withEvent (.agent a)) = .next s := by
  rw [step_agent ha, h]
  rfl

/-- Settles O8, position by position of `CLS`. -/
theorem classifierSteps : Obligations.ClassifierSteps := by
  unfold Obligations.ClassifierSteps
  intro s
  refine ⟨fun hstopped => step_agent_none nofun (agentStep_of_not_runs hstopped .cls), fun hrun => ?_⟩
  have stays (h : clsStep s = none) : step (s.withEvent (.agent .cls)) = .next s :=
    step_agent_none nofun ((agentStep_of_runs hrun .cls).trans h)
  have moves {t : State} (h : clsStep s = some (.ok t)) : step (s.withEvent (.agent .cls)) = .next t :=
    step_agent_next hrun nofun h
  have dispatches {t : State} (hc : s.cls = .settle) (hs : s.lines.strobe = true) (h : clsDispatch s = .ok t) :
      step (s.withEvent (.agent .cls)) = .next t :=
    moves ((clsStep_settle hc hs).trans (congrArg some h))
  refine ⟨?seen, ?idle, ?dropped, ?prd, ?pwr, ?srd, ?swr, ?waiting, ?done, ?stuck, ?gone⟩
  case seen => exact fun hc hs => moves ((agentStep_of_runs hrun .cls).symm.trans (agentStep_cls_idle hrun hc hs))
  case idle => exact fun hc hs => stays (clsStep_idle_quiet hc hs)
  case dropped => exact fun hc hs => moves ((agentStep_of_runs hrun .cls).symm.trans (agentStep_cls_settle hrun hc hs))
  case prd => exact fun hc hs hch hd hq => dispatches hc hs (clsDispatch_rd (k := .prd) (by rw [hch, hd]; rfl) rfl hq)
  case pwr => exact fun hc hs hch hd hq => dispatches hc hs (clsDispatch_wr (k := .pwr) (by rw [hch, hd]; rfl) rfl hq)
  case srd => exact fun hc hs hch hd hq => dispatches hc hs (clsDispatch_rd (k := .srd) (by rw [hch, hd]; rfl) rfl hq)
  case swr => exact fun hc hs hch hd hq => dispatches hc hs (clsDispatch_wr (k := .swr) (by rw [hch, hd]; rfl) rfl hq)
  case waiting => exact fun k hc hd => stays (clsStep_busy_waiting hc hd)
  case done => exact fun k hc hd => moves (clsStep_busy_done hc hd)
  case stuck => exact fun hc hs => stays (clsStep_release_stuck hc hs)
  case gone => exact fun hc hs => moves (clsStep_release_gone hc hs)

/-- Settles O19: the event is a glitch on a resting block. -/
theorem glitchDropped : Obligations.GlitchDropped := by
  unfold Obligations.GlitchDropped
  intro s hready
  calc step (s.withEvent .glitch)
    _ = ofCycle (glitch s) := step_withEvent s .glitch
    _ = .next (endCycle s) := by rw [glitch_of_ready hready, ofCycle]

/-! ### A strobe that sticks (R119, R302) -/

/-- A resting engine whose strobe is stuck after a served cycle has no step at all. -/
theorem agentStep_of_stuck {s : State} (hc : s.cls = .release) (hs : s.lines.strobe = true) (hrest : s.engineAtRest = true)
    (a : Agent) : agentStep a s = none := by
  cases hr : s.engineRuns with
  | false => exact agentStep_of_not_runs hr a
  | true =>
    have hresting : ∀ c, (s.chan c).resting = true := by
      simp only [State.engineAtRest, Bool.and_eq_true] at hrest
      obtain ⟨⟨⟨hP, hS⟩, -⟩, -⟩ := hrest
      intro c
      cases c
      exacts [hP, hS]
    rw [agentStep_of_runs hr]
    cases a with
    | cls => exact clsStep_release_stuck hc hs
    | bootSeq => rfl
    | acu c | rdChain c | rr c | wc c | wrChain c => simp [engineAgentStep, resting_no_step (hresting c)]

/-- A block in `B_RUNNING` whose engine runs, with nothing left of the script and the strobe asserted. -/
structure State.StrobeHeld (s : State) : Prop where
  runs : s.engineRuns = true
  running : s.boot = .bRunning
  scriptDone : s.env.events = []
  strobe : s.lines.strobe = true

/-- No micro-step of the engine moves the host's lines. -/
theorem Move.lines {a : Agent} {s t : State} (h : Move s a t) : t.lines = s.lines := by
  cases h <;> simp

theorem engineStep_strobeHeld {s t : State} (h : s.StrobeHeld) (hs : engineStep s = some (.ok t)) : t.StrobeHeld := by
  obtain ⟨a, -, ha⟩ := List.exists_of_findSome?_eq_some hs
  obtain ⟨-, hmove⟩ := move_of_agentStep ha
  obtain ⟨-, -, -, -, -, -, -, -, -, hboot, -, -, -, -, henv, harmed, -⟩ := hmove.software
  refine ⟨?_, hboot.trans h.running, henv ▸ h.scriptDone, hmove.lines ▸ h.strobe⟩
  simpa [State.engineRuns, harmed, hboot] using h.runs

/-- The block moves by itself, and the strobe stays where the host holds it. -/
theorem step_strobeHeld {s t : State} (h : s.StrobeHeld) (ht : step s = .next t) : t.StrobeHeld := by
  have hstep : step s = ofMicro (engineStep s) s := by
    simp [step, fetch, h.scriptDone, idle, BootState.final, h.running]
  exact ofMicro_keeps h (fun u hu => engineStep_strobeHeld h hu) (hstep ▸ ht)

/-- While the strobe is held no run has ended: in `C_IDLE` the classifier still has a step, and elsewhere the block is not
quiescent. -/
theorem not_runEnded_of_strobeHeld {s : State} (h : s.StrobeHeld) : s.runEnded ≠ true := by
  intro hend
  obtain ⟨harmed, -⟩ := (engineRuns_iff s).1 h.runs
  simp only [State.runEnded, State.eventsServed, State.quiescent, Bool.and_eq_true, Option.isNone_iff_eq_none, harmed,
    Bool.not_true, Bool.false_or, decide_eq_true_eq] at hend
  obtain ⟨⟨-, hnone⟩, ⟨⟨⟨⟨-, hidle⟩, -⟩, -⟩, -⟩, -⟩ := hend
  rw [engineStep_of_cls (agentStep_cls_idle h.runs hidle h.strobe)] at hnone
  cases hnone

/-- What every step keeps holds at the end of a run. -/
theorem runToEnd_keeps {P : State → Prop} (hstep : ∀ {u v}, P u → step u = .next v → P v) (n : Nat) {s t : State}
    (h : P s) (ht : runToEnd n s = some (.next t)) : P t := by
  induction n generalizing s with
  | zero =>
    unfold runToEnd at ht
    split_ifs at ht
    cases ht
    exact h
  | succ n ih =>
    unfold runToEnd at ht
    split_ifs at ht
    · cases ht
      exact h
    · split at ht
      · next u hu => exact ih (hstep h hu) ht
      · cases ht
      · cases ht

/-- Settles O20: no agent has a step, and the held strobe outlasts every run. -/
theorem stuckStrobeStalls : Obligations.StuckStrobeStalls := by
  unfold Obligations.StuckStrobeStalls
  refine ⟨fun s a hc hs hrest ha => ?stall, fun s t n hruns hrunning hevents hstrobe hend => ?noEnd⟩
  case stall => exact step_agent_none ha (agentStep_of_stuck hc hs hrest a)
  case noEnd =>
    have hheld : t.StrobeHeld := runToEnd_keeps step_strobeHeld n ⟨hruns, hrunning, hevents, hstrobe⟩ hend
    exact not_runEnded_of_strobeHeld hheld (runEnded_of_runToEnd hend)

/-! ### Reads after writes (R73) -/

/-- Two cells of the two arrays have one local address only where they are one cell (R11). -/
theorem cellAddr_inj {g : Config} (hw : g.wf = true) {c d : Channel} {i j : Nat} (hi : i < windowLen g c)
    (hj : j < windowLen g d) : windowBase g d + j = windowBase g c + i ↔ c = d ∧ i = j := by
  have hsep := windows_disjoint hw
  cases c <;> cases d <;> simp only [windowBase, windowLen, true_and, reduceCtorEq, false_and, iff_false] at hi hj ⊢ <;> omega

/-- A store into a cell of either array changes that cell alone. -/
theorem cell_setCell {s : State} (hw : s.cfg.wf = true) (hm : s.memoriesOk = true) {c d : Channel} {i j : Nat}
    (hi : i < windowLen s.cfg c) (hj : j < windowLen s.cfg d) (x : Byte) :
    (s.setCell c i x).cell d j = if c = d ∧ i = j then x else s.cell d j := by
  obtain ⟨hram, -⟩ := (memoriesOk_iff s).1 hm
  calc (s.setCell c i x).cell d j
    _ = if windowBase s.cfg d + j = windowBase s.cfg c + i then x else s.cell d j := memory_read_write hram _ _ x
    _ = if c = d ∧ i = j then x else s.cell d j := by simp only [cellAddr_inj hw hi hj]

/-- The host's cycles led from `s` to `t`: the block serves on, and every cell of both arrays holds the latest write to it. -/
structure CyclesRan (cs : List HostCycle) (s t : State) : Prop where
  serves : t.serves = true
  memories : t.memoriesOk = true
  cfg : t.cfg = s.cfg
  cells : ∀ c i, i < windowLen s.cfg c → t.cell c i = latestWrite s.cfg c i cs (s.cell c i)

theorem CyclesRan.cons {h : HostCycle} {cs : List HostCycle} {s t u : State} (hd : CyclesRan [h] s t)
    (tl : CyclesRan cs t u) : CyclesRan (h :: cs) s u where
  serves := tl.serves
  memories := tl.memories
  cfg := tl.cfg.trans hd.cfg
  cells c i hi := by
    rw [tl.cells c i (by rwa [hd.cfg]), hd.cfg, hd.cells c i hi]
    rfl

/-- One cycle inside its window is served, and only a write changes a cell: the one it addresses. -/
theorem exec_cycle_ran {s : State} {h : HostCycle} (hs : s.serves = true) (hm : s.memoriesOk = true)
    (hin : h.inWindow s.cfg = true) : ∃ t, exec h.instr s = .next t ∧ CyclesRan [h] s t := by
  have hl : h.index s.cfg < windowLen s.cfg h.chan := of_decide_eq_true hin
  obtain ⟨t, ht, hserves, ⟨hcfg, -⟩, hram⟩ := busCycle_served h.dir h.payload hs hl
  refine ⟨t, by rw [exec_cycle, ht, ofCycle], hserves, busCycle_kept kept_memoriesOk hm ht, hcfg, fun c i hi => ?_⟩
  have hcell (u : State) (hu : u.cfg = s.cfg) (hr : t.ram = u.ram) : t.cell c i = u.cell c i := by
    rw [State.cell, State.cell, hcfg, hu, hr]
  cases hd : h.dir with
  | rd =>
    rw [hd] at hram
    rw [hcell s rfl hram]
    simp [latestWrite, hd]
  | wr =>
    have hpay : h.payload = h.data := if_neg (by simp [hd])
    rw [hd, hpay] at hram
    rw [hcell (s.setCell h.chan (h.index s.cfg) h.data) rfl hram, cell_setCell (wf_of_serves hs) hm hl hi]
    simp [latestWrite, hd]

/-- A list of cycles inside their windows is served to its end. -/
theorem execAll_cycles_ran (cs : List HostCycle) {s : State} (hs : s.serves = true) (hm : s.memoriesOk = true)
    (hin : ∀ x ∈ cs, x.inWindow s.cfg = true) :
    ∃ t, execAll (cs.map HostCycle.instr) s = .next t ∧ CyclesRan cs s t := by
  induction cs generalizing s with
  | nil => exact ⟨s, rfl, hs, hm, rfl, fun _ _ _ => rfl⟩
  | cons h cs ih =>
    obtain ⟨hhead, htail⟩ := List.forall_mem_cons.1 hin
    obtain ⟨t, ht, hran⟩ := exec_cycle_ran hs hm hhead
    obtain ⟨u, hu, hrest⟩ := ih hran.serves hran.memories (by rwa [hran.cfg])
    exact ⟨u, by rw [List.map_cons, execAll, ht]; exact hu, hran.cons hrest⟩

/-- A read inside its window is served and samples the cell it addresses (R141, R161). -/
theorem exec_read_samples {s : State} {h : HostCycle} (hs : s.serves = true) (hin : h.inWindow s.cfg = true)
    (hd : h.dir = .rd) : ∃ u, exec h.instr s = .next u ∧ u.serves = true ∧
      u.sampled = s.sampled ++ [s.cell h.chan (h.index s.cfg)] := by
  refine ⟨_, by rw [exec_cycle, hd, busCycle_rd hs rfl (of_decide_eq_true hin), ofCycle], ?_, ?_⟩
  · exact serves_setChan hs rfl (serves_chan_resting hs h.chan)
  · simp [HostCycle.index]

/-- Settles O23, by induction on the cycles before the read. -/
theorem readsLatestWrite : Obligations.ReadsLatestWrite := by
  unfold Obligations.ReadsLatestWrite
  intro s cs h hs hm hcs hh hd
  obtain ⟨t, ht, hran⟩ := execAll_cycles_ran cs hs hm hcs
  obtain ⟨u, hu, huserves, hsampled⟩ := exec_read_samples hran.serves (by rwa [hran.cfg]) hd
  refine ⟨t, u, ht, hu, huserves, ?_⟩
  rw [hsampled, hran.cfg, hran.cells h.chan (h.index s.cfg) (of_decide_eq_true hh)]

end Sys2Proof.Machine

namespace Sys2Proof.Machine

/-! ### The address capture unit (R131 to R135) -/

/-- In its waiting position the unit takes a read trigger (R131). -/
theorem acuStep_wait_rd {c : Channel} {s : State} (hw : (s.chan c).acu = .wait) (hr : (s.chan c).trigRd = some ()) :
    acuStep c s = some (.ok (acuTake c .rd s)) := by
  simp only [acuStep, hw, hr]

/-- In its waiting position the unit takes a write trigger where there is no read trigger (R131). -/
theorem acuStep_wait_wr {c : Channel} {s : State} (hw : (s.chan c).acu = .wait) (hr : (s.chan c).trigRd = none)
    (hq : (s.chan c).trigWr = some ()) : acuStep c s = some (.ok (acuTake c .wr s)) := by
  simp only [acuStep, hw, hr, hq]

theorem acuStep_high {c : Channel} {s : State} (h : (s.chan c).acu = .high) : acuStep c s = some (.ok (acuHigh c s)) := by
  simp only [acuStep, h]

theorem acuStep_low {c : Channel} {s : State} (h : (s.chan c).acu = .low) : acuStep c s = some (acuLow c s) := by
  simp only [acuStep, h]

theorem acuStep_emit {c : Channel} {s : State} (h : (s.chan c).acu = .emit) : acuStep c s = some (acuEmit c s) := by
  simp only [acuStep, h]

/-- The second sub-phase refuses a window address outside the window (R135). -/
theorem acuLow_out {c : Channel} {s : State} {addr : Nat}
    (ha : addr = windowAddr s.cfg c (s.chan c).ahi (lowBits (alWidth s.cfg c) s.lines.amuxSecond))
    (hl : windowLen s.cfg c ≤ addr) : acuLow c s = .error (.indexOutOfRange c addr) := by
  subst ha
  exact if_pos hl

/-- The local address goes into the empty read index queue (R134). -/
theorem acuEmit_rd {c : Channel} {s : State} (hk : (s.chan c).akind = .rd) (hq : (s.chan c).idxRd = none) :
    acuEmit c s = .ok (s.setChan c { s.chan c with
      idxRd := some (localAddr s.cfg (s.chan c).baseReg (windowAddr s.cfg c (s.chan c).ahi (s.chan c).alo))
      acu := .wait }) := by
  simp only [acuEmit, hk, hq, push_empty]
  rfl

/-- The local address goes into the empty write index queue (R134). -/
theorem acuEmit_wr {c : Channel} {s : State} (hk : (s.chan c).akind = .wr) (hq : (s.chan c).idxWr = none) :
    acuEmit c s = .ok (s.setChan c { s.chan c with
      idxWr := some (localAddr s.cfg (s.chan c).baseReg (windowAddr s.cfg c (s.chan c).ahi (s.chan c).alo))
      acu := .wait }) := by
  simp only [acuEmit, hk, hq, push_empty]
  rfl

/-- The event of an agent whose step is a model fault is that fault. -/
theorem step_agent_fault {s : State} {a : Agent} {f : Fault} (hr : s.engineRuns = true) (ha : a ≠ .bootSeq)
    (h : engineAgentStep a s = some (.error f)) : step (s.withEvent (.agent a)) = .fault f := by
  rw [step_agent ha, agentStep_of_runs hr, h]
  rfl

/-- Settles O9, position by position of the unit. -/
theorem captureSteps : Obligations.CaptureSteps := by
  unfold Obligations.CaptureSteps
  intro s c hrun
  have moves {t : State} (h : acuStep c s = some (.ok t)) : step (s.withEvent (.agent (.acu c))) = .next t :=
    step_agent_next hrun nofun h
  refine ⟨?takeRd, ?takeWr, ?high, fun hlow addr haddr => ⟨fun hin => ?inside, fun hout => ?outside⟩,
    fun hemit la hla => ⟨fun hk hq => ?emitRd, fun hk hq => ?emitWr⟩⟩
  case takeRd => exact fun hw hr _ => moves (acuStep_wait_rd hw hr)
  case takeWr => exact fun hw hr hq => moves (acuStep_wait_wr hw hr hq)
  case high => exact fun h => moves (acuStep_high h)
  case inside =>
    have hok := acuLow_eq_ok.2 ⟨haddr ▸ hin, rfl⟩
    exact moves ((acuStep_low hlow).trans (congrArg some hok))
  case outside =>
    exact step_agent_fault hrun nofun ((acuStep_low hlow).trans (congrArg some (acuLow_out haddr hout)))
  case emitRd =>
    subst hla
    exact moves ((acuStep_emit hemit).trans (congrArg some (acuEmit_rd hk hq)))
  case emitWr =>
    subst hla
    exact moves ((acuStep_emit hemit).trans (congrArg some (acuEmit_wr hk hq)))

/-! ### Cycles outside their window (R135) -/

/-- Settles O17: each of the four bus-cycle operations is one cycle, and the capture unit faults on its address. -/
theorem outOfWindowFaults : Obligations.OutOfWindowFaults := by
  unfold Obligations.OutOfWindowFaults
  intro s h hserves hout
  have hl : windowLen s.cfg h.chan ≤ h.index s.cfg := Nat.le_of_not_lt (of_decide_eq_false hout)
  calc exec h.instr s
    _ = ofCycle (busCycle h.chan h.dir h.first h.second h.payload s) := exec_cycle h s
    _ = .fault (.indexOutOfRange h.chan (h.index s.cfg)) := by rw [busCycle_out hserves rfl hl, ofCycle, HostCycle.index]

end Sys2Proof.Machine

namespace Sys2Proof.Machine

/-! ### A read inside the primary window (R141 to R144) -/

/-- Settles O12: PRD is a read cycle on the primary channel, and the block serves it to its end. -/
theorem primaryReadServed : Obligations.PrimaryReadServed := by
  unfold Obligations.PrimaryReadServed
  intro s f g i hserves hi hl
  have hserved := busCycle_rd (c := .primary) (x := 0) hserves hi hl
  calc exec (.prd f g) s
    _ = ofCycle (busCycle .primary .rd f g 0 s) := exec_cycle ⟨.primary, .rd, f, g, 0⟩ s
    _ = _ := by
      rw [hserved]
      rfl

end Sys2Proof.Machine

namespace Sys2Proof.Machine

/-! ### The write ring and the write capturer (R178 to R180, R152) -/

theorem wrChainStep_addr {c : Channel} {s : State} {la : Nat} (hr : (s.chan c).wrRing = .addr)
    (hi : (s.chan c).idxWr = some la) :
    wrChainStep c s = some (.ok (s.setChan c { s.chan c with laWr := la, idxWr := none, wrRing := .datain })) := by
  simp only [wrChainStep, hr, hi]

theorem wrChainStep_datain {c : Channel} {s : State} {b : Byte} (hr : (s.chan c).wrRing = .datain)
    (hq : (s.chan c).dinQ = some b) :
    wrChainStep c s = some (.ok (s.setChan c { s.chan c with wdata := b, dinQ := none, wrRing := .store })) := by
  simp only [wrChainStep, hr, hq]

theorem wrChainStep_store {c : Channel} {s : State} (hr : (s.chan c).wrRing = .store) (hd : s.done = none) :
    wrChainStep c s = some (wrStore c s) := by
  simp only [wrChainStep, hr, hd]

/-- The activity counters after a store: one moves, on the primary channel, where they are enabled (R154). -/
theorem countWrite_wac (c : Channel) (la : Nat) (s : State) :
    (countWrite c la s).wac =
      if c = .primary ∧ s.cfg.wacEnabled = true then
        sparseWrite 0 s.wac (la - s.chP.baseReg) ((sparseRead 0 s.wac (la - s.chP.baseReg) + 1) % 2 ^ s.cfg.wacW)
      else s.wac := by
  cases c with
  | primary => by_cases hen : s.cfg.wacEnabled = true <;> simp [countWrite, hen]
  | secondary => simp [countWrite]

/-- STORE at a mapped address completes: the byte, the counter and `DONE` (R180, R154). -/
theorem wrStore_eq {c : Channel} {s : State} (hd : s.done = none) (hm : localMapped s.cfg (s.chan c).laWr = true) :
    wrStore c s = .ok (({ s with
      ram := Memory.write s.ram (s.chan c).laWr (s.chan c).wdata
      wac := (countWrite c (s.chan c).laWr s).wac
      done := some () } : State).setChan c { s.chan c with wrRing := .addr }) :=
  wrStore_eq_ok.2 ⟨hm, hd, by rw [countWrite_ram c _ s (Memory.write _ _ _)]⟩

/-- With the data valid and the lines inputs the capturer samples what the host drives (R152). -/
theorem wcStep_inward {c : Channel} {s : State} (hr : (s.chan c).wrRing = .datain) (hq : (s.chan c).dinQ = none)
    (hv : s.lines.dataValid = true) (hd : s.ddir = .inward) :
    wcStep c s = some (.ok (s.setChan c { s.chan c with din := s.lines.d, dinQ := some s.lines.d })) := by
  have hin : dataIn s = s.lines.d := if_pos hd
  have hfresh : (if s.ddir = DataDir.inward then s.fresh else s.fresh + 1) = s.fresh := if_pos hd
  simp only [wcStep, hr, hq, hv, hin, hfresh, push_empty, and_self, if_true]
  rfl

/-- The capturer waits for the host's data (R152). -/
theorem wcStep_not_valid {c : Channel} {s : State} (hv : s.lines.dataValid = false) : wcStep c s = none := by
  simp [wcStep, hv]

/-- Settles O11, stage by stage of the ring. -/
theorem writeRingSteps : Obligations.WriteRingSteps := by
  unfold Obligations.WriteRingSteps
  intro s c hrun
  have ringMoves {t : State} (h : wrChainStep c s = some (.ok t)) : step (s.withEvent (.agent (.wrChain c))) = .next t :=
    step_agent_next hrun nofun h
  refine ⟨?addr, ?sample, ?waiting, ?datain, ?store⟩
  case addr => exact fun la hr hi => ringMoves (wrChainStep_addr hr hi)
  case sample => exact fun hr hq hv hd => step_agent_next hrun nofun (wcStep_inward hr hq hv hd)
  case waiting =>
    exact fun _ hv => step_agent_none nofun ((agentStep_of_runs hrun (.wc c)).trans (wcStep_not_valid hv))
  case datain => exact fun b hr hq => ringMoves (wrChainStep_datain hr hq)
  case store =>
    intro hr hd hm
    rw [ringMoves ((wrChainStep_store hr hd).trans (congrArg some (wrStore_eq hd hm))), countWrite_wac]
    cases c <;> rfl

/-! ### A write inside the primary window (R151 to R154) -/

/-- What every address of a sparse memory in canonical form reads as after a write. -/
theorem sparseRead_write {α : Type} [DecidableEq α] {d : α} {lo : Nat} {m : List (Nat × α)} (h : sparseWf d lo m = true)
    (a x : Nat) (v : α) : sparseRead d (sparseWrite d m a v) x = if x = a then v else sparseRead d m x := by
  by_cases hx : x = a
  · rw [if_pos hx, hx, sparseRead_write_same h]
  · rw [if_neg hx, sparseRead_write_other hx]

/-- Settles O14: PWR is a write cycle on the primary channel; the block serves it to its end, and the memory and the counters
read as after one write each. -/
theorem primaryWriteServed : Obligations.PrimaryWriteServed := by
  unfold Obligations.PrimaryWriteServed
  intro s f g i b hserves hmem hi hl
  obtain ⟨hram, -, hwac, -⟩ := (memoriesOk_iff s).1 hmem
  have hserved := busCycle_wr (c := .primary) (x := b) hserves hi hl
  refine ⟨Memory.write s.ram (s.cfg.baseOffset + i) b,
    if s.cfg.wacEnabled = true then sparseWrite 0 s.wac i ((sparseRead 0 s.wac i + 1) % 2 ^ s.cfg.wacW) else s.wac,
    ?served, ?memory, ?counters⟩
  case served =>
    calc exec (.pwr f g b) s
      _ = ofCycle (busCycle .primary .wr f g b s) := exec_cycle ⟨.primary, .wr, f, g, b⟩ s
      _ = _ := by
        simp only [hserved, true_and]
        rfl
  case memory => exact fun la => memory_read_write hram _ la b
  case counters =>
    intro j
    by_cases hen : s.cfg.wacEnabled = true
    · simp [hen, sparseRead_write hwac]
    · simp [hen]

end Sys2Proof.Machine

namespace Sys2Proof.Machine

/-! ### Cycles inside the secondary window (R160 to R163) -/

/-- Settles O13: SRD is a read cycle on the secondary channel, and the block serves it to its end. -/
theorem secondaryReadServed : Obligations.SecondaryReadServed := by
  unfold Obligations.SecondaryReadServed
  intro s f g i hserves hi hl
  have hserved := busCycle_rd (c := .secondary) (x := 0) hserves hi hl
  calc exec (.srd f g) s
    _ = ofCycle (busCycle .secondary .rd f g 0 s) := exec_cycle ⟨.secondary, .rd, f, g, 0⟩ s
    _ = _ := by
      rw [hserved]
      rfl

/-- Settles O15: SWR is a write cycle on the secondary channel; the block serves it to its end with one store, and counts
nothing, since only the primary channel's stores are counted (R154). -/
theorem secondaryWriteServed : Obligations.SecondaryWriteServed := by
  unfold Obligations.SecondaryWriteServed
  intro s f g i b hserves hmem hi hl
  obtain ⟨hram, -⟩ := (memoriesOk_iff s).1 hmem
  have hserved := busCycle_wr (c := .secondary) (x := b) hserves hi hl
  have huncounted : ¬ (Channel.secondary = .primary ∧ s.cfg.wacEnabled = true) := nofun
  rw [if_neg huncounted] at hserved
  refine ⟨Memory.write s.ram (s.cfg.secBaseOffset + i) b, ?served, fun la => memory_read_write hram _ la b⟩
  case served =>
    calc exec (.swr f g b) s
      _ = ofCycle (busCycle .secondary .wr f g b s) := exec_cycle ⟨.secondary, .wr, f, g, b⟩ s
      _ = _ := by
        rw [hserved]
        rfl

end Sys2Proof.Machine

namespace Sys2Proof.Machine

/-! ### The answer of the allocation (R171) -/

theorem sameIds_iff (a b : List Nat) : sameIds a b = true ↔ ∀ x, x ∈ a ↔ x ∈ b := by
  simp [sameIds, iff_iff_implies_and_implies, forall_and]

theorem sameIds_both_iff (g : Config) (seqs movs : List Nat) :
    (sameIds seqs g.expectedSeq && sameIds movs g.expectedMov) = true ↔
      (∀ x, x ∈ seqs ↔ x ∈ g.expectedSeq) ∧ ∀ x, x ∈ movs ↔ x ∈ g.expectedMov := by
  rw [Bool.and_eq_true, sameIds_iff, sameIds_iff]

/-- `s` once the platform has answered the allocation: its answer is used up, and `SEQ_IDS` and `MOV_IDS` hold the sets got. -/
def State.allocated (s : State) (seqs movs : List Nat) : State :=
  { s with env := { s.env with allocs := s.env.allocs.tail }, seqIds := seqs, movIds := movs }

/-- The allocation answers the environment's next choice, or the expected sets where none is pending (log 8). -/
theorem nextAlloc_eq (s : State) : nextAlloc s =
    (s.env.allocs.headD (s.cfg.expectedSeq, s.cfg.expectedMov),
      { s with env := { s.env with allocs := s.env.allocs.tail } }) := by
  unfold nextAlloc
  split
  · next h =>
    have henv : ({ s.env with allocs := [] } : Env) = s.env := by rw [← h]
    rw [h, List.headD_nil, List.tail_nil, henv]
  · next a as h => rw [h, List.headD_cons, List.tail_cons]

/-! ### `arm` past its two checks (R171, R172, R173) -/

section

variable {s : State} {base : Nat} {seqs movs : List Nat} (ha : s.armed = false)
  (hb : base % 2 ^ (s.cfg.ahW + s.cfg.alW) = 0)
  (hgot : (seqs, movs) = s.env.allocs.headD (s.cfg.expectedSeq, s.cfg.expectedMov))
include ha hb hgot

/-- An unarmed block takes an aligned base as far as the allocation, whose answer and `BOOT` decide the rest. -/
theorem armOp_of_aligned (pats : Nat × Nat) : armOp base pats s =
    if sameIds seqs s.cfg.expectedSeq && sameIds movs s.cfg.expectedMov then
      if s.boot = .bFault then .ok (.engineFault seqs movs) (s.allocated seqs movs)
      else .ok .ok (armRegisters base pats (s.allocated seqs movs))
    else .ok (.engineFault seqs movs) (enterFault (s.allocated seqs movs) .engineArm) := by
  have halign : ¬ lowBits (addrWidth s.cfg .primary) base ≠ 0 := not_not_intro hb
  rw [armOp, if_neg (by simp [ha]), if_neg halign]
  simp only [nextAlloc_eq, ← hgot]
  rfl

/-- The expected sets outside `B_FAULT`: the engine is started. -/
theorem armOp_starts (hseq : ∀ x, x ∈ seqs ↔ x ∈ s.cfg.expectedSeq) (hmov : ∀ x, x ∈ movs ↔ x ∈ s.cfg.expectedMov)
    (hboot : s.boot ≠ .bFault) (pats : Nat × Nat) :
    armOp base pats s = .ok .ok (armRegisters base pats (s.allocated seqs movs)) := by
  rw [armOp_of_aligned ha hb hgot, if_pos ((sameIds_both_iff _ _ _).2 ⟨hseq, hmov⟩), if_neg hboot]

/-- The expected sets in `B_FAULT`: the sets got are kept and nothing is started (R173, log 20). -/
theorem armOp_of_faulted (hseq : ∀ x, x ∈ seqs ↔ x ∈ s.cfg.expectedSeq)
    (hmov : ∀ x, x ∈ movs ↔ x ∈ s.cfg.expectedMov) (hboot : s.boot = .bFault) (pats : Nat × Nat) :
    armOp base pats s = .ok (.engineFault seqs movs) (s.allocated seqs movs) := by
  rw [armOp_of_aligned ha hb hgot, if_pos ((sameIds_both_iff _ _ _).2 ⟨hseq, hmov⟩), if_pos hboot]

/-- Any other sets: the fault state, wherever `BOOT` was (R251). -/
theorem armOp_of_unexpected
    (hne : ¬((∀ x, x ∈ seqs ↔ x ∈ s.cfg.expectedSeq) ∧ ∀ x, x ∈ movs ↔ x ∈ s.cfg.expectedMov)) (pats : Nat × Nat) :
    armOp base pats s = .ok (.engineFault seqs movs) (enterFault (s.allocated seqs movs) .engineArm) := by
  rw [armOp_of_aligned ha hb hgot, if_neg (mt (sameIds_both_iff _ _ _).1 hne)]

end

theorem lowBits_of_lt {w v : Nat} (h : v < 2 ^ w) : lowBits w v = v := Nat.mod_eq_of_lt h

/-- A base that fits LOCAL_W is written as it is, and so is SEC_BASE_OFFSET, which fits by R11. -/
theorem armRegisters_of_fitting {s : State} {base : Nat} (hw : s.cfg.wf = true) (hfit : base < 2 ^ s.cfg.localW)
    (pats : Nat × Nat) : armRegisters base pats s =
      { s with
        fabBase := base, dirpat := pats
        chP := { s.chP.idled with baseReg := base }
        chS := { s.chS.idled with baseReg := s.cfg.secBaseOffset }
        done := none, ddir := .inward, cls := .idle, armed := true } := by
  obtain ⟨-, -, -, -, -, -, -, -, -, -, -, -, -, hsec, -⟩ := (cfg_wf_iff s.cfg).1 hw
  rw [armRegisters, lowBits_of_lt hfit, lowBits_of_lt hsec]
  rfl

/-- The operation is the call, with its answer kept. -/
theorem exec_arm (base o i : Nat) (s : State) : exec (.arm base o i) s = finish (armOp base (o, i) s) := rfl

/-- Settles O45: the allocation is as expected, so the registers of R171 are written, untruncated because both bases fit. -/
theorem armConfigures : Obligations.ArmConfigures := by
  unfold Obligations.ArmConfigures
  intro s base o i seqs movs hw ha hboot hfit hb hgot hseq hmov
  rw [exec_arm, armOp_starts ha hb hgot hseq hmov hboot,
    armRegisters_of_fitting (s := s.allocated seqs movs) hw hfit]
  rfl

/-- Settles O46, by the answer of the allocation. -/
theorem armFailureHalts : Obligations.ArmFailureHalts := by
  unfold Obligations.ArmFailureHalts
  intro s base o i seqs movs ha hb hgot
  refine ⟨fun hne => ?unexpected, fun hseq hmov hboot => ?faulted⟩
  case unexpected =>
    rw [exec_arm, armOp_of_unexpected ha hb hgot hne]
    rfl
  case faulted =>
    rw [exec_arm, armOp_of_faulted ha hb hgot hseq hmov hboot]
    rfl

/-! ### A block with nothing to do (R302, log 14) -/

/-- With nothing in the script and its boot ended, a block takes the engine's next step. -/
theorem step_silent {s : State} (he : s.env.events = []) (hf : s.boot.final = true) :
    step s = ofMicro (engineStep s) s := by
  simp [step, fetch, he, idle, hf]

theorem step_silent_none {s : State} (he : s.env.events = []) (hf : s.boot.final = true) (hn : engineStep s = none) :
    step s = .next s := by
  rw [step_silent he hf, hn, ofMicro]

/-- What the end of a run leaves to be done: no event, no boot stage, no step of the engine (R302). -/
theorem nothing_left_of_runEnded {s : State} (h : s.runEnded = true) :
    s.env.events = [] ∧ s.boot.final = true ∧ engineStep s = none := by
  simp only [State.runEnded, State.eventsServed, State.quiescent, Bool.and_eq_true, List.isEmpty_iff,
    Option.isNone_iff_eq_none] at h
  obtain ⟨⟨hevents, hnone⟩, ⟨⟨⟨⟨hfinal, -⟩, -⟩, -⟩, -⟩, -⟩ := h
  exact ⟨hevents, hfinal, hnone⟩

/-- Settles O7: in each case the engine has no step, and nothing else moves the block. -/
theorem silentBlockRests : Obligations.SilentBlockRests := by
  unfold Obligations.SilentBlockRests
  intro s
  refine ⟨fun he hf hidle => ?idle, fun hend => ?ended⟩
  case idle =>
    refine step_silent_none he hf ?_
    rcases hidle with hstopped | ⟨hready, hstrobe⟩
    · exact engineStep_of_not_runs hstopped
    · exact engineStep_of_ready hready hstrobe
  case ended =>
    obtain ⟨he, hf, hn⟩ := nothing_left_of_runEnded hend
    exact step_silent_none he hf hn

end Sys2Proof.Machine

namespace Sys2Proof

/-- A frame whose first byte is none of the six opcodes is no instruction, whatever follows (R98, R203). -/
theorem decodeWire_of_unknown {op : Byte} (h : op ∉ ([0x06, 0x04, 0x05, 0x01, 0x03, 0x02] : List Byte)) (rest : List Byte)
    (n : Nat) : decodeWire (op :: rest) n = .error .unknownWireOpcode := by
  simp only [List.mem_cons, List.not_mem_nil, or_false, not_or] at h
  obtain ⟨hwren, hwrdi, hrdsr, hwrsr, hread, hwrite⟩ := h
  rw [decodeWire, if_neg hwren, if_neg hwrdi, if_neg hrdsr, if_neg hwrsr, if_neg hread, if_neg hwrite]

end Sys2Proof

namespace Sys2Proof.Machine

/-! ### A wire command as an operation (R190, R191, R205) -/

/-- A packet the decoder gives no instruction for is refused by the decoder's reason. -/
theorem step_undecoded {p : Packet} {e : DecodeError} (h : decode p = .error e) (s : State) :
    step (s.withEvent (.packet p)) = .refused (refusalOf e) := by
  rw [step_withEvent, handle, h]

/-- Settles O4: the decoder knows neither frame. -/
theorem unknownFrameRefused : Obligations.UnknownFrameRefused := by
  unfold Obligations.UnknownFrameRefused
  intro s tx n h
  suffices hd : decodeWire tx n = .error .unknownWireOpcode from step_undecoded (p := .wire tx n) hd s
  rcases h with rfl | ⟨op, rest, rfl, hop⟩
  · rfl
  · exact decodeWire_of_unknown hop rest n

/-- One exchange as an operation: the bytes received make its answer. -/
def execFrame (op : XferOp) (addr n : Nat) (c : WireCmd) (answer : List Byte → CallResult) (s : State) :
    Host.Outcome State Fault Refusal :=
  finish ((xferLogged op addr n c s).bind fun rx s1 => .ok (answer rx) s1)

/-! Each of the six commands is one exchange. -/

theorem exec_wren (s : State) : exec .wren s = execFrame .wren 0 0 .wren (fun _ => .done) s := rfl
theorem exec_wrdi (s : State) : exec .wrdi s = execFrame .wrdi 0 0 .wrdi (fun _ => .done) s := rfl
theorem exec_rdsr (s : State) : exec .rdsr s = execFrame .rdsr 0 1 .rdsr .bytes s := rfl
theorem exec_wrsr (v : Byte) (s : State) : exec (.wrsr v) s = execFrame .wrsr 0 1 (.wrsr v) (fun _ => .done) s := rfl
theorem exec_read (a : StoreAddr) (n : Nat) (s : State) :
    exec (.read a n) s = execFrame .read a.toNat n (.read a n) .bytes s := rfl
theorem exec_write (a : StoreAddr) (p : List Byte) (s : State) :
    exec (.write a p) s = execFrame .write a.toNat p.length (.write a p) (fun _ => .done) s := rfl

section

variable {s : State} {op : XferOp} {addr n : Nat} {c : WireCmd} {answer : List Byte → CallResult}

/-- A frame that works has the device's own effect and answers what the device sent. -/
theorem execFrame_works (h : s.frameWorks = true) : execFrame op addr n c answer s =
    .next { (devOk c s).2.afterFrames [⟨c.tx, (devOk c s).1⟩] with result := answer (devOk c s).1 } := by
  rw [execFrame, xferLogged_works op addr n c h, bind_ok, finish]

/-- A short frame leaves what R205 says and one log entry, and hands over the bytes that count as received (log 34). -/
theorem execFrame_short {rx : List Byte} (h : s.env.outcomes.head? = some (.short rx)) : execFrame op addr n c answer s =
    .next { ((devFailed c s).afterFrames [⟨c.tx, rx.take (c.count - 1)⟩]).logged (.transportFail op addr n) with
      result := answer (rx.take (c.count - 1)) } := by
  rw [execFrame, xferLogged_short op addr n c h, bind_ok, finish]

/-- A frame that fails outright leaves what a short one leaves, with nothing received. -/
theorem execFrame_fail (h : s.env.outcomes.head? = some .fail) : execFrame op addr n c answer s =
    .next { ((devFailed c s).afterFrames [⟨c.tx, []⟩]).logged (.transportFail op addr n) with result := answer [] } := by
  rw [execFrame, xferLogged_fail op addr n c h, bind_ok, finish]

/-- A command that asks for no bytes ends the same way whether its frame is short or fails. -/
theorem execFrame_failed_silent {rx : List Byte} (hc : c.count = 0)
    (h : s.env.outcomes.head? = some .fail ∨ s.env.outcomes.head? = some (.short rx)) : execFrame op addr n c answer s =
    .next { ((devFailed c s).afterFrames [⟨c.tx, []⟩]).logged (.transportFail op addr n) with result := answer [] } := by
  rcases h with hfail | hshort
  · exact execFrame_fail hfail
  · rw [execFrame_short hshort, hc, Nat.zero_sub, List.take_zero]

end

/-! ### The commands whose frame works (R195 to R201) -/

/-- Settles O25: the device's effect of either command is one assignment to the latch. -/
theorem latchCommands : Obligations.LatchCommands := by
  unfold Obligations.LatchCommands
  intro s hworks
  refine ⟨?wren, ?wrdi⟩
  case wren =>
    rw [exec_wren, execFrame_works hworks]
    rfl
  case wrdi =>
    rw [exec_wrdi, execFrame_works hworks]
    rfl

/-- Settles O26: the device sends `SR` and keeps its state. -/
theorem readStatusCommand : Obligations.ReadStatusCommand := by
  unfold Obligations.ReadStatusCommand
  intro s hworks
  rw [exec_rdsr, execFrame_works hworks]
  rfl

/-- Settles O27: the latch afterwards is the old one and a free bit, so it is not newly set. -/
theorem writeStatusCommand : Obligations.WriteStatusCommand := by
  unfold Obligations.WriteStatusCommand
  intro s v hworks
  refine ⟨Config.statusAfter s.fresh s.sr v, s.wel && Config.freeBit (s.fresh + 1), s.fresh + 2, ?_, fun hwel => ?_⟩
  · rw [exec_wrsr, execFrame_works hworks]
    rfl
  · exact (Bool.and_eq_true_iff.1 hwel).1

/-- Settles O28: the device sends the cells from `a` on and keeps its state. -/
theorem readMemoryCommand : Obligations.ReadMemoryCommand := by
  unfold Obligations.ReadMemoryCommand
  rintro s a n rx hworks - rfl
  rw [exec_read, execFrame_works hworks]
  rfl

/-- The cells after a WRITE frame that works, whatever the latch held. -/
theorem exec_write_works {s : State} (a : StoreAddr) (p : List Byte) (h : s.frameWorks = true) :
    exec (.write a p) s =
      .next { s.afterFrames [⟨0x02 :: addrHi a :: addrLo a :: p, []⟩] with
        nv := if s.wel then nvStore s.nv a.toNat p else s.nv, wel := false, result := .done } := by
  rw [exec_write, execFrame_works h]
  rfl

/-- Settles O29: the payload is stored from `a` on, where no two of at most 65536 bytes meet. -/
theorem writeMemoryCommand : Obligations.WriteMemoryCommand := by
  unfold Obligations.WriteMemoryCommand
  intro s a p hworks hmem hwel hlen
  obtain ⟨-, hnv, -⟩ := (memoriesOk_iff s).1 hmem
  refine ⟨nvStore s.nv a.toNat p, ?_, fun k hk => nvStore_inside p hnv a.toNat k hk hlen,
    fun x hx => nvStore_outside p s.nv a.toNat x hx⟩
  rw [exec_write_works a p hworks, if_pos hwel]

/-- Settles O30, by the latch: set, the store lies in the range; clear, the model stores nothing (log 33). -/
theorem writeClearsLatch : Obligations.WriteClearsLatch := by
  unfold Obligations.WriteClearsLatch
  intro s a p hworks _
  refine ⟨_, exec_write_works a p hworks, fun x hx => ?_⟩
  split_ifs
  · exact nvStore_outside p s.nv a.toNat x hx
  · rfl

/-! ### The commands whose frame is short or fails (R191, R205, R224) -/

/-- Settles O31: a failed READ leaves the device as it was, so only the trace, the log and the answer differ. -/
theorem failedRead : Obligations.FailedRead := by
  unfold Obligations.FailedRead
  intro s a n rx _
  refine ⟨fun hshort => ?short, fun hfail => ?fail⟩
  case short =>
    rw [exec_read, execFrame_short hshort]
    rfl
  case fail =>
    rw [exec_read, execFrame_fail hfail]
    rfl

/-- Settles O32: the cells are `nvStoreMaybe`'s, the latch is the free bit after the payload's. -/
theorem failedWriteOldOrNew : Obligations.FailedWriteOldOrNew := by
  unfold Obligations.FailedWriteOldOrNew
  intro s a p rx hmem hlen hfailed
  obtain ⟨-, hnv, -⟩ := (memoriesOk_iff s).1 hmem
  refine ⟨nvStoreMaybe s.nv a.toNat s.fresh p, Config.freeBit (s.fresh + p.length), s.fresh + p.length + 1, ?_,
    fun j hj => nvStoreMaybe_old_or_new p hnv a.toNat s.fresh j hj hlen,
    fun x hx => nvStoreMaybe_outside p s.nv a.toNat s.fresh x hx⟩
  rw [exec_write, execFrame_failed_silent rfl hfailed]
  rfl

/-- Settles O33: either failed command draws the latch and appends its entry. -/
theorem failedLatchCommand : Obligations.FailedLatchCommand := by
  unfold Obligations.FailedLatchCommand
  intro s rx hfailed
  refine ⟨⟨Config.freeBit s.fresh, s.fresh + 1, ?wren⟩, ⟨Config.freeBit s.fresh, s.fresh + 1, ?wrdi⟩⟩
  case wren =>
    rw [exec_wren, execFrame_failed_silent rfl hfailed]
    rfl
  case wrdi =>
    rw [exec_wrdi, execFrame_failed_silent rfl hfailed]
    rfl

end Sys2Proof.Machine

namespace Sys2Proof.Machine

/-! ### The tick and the driver's read (R211, R220) -/

/-- Settles O6: the tick is `backup_tick` behind its two conditions. -/
theorem tickCallsBackup : Obligations.TickCallsBackup := by
  unfold Obligations.TickCallsBackup
  intro s
  refine ⟨fun hcalls => ?calls, fun hdrops => ?drops⟩
  case calls =>
    rw [step_withEvent, handle, tick, if_pos hcalls]
    rfl
  case drops => rw [step_withEvent, handle, tick, if_neg hdrops]

theorem storeAddr_of_toNat (a : StoreAddr) : storeAddr a.toNat = a := by simp [storeAddr]

/-- Past the top of the store `nv_read` is refused (R211). -/
theorem exec_nvRead_overflow {a : StoreAddr} {n : Nat} (h : 65536 < a.toNat + n) (s : State) :
    exec (.nvRead a n) s = .refused .nvRangeOverflow := by
  show finish ((nvReadOp a.toNat n s).bind _) = _
  rw [nvReadOp, if_pos h]
  rfl

/-- `nv_read` of nothing sends nothing (R211). -/
theorem exec_nvRead_zero (a : StoreAddr) (s : State) : exec (.nvRead a 0) s = .next { s with result := .bytes [] } := by
  have hfits := a.isLt
  show finish ((nvReadOp a.toNat 0 s).bind _) = _
  rw [nvReadOp, if_neg (by omega), if_pos rfl]
  rfl

/-- Otherwise `nv_read` is one READ frame (R211). -/
theorem nvReadOp_frame {addr n : Nat} (hn : 1 ≤ n) (hfits : addr + n ≤ 65536) (s : State) :
    nvReadOp addr n s = xferLogged .read addr n (.read (storeAddr addr) n) s := by
  rw [nvReadOp, if_neg (by omega), if_neg (by omega)]

theorem exec_nvRead_frame {a : StoreAddr} {n : Nat} (hn : 1 ≤ n) (hfits : a.toNat + n ≤ 65536) (s : State) :
    exec (.nvRead a n) s = execFrame .read a.toNat n (.read a n) .bytes s := by
  show finish ((nvReadOp a.toNat n s).bind _) = _
  rw [nvReadOp_frame hn hfits, storeAddr_of_toNat]
  rfl

/-- Inside the address space a READ answers the cells in order, without a wrap (R200). -/
theorem nvRange_eq {addr n : Nat} (h : addr + n ≤ 65536) (s : State) :
    nvRange s (storeAddr addr) n = (List.range n).map fun k => s.nvByte (addr + k) := by
  refine List.map_congr_left fun k hk => ?_
  rw [List.mem_range] at hk
  rw [storeAddr_toNat (by omega), Nat.mod_eq_of_lt (by omega)]

/-- Settles O34: a call that fits is the wire's READ, and has its three outcomes. -/
theorem driverRead : Obligations.DriverRead := by
  unfold Obligations.DriverRead
  intro s a n
  refine ⟨fun hover => exec_nvRead_overflow hover s, fun hzero => ?zero, fun hn hfits =>
    ⟨fun rx hworks hrx => ?works, fun rx hshort => ?short, fun hfail => ?fail⟩⟩
  case zero =>
    subst hzero
    exact exec_nvRead_zero a s
  case works =>
    rw [← nvRange_eq hfits, storeAddr_of_toNat] at hrx
    subst hrx
    rw [exec_nvRead_frame hn hfits, execFrame_works hworks]
    rfl
  case short =>
    rw [exec_nvRead_frame hn hfits, execFrame_short hshort]
    rfl
  case fail =>
    rw [exec_nvRead_frame hn hfits, execFrame_fail hfail]
    rfl

end Sys2Proof.Machine

namespace Sys2Proof.Machine

/-! ### One frame, whatever its outcome (R191, R224) -/

/-- No RESET is pending inside a coming frame. -/
def State.uncut (s : State) : Prop := ∀ o ∈ s.env.outcomes, o ≠ .cut

theorem uncut_of_powerStays {s : State} (h : s.powerStays = true) : s.uncut := by
  simp only [State.powerStays, Bool.and_eq_true, List.all_eq_true, decide_eq_true_eq] at h
  exact h.1

theorem uncut_of_serialWorks {s : State} (h : s.serialWorks = true) : s.uncut := by
  simp only [State.serialWorks, List.all_eq_true, decide_eq_true_eq] at h
  intro o ho
  simp [h o ho]

/-- The bytes the next frame hands over. -/
def frameReply (c : WireCmd) (s : State) : List Byte :=
  match s.env.outcomes.head? with
  | none | some .ok => (devOk c s).1
  | some (.short rx) => rx.take (c.count - 1)
  | some .fail | some .cut => []

/-- What the next frame leaves in the store. -/
def frameDevice (c : WireCmd) (s : State) : State :=
  match s.env.outcomes.head? with
  | none | some .ok => (devOk c s).2
  | some (.short _) | some .fail | some .cut => devFailed c s

theorem frameReply_works {s : State} (c : WireCmd) (h : s.frameWorks = true) : frameReply c s = (devOk c s).1 := by
  simp only [State.frameWorks, decide_eq_true_eq] at h
  rcases h with h | h <;> rw [frameReply, h]

theorem frameDevice_works {s : State} (c : WireCmd) (h : s.frameWorks = true) : frameDevice c s = (devOk c s).2 := by
  simp only [State.frameWorks, decide_eq_true_eq] at h
  rcases h with h | h <;> rw [frameDevice, h]

/-- A READ leaves the store as it is whether it works or fails (R200, R205). -/
theorem frameDevice_read (a : StoreAddr) (n : Nat) (s : State) : frameDevice (.read a n) s = s := by
  unfold frameDevice
  split <;> rfl

/-- The `n` coming frames left in the log of `t` one entry for each that failed, and no other (R224). -/
def LogsFailures (n : Nat) (s t : State) : Prop :=
  ∃ lg, t.log = s.log ++ lg ∧ lg.length = s.failures n ∧ ∀ e ∈ lg, ∃ op addr k, e = .transportFail op addr k

theorem failures_add (s : State) (m n : Nat) :
    s.failures (m + n) = s.failures m + ((s.env.outcomes.drop m).take n).countP fun o => decide (o ≠ .ok) := by
  rw [State.failures, List.take_add, List.countP_append, State.failures]

theorem logsFailures_zero {s t : State} (h : t.log = s.log) : LogsFailures 0 s t :=
  ⟨[], by simp [h], by simp [State.failures], by simp⟩

theorem LogsFailures.trans {m n : Nat} {s t u : State} (h : LogsFailures m s t) (k : LogsFailures n t u)
    (ho : t.env.outcomes = s.env.outcomes.drop m) : LogsFailures (m + n) s u := by
  obtain ⟨lg, hlog, hlen, hop⟩ := h
  obtain ⟨lg', hlog', hlen', hop'⟩ := k
  refine ⟨lg ++ lg', by rw [hlog', hlog, List.append_assoc], ?_, fun e he => ?_⟩
  · rw [List.length_append, hlen, hlen', failures_add, State.failures, State.failures, ho]
  · exact (List.mem_append.1 he).elim (hop e) (hop' e)

/-- A frame that fails leaves one entry. -/
theorem logsFailures_one {s t : State} {o : FrameOutcome} {op : XferOp} {addr n : Nat}
    (ho : s.env.outcomes.head? = some o) (hfailed : o ≠ .ok) (hl : t.log = s.log ++ [.transportFail op addr n]) :
    LogsFailures 1 s t := by
  refine ⟨_, hl, ?_, by simp⟩
  obtain ⟨os, hos⟩ : ∃ os, s.env.outcomes = o :: os := List.head?_eq_some_iff.1 ho
  simp [State.failures, hos, hfailed]

/-- A frame that works leaves none. -/
theorem logsFailures_works {s t : State} (h : s.frameWorks = true) (hl : t.log = s.log) : LogsFailures 1 s t := by
  refine ⟨[], by simp [hl], ?_, by simp⟩
  simp only [State.frameWorks, decide_eq_true_eq] at h
  cases ho : s.env.outcomes with
  | nil => simp [State.failures, ho]
  | cons o os => simp_all [State.failures]

theorem devOk_log (c : WireCmd) (s : State) : (devOk c s).2.log = s.log := by cases c <;> rfl
theorem devFailed_log (c : WireCmd) (s : State) : (devFailed c s).log = s.log := by cases c <;> rfl

/-- A frame that no RESET cuts: the store's part, one line of the trace, one outcome used, and an entry if it failed. -/
theorem xferLogged_sent {s : State} (op : XferOp) (addr n : Nat) (c : WireCmd) (h : s.uncut) :
    ∃ lg, xferLogged op addr n c s =
        .ok (frameReply c s) (({ frameDevice c s with log := lg } : State).afterFrames [⟨c.tx, frameReply c s⟩]) ∧
      LogsFailures 1 s { s with log := lg } := by
  cases hw : s.frameWorks with
  | true =>
    refine ⟨(devOk c s).2.log, ?_, logsFailures_works hw (devOk_log c s)⟩
    rw [xferLogged_works op addr n c hw, frameReply_works c hw, frameDevice_works c hw]
  | false =>
    simp only [State.frameWorks, decide_eq_false_iff_not, not_or] at hw
    obtain ⟨o, ho⟩ := Option.ne_none_iff_exists'.1 hw.1
    cases o with
    | ok => exact absurd ho hw.2
    | short rx =>
      refine ⟨_, ?_, logsFailures_one (op := op) (addr := addr) (n := n) ho (by simp) rfl⟩
      rw [xferLogged_short op addr n c ho, frameReply, frameDevice, ho, ← devFailed_log c s]
      rfl
    | fail =>
      refine ⟨_, ?_, logsFailures_one (op := op) (addr := addr) (n := n) ho (by simp) rfl⟩
      rw [xferLogged_fail op addr n c ho, frameReply, frameDevice, ho, ← devFailed_log c s]
      rfl
    | cut => exact absurd rfl (h .cut (List.mem_of_mem_head? ho))

/-- The commands `nv_write` sends (R194, R212). -/
inductive WriteCommand : WireCmd → Prop where
  | wren : WriteCommand .wren
  | write (a : StoreAddr) (p : List Byte) : WriteCommand (.write a p)

theorem WriteCommand.reply {c : WireCmd} (h : WriteCommand c) (s : State) : frameReply c s = [] := by
  unfold frameReply
  cases h <;> split <;> simp [devOk, WireCmd.count]

/-- Their part in the store: its cells, its latch, and free values drawn; `SR` is kept. -/
theorem WriteCommand.device {c : WireCmd} (h : WriteCommand c) (s : State) :
    ∃ m w k, frameDevice c s = { s with nv := m, wel := w, fresh := k } := by
  unfold frameDevice
  cases h <;> split <;> exact ⟨_, _, _, rfl⟩

/-! ### nv_write with a quiet host, whatever the outcomes (R212, R213) -/

/-- From `s` the driver sent the frames `l` in `n` quiet windows and came to `t`: it changed the store, the log and nothing
else. -/
def Sent (l : List FrameRecord) (n : Nat) (s t : State) : Prop :=
  LogsFailures l.length s t ∧ ∃ m w k lg, t =
    { (s.afterFrames l).afterAccesses n with nv := m, wel := w, fresh := k, log := lg }

theorem Sent.trans {l k : List FrameRecord} {m n : Nat} {s t u : State} (h : Sent l m s t) (h' : Sent k n t u) :
    Sent (l ++ k) (m + n) s u := by
  obtain ⟨hlog, _, _, _, _, ht⟩ := h
  obtain ⟨hlog', cells, w, fresh, lg, hu⟩ := h'
  refine ⟨?_, cells, w, fresh, lg, ?_⟩
  · rw [List.length_append]
    exact hlog.trans hlog' (by rw [ht]; rfl)
  · rw [hu, ht]
    simp [State.afterFrames, State.afterAccesses, List.drop_drop]

/-- Byte accesses before the first frame only use windows. -/
theorem Sent.of_afterAccesses {l : List FrameRecord} {m n : Nat} {s t : State} (h : Sent l n (s.afterAccesses m) t) :
    Sent l (m + n) s t := by
  obtain ⟨hlog, cells, w, k, lg, ht⟩ := h
  refine ⟨hlog, cells, w, k, lg, ?_⟩
  rw [ht]
  simp [State.afterFrames, State.afterAccesses, List.drop_drop]

theorem Sent.hostQuiet {l : List FrameRecord} {n : Nat} {s t : State} (h : Sent l n s t) (hq : s.hostQuiet = true) :
    t.hostQuiet = true := by
  obtain ⟨-, m, w, k, lg, rfl⟩ := h
  exact hostQuiet_drop (s := s) hq n

theorem Sent.uncut {l : List FrameRecord} {n : Nat} {s t : State} (h : Sent l n s t) (hu : s.uncut) : t.uncut := by
  obtain ⟨-, m, w, k, lg, rfl⟩ := h
  exact fun o ho => hu o (List.mem_of_mem_drop ho)

theorem sent_nil {s : State} (h : s.nvSel = false) (hf : s.frame = []) : Sent [] 0 s s :=
  ⟨logsFailures_zero rfl, s.nv, s.wel, s.fresh, s.log, by rw [afterFrames_nil s h hf]; rfl⟩

theorem driverFrame_sent {s : State} (op : XferOp) (addr n : Nat) {c : WireCmd} (hc : WriteCommand c)
    (hq : s.hostQuiet = true) (hu : s.uncut) :
    ∃ t, driverFrame op addr n c s = .ok [] t ∧ Sent [⟨c.tx, []⟩] 1 s t := by
  obtain ⟨lg, hx, hlog⟩ := xferLogged_sent (s := s.afterAccesses 1) op addr n c hu
  obtain ⟨m, w, k, hd⟩ := hc.device (s.afterAccesses 1)
  rw [hc.reply, hd] at hx
  exact ⟨_, (driverFrame_quiet op addr n c hq).trans hx, hlog, m, w, k, lg, rfl⟩

/-- The frames of one chunk. -/
theorem writePair_frames (addr : Nat) (p : List Byte) : (writePair addr p).map (fun tx => (⟨tx, []⟩ : FrameRecord)) =
    [⟨WireCmd.tx .wren, []⟩] ++ [⟨WireCmd.tx (.write (storeAddr addr) p), []⟩] := rfl

theorem nvWriteChunk_sent {s : State} (addr : Nat) (p : List Byte) (hq : s.hostQuiet = true) (hu : s.uncut) :
    ∃ t, nvWriteChunk addr p s = .ok () t ∧ Sent ((writePair addr p).map fun tx => ⟨tx, []⟩) 2 s t := by
  obtain ⟨t, ht, hsent⟩ := driverFrame_sent .wren addr 0 .wren hq hu
  obtain ⟨u, hu', hsent'⟩ := driverFrame_sent .write addr p.length (.write (storeAddr addr) p) (hsent.hostQuiet hq)
    (hsent.uncut hu)
  exact ⟨u, by rw [nvWriteChunk, ht, bind_ok, hu', bind_ok], hsent.trans hsent'⟩

theorem nvWriteChunks_sent (ps : List (List Byte)) {s : State} (addr : Nat) (hq : s.hostQuiet = true) (hu : s.uncut)
    (hs : ps = [] → s.nvSel = false ∧ s.frame = []) :
    ∃ t, nvWriteChunks addr ps s = .ok () t ∧ Sent (chunkFrames addr ps) (2 * ps.length) s t := by
  induction ps generalizing s addr with
  | nil => exact ⟨s, rfl, sent_nil (hs rfl).1 (hs rfl).2⟩
  | cons p ps ih =>
    obtain ⟨t, ht, hsent⟩ := nvWriteChunk_sent addr p hq hu
    have hidle : t.nvSel = false ∧ t.frame = [] := by
      obtain ⟨-, m, w, k, lg, rfl⟩ := hsent
      exact ⟨rfl, rfl⟩
    obtain ⟨u, hu', hsent'⟩ := ih (addr + chunk) (hsent.hostQuiet hq) (hsent.uncut hu) fun _ => hidle
    refine ⟨u, by rw [nvWriteChunks, ht, bind_ok, hu'], ?_⟩
    rw [List.length_cons, Nat.mul_succ, Nat.add_comm]
    exact hsent.trans hsent'

theorem chunksOf_eq_nil (bs : List Byte) : chunksOf (chunkCount bs.length) bs = [] ↔ bs = [] := by
  rw [← List.length_eq_zero_iff, chunksOf_length, ← List.length_eq_zero_iff, chunkCount]
  omega

/-- A call that fits is its chunks. -/
theorem nvWriteOp_chunks {addr : Nat} {bs : List Byte} (h : addr + bs.length ≤ 65536) (s : State) :
    nvWriteOp addr bs s = nvWriteChunks addr (chunksOf (chunkCount bs.length) bs) s := by
  rw [nvWriteOp, if_neg (by omega)]

/-- The frames of the chunks of a call are those of the call. -/
theorem chunkFrames_chunksOf (addr : Nat) (bs : List Byte) :
    chunkFrames addr (chunksOf (chunkCount bs.length) bs) = writeFrames addr bs := chunkFrames_eq _ bs addr

theorem nvWriteOp_sent {s : State} {addr : Nat} {bs : List Byte} (hq : s.hostQuiet = true) (hu : s.uncut)
    (hs : bs = [] → s.nvSel = false ∧ s.frame = []) (ha : addr + bs.length ≤ 65536) :
    ∃ t, nvWriteOp addr bs s = .ok () t ∧ Sent (writeFrames addr bs) (2 * ((bs.length + 15) / 16)) s t := by
  obtain ⟨t, ht, hsent⟩ := nvWriteChunks_sent (chunksOf (chunkCount bs.length) bs) addr hq hu
    fun hnil => hs ((chunksOf_eq_nil bs).1 hnil)
  rw [chunkFrames_chunksOf, chunksOf_length] at hsent
  exact ⟨t, by rw [nvWriteOp_chunks ha, ht], hsent⟩

/-! ### nv_write among bus cycles (R210, R213) -/

theorem sameSoftwareDomain_trans {s t u : State} (h : sameSoftwareDomain s t) (k : sameSoftwareDomain t u) :
    sameSoftwareDomain s u := by
  simp only [sameSoftwareDomain] at *
  simp only [k, h, and_self]

/-- In-window cycles and glitches leave the block serving and touch nothing of the driver's (R264). -/
theorem serveActs_mild (acts : List HostAct) {s : State} (h : s.serves = true) (ha : ∀ a ∈ acts, a.mild s.cfg) :
    ∃ t, serveActs acts s = .ok () t ∧ t.serves = true ∧ sameSoftwareDomain s t := by
  induction acts generalizing s with
  | nil => exact ⟨s, rfl, h, sameSoftwareDomain_refl s⟩
  | cons a acts ih =>
    obtain ⟨hhead, htail⟩ := List.forall_mem_cons.1 ha
    have rest : ∀ u : State, u.serves = true → sameSoftwareDomain s u →
        ∃ t, serveActs acts u = .ok () t ∧ t.serves = true ∧ sameSoftwareDomain s t := fun u hu hsame => by
      have hcfg : u.cfg = s.cfg := hsame.1
      obtain ⟨t, ht, hserves, hsame'⟩ := ih hu (by rwa [hcfg])
      exact ⟨t, ht, hserves, sameSoftwareDomain_trans hsame hsame'⟩
    cases a with
    | cycle c d f g x =>
      obtain ⟨u, hu, hserves, hsame, -⟩ := busCycle_served d x h hhead
      simpa only [serveActs, hu] using rest u hserves hsame
    | glitch =>
      simpa only [serveActs, glitch_of_ready (ready_of_serves h)] using
        rest (endCycle s) h (by simp [sameSoftwareDomain])
    | lines l => exact hhead.elim
    | agent a => exact hhead.elim
    | reset => exact hhead.elim

/-- The block serves cycles, and nothing that is pending can stop a call of the driver. -/
structure Mild (s : State) : Prop where
  serves : s.serves = true
  races : ∀ l ∈ s.env.races, ∀ a ∈ l, a.mild s.cfg
  uncut : s.uncut

theorem raceWindow_mild {s : State} (h : Mild s) :
    ∃ t, raceWindow s = .ok () t ∧ t.serves = true ∧ sameSoftwareDomain (s.afterAccesses 1) t := by
  unfold raceWindow
  split
  · next hr =>
    have henv : { s.env with races := [] } = s.env := by rw [← hr]
    exact ⟨s, rfl, h.serves, by simp [sameSoftwareDomain, State.afterAccesses, hr, henv]⟩
  · next acts rest hr =>
    have hmild := h.races acts (by simp [hr])
    obtain ⟨t, ht, hserves, hsame⟩ :=
      serveActs_mild acts (s := { s with env := { s.env with races := rest } }) h.serves hmild
    exact ⟨t, ht, hserves, by simpa [sameSoftwareDomain, State.afterAccesses, hr] using hsame⟩

/-- From `s` the driver sent the frames `l` among bus cycles and came to `t`. -/
structure BusSent (l : List FrameRecord) (s t : State) : Prop where
  mild : Mild t
  outcomes : t.env.outcomes = s.env.outcomes.drop l.length
  frames : t.frames = s.frames ++ l
  logs : LogsFailures l.length s t

theorem BusSent.trans {l k : List FrameRecord} {s t u : State} (h : BusSent l s t) (h' : BusSent k t u) :
    BusSent (l ++ k) s u where
  mild := h'.mild
  outcomes := by rw [h'.outcomes, h.outcomes, List.drop_drop, List.length_append]
  frames := by rw [h'.frames, h.frames, List.append_assoc]
  logs := by rw [List.length_append]; exact h.logs.trans h'.logs h.outcomes

theorem BusSent.serialWorks {l : List FrameRecord} {s t : State} (h : BusSent l s t) (hw : s.serialWorks = true) :
    t.serialWorks = true := by
  simp only [State.serialWorks, List.all_eq_true, h.outcomes] at hw ⊢
  exact fun o ho => hw o (List.mem_of_mem_drop ho)

theorem busSent_nil {s : State} (h : Mild s) : BusSent [] s s := ⟨h, rfl, by simp, logsFailures_zero rfl⟩

/-- The store's cells and its latch. -/
def State.store (s : State) : List Host.Cell × Bool := (s.nv, s.wel)

theorem WriteCommand.devOk_store {c : WireCmd} (hc : WriteCommand c) {s t : State} (h : t.store = s.store) :
    (devOk c t).2.store = (devOk c s).2.store := by
  obtain ⟨hnv, hwel⟩ := Prod.mk.inj h
  cases hc <;> simp [devOk, State.store, hnv, hwel]

/-- A frame of a driver call is the exchange after its window. -/
theorem driverFrame_of_window {s u : State} (op : XferOp) (addr n : Nat) (c : WireCmd) (h : raceWindow s = .ok () u) :
    driverFrame op addr n c s = xferLogged op addr n c u := by rw [driverFrame, h, bind_ok]

theorem driverFrame_mild {s : State} (op : XferOp) (addr n : Nat) {c : WireCmd} (hc : WriteCommand c) (h : Mild s) :
    ∃ t, driverFrame op addr n c s = .ok [] t ∧ BusSent [⟨c.tx, []⟩] s t ∧
      (s.serialWorks = true → t.store = (devOk c s).2.store) := by
  obtain ⟨u, hwindow, hserves, hsame⟩ := raceWindow_mild h
  obtain ⟨hcfg, hnv, hwel, -, -, -, -, -, hframes, -, -, -, hlog, -, henv, -⟩ := hsame
  have houtcomes : u.env.outcomes = s.env.outcomes := by rw [henv]; rfl
  obtain ⟨lg, hx, hlogs⟩ := xferLogged_sent (s := u) op addr n c (by rw [State.uncut, houtcomes]; exact h.uncut)
  have hworks : s.serialWorks = true → (frameDevice c u).store = (devOk c s).2.store := fun hw => by
    rw [State.serialWorks, ← houtcomes] at hw
    rw [frameDevice_works c (frameWorks_of_serialWorks hw)]
    exact hc.devOk_store (Prod.ext hnv hwel)
  obtain ⟨m, w, k, hd⟩ := hc.device u
  rw [hc.reply, hd] at hx
  rw [hd] at hworks
  refine ⟨_, (driverFrame_of_window op addr n c hwindow).trans hx, ⟨⟨hserves, ?_, ?_⟩, ?_, ?_, ?_⟩, hworks⟩
  · show ∀ l ∈ u.env.races, ∀ a ∈ l, a.mild u.cfg
    rw [henv, hcfg]
    exact fun l hl => h.races l (List.mem_of_mem_drop hl)
  · intro o ho
    exact h.uncut o (by rw [← houtcomes]; exact List.mem_of_mem_drop ho)
  · show u.env.outcomes.drop 1 = _
    rw [houtcomes]
    rfl
  · show u.frames ++ _ = _
    rw [hframes]
    rfl
  · obtain ⟨lg', hl, hlen, hop⟩ := hlogs
    exact ⟨lg', hl.trans (by rw [hlog]; rfl), by rw [hlen, State.failures, houtcomes]; rfl, hop⟩

theorem nvWriteChunk_mild {s : State} {addr : Nat} (p : List Byte) (h : Mild s) :
    ∃ t, nvWriteChunk addr p s = .ok () t ∧ BusSent ((writePair addr p).map fun tx => ⟨tx, []⟩) s t ∧
      (s.serialWorks = true → addr < 65536 → t.store = (nvStore s.nv addr p, false)) := by
  obtain ⟨t, ht, hsent, hstore⟩ := driverFrame_mild .wren addr 0 .wren h
  obtain ⟨u, hu, hsent', hstore'⟩ := driverFrame_mild .write addr p.length (.write (storeAddr addr) p) hsent.mild
  refine ⟨u, by rw [nvWriteChunk, ht, bind_ok, hu, bind_ok], hsent.trans hsent', fun hw ha => ?_⟩
  obtain ⟨hnv, hwel⟩ : t.nv = s.nv ∧ t.wel = true := Prod.mk.inj (hstore hw)
  rw [hstore' (hsent.serialWorks hw)]
  simp [devOk, State.store, hnv, hwel, storeAddr_toNat ha]

/-- The chunks `ps` stored one after the other, the first at `addr`. -/
def storeChunks : Nat → List (List Byte) → List Host.Cell → List Host.Cell
  | _, [], m => m
  | addr, p :: ps, m => storeChunks (addr + 16) ps (nvStore m addr p)

theorem storeChunks_eq_foldl (ps : List (List Byte)) (addr : Nat) (m : List Host.Cell) : storeChunks addr ps m =
    (ps.foldl (fun (r : Nat × List Host.Cell) p => (r.1 + 16, nvStore r.2 r.1 p)) (addr, m)).2 := by
  induction ps generalizing addr m with
  | nil => rfl
  | cons p ps ih => rw [storeChunks, ih, List.foldl_cons]

theorem storeChunks_chunksOf (addr : Nat) (bs : List Byte) (m : List Host.Cell) :
    storeChunks addr (chunksOf (chunkCount bs.length) bs) m = nvStore m addr bs := by
  rw [storeChunks_eq_foldl, foldl_chunks_store _ _ _ _ rfl]

theorem nvWriteChunks_mild (ps : List (List Byte)) {s : State} (addr : Nat) (h : Mild s) :
    ∃ t, nvWriteChunks addr ps s = .ok () t ∧ BusSent (chunkFrames addr ps) s t ∧
      (s.serialWorks = true → (ps = [] ∨ addr + 16 * (ps.length - 1) < 65536) →
        t.store = (storeChunks addr ps s.nv, if ps = [] then s.wel else false)) := by
  induction ps generalizing s addr with
  | nil => exact ⟨s, rfl, busSent_nil h, fun _ _ => rfl⟩
  | cons p ps ih =>
    obtain ⟨t, ht, hsent, hstore⟩ := nvWriteChunk_mild (addr := addr) p h
    obtain ⟨u, hu, hsent', hstore'⟩ := ih (addr + chunk) hsent.mild
    refine ⟨u, by rw [nvWriteChunks, ht, bind_ok, hu], hsent.trans hsent', fun hw ha => ?_⟩
    simp only [List.length_cons, reduceCtorEq, false_or, Nat.add_sub_cancel] at ha
    obtain ⟨hnv, hwel⟩ := Prod.mk.inj (hstore hw (by omega))
    have hrest : ps = [] ∨ addr + chunk + 16 * (ps.length - 1) < 65536 := by
      cases ps with
      | nil => exact .inl rfl
      | cons q qs => right; simp only [List.length_cons, chunk] at ha ⊢; omega
    rw [hstore' (hsent.serialWorks hw) hrest, hnv, hwel]
    simp [storeChunks, chunk]

theorem nvWriteOp_mild {s : State} {addr : Nat} {bs : List Byte} (h : Mild s) (ha : addr + bs.length ≤ 65536) :
    ∃ t, nvWriteOp addr bs s = .ok () t ∧ BusSent (writeFrames addr bs) s t ∧
      (s.serialWorks = true → t.store = (nvStore s.nv addr bs, if bs = [] then s.wel else false)) := by
  obtain ⟨t, ht, hsent, hstore⟩ := nvWriteChunks_mild (chunksOf (chunkCount bs.length) bs) addr h
  rw [chunkFrames_chunksOf] at hsent
  simp only [storeChunks_chunksOf, chunksOf_eq_nil, chunksOf_length] at hstore
  refine ⟨t, by rw [nvWriteOp_chunks ha, ht], hsent, fun hw => hstore hw ?_⟩
  by_cases hb : bs = []
  · exact .inl hb
  · have := List.length_pos_iff.2 hb
    right
    unfold chunkCount
    omega

/-! ### The two statements on nv_write -/

theorem exec_nvWrite_of_ok {a : StoreAddr} {bs : List Byte} {s t : State} (h : nvWriteOp a.toNat bs s = .ok () t) :
    exec (.nvWrite a bs) s = .next { t with result := .done } := by
  show finish ((nvWriteOp a.toNat bs s).bind _) = _
  rw [h]
  rfl

theorem writeFrames_length (addr : Nat) (bs : List Byte) :
    (writeFrames addr bs).length = 2 * ((bs.length + 15) / 16) := by
  simp [writeFrames, writePair, List.length_flatMap, Nat.mul_comm]

theorem idle_of_driverIdle {s : State} (h : s.driverIdle = true) : s.nvSel = false ∧ s.frame = [] ∧ s.paused = false := by
  simpa [State.driverIdle, and_assoc] using h

/-- Settles O35: a chunk's two frames are sent whatever the store answers, also where its windows let the bus in. -/
theorem driverWriteFrames : Obligations.DriverWriteFrames := by
  unfold Obligations.DriverWriteFrames
  intro s a bytes hpower hidle hfits
  obtain ⟨hsel, hframe, -⟩ := idle_of_driverIdle hidle
  have huncut := uncut_of_powerStays hpower
  refine ⟨fun hquiet => ?quiet, fun hserves hraces => ?raced⟩
  case quiet =>
    obtain ⟨t, ht, ⟨lg, hlog, hlen, hop⟩, m, w, k, lg', rfl⟩ :=
      nvWriteOp_sent hquiet huncut (fun _ => ⟨hsel, hframe⟩) hfits
    rw [writeFrames_length] at hlen
    obtain rfl : lg' = s.log ++ lg := hlog
    exact ⟨m, w, k, lg, exec_nvWrite_of_ok ht, hlen, hop⟩
  case raced =>
    obtain ⟨t, ht, hsent, -⟩ := nvWriteOp_mild ⟨hserves, (racesInWindow_iff s).1 hraces, huncut⟩ hfits
    obtain ⟨lg, hlog, hlen, -⟩ := hsent.logs
    rw [writeFrames_length] at hlen
    exact ⟨_, lg, exec_nvWrite_of_ok ht, hsent.mild.serves, hsent.frames, hlog, hlen⟩

theorem exec_nvWrite_overflow {a : StoreAddr} {bs : List Byte} (h : 65536 < a.toNat + bs.length) (s : State) :
    exec (.nvWrite a bs) s = .refused .nvRangeOverflow := by
  show finish ((nvWriteOp a.toNat bs s).bind _) = _
  rw [nvWriteOp, if_pos h]
  rfl

/-- Inside the address space a WRITE leaves its bytes in order. -/
theorem nvStore_read {m : List Host.Cell} (hm : Memory.wf m = true) {addr : Nat} {bs : List Byte}
    (h : addr + bs.length ≤ 65536) {j : Nat} (hj : j < bs.length) : Memory.read (nvStore m addr bs) (addr + j) = bs[j] := by
  rw [nvStore_eq_writeList bs m h, memory_read_writeList bs hm addr j hj]

theorem nvStore_read_outside (m : List Host.Cell) {addr : Nat} {bs : List Byte} (h : addr + bs.length ≤ 65536) {x : Nat}
    (hx : x < addr ∨ addr + bs.length ≤ x) : Memory.read (nvStore m addr bs) x = Memory.read m x := by
  rw [nvStore_eq_writeList bs m h, memory_read_writeList_outside bs m hx]

/-- Settles O36: the chunks' stores are the store of the whole, with or without bus cycles in between. -/
theorem driverWriteStores : Obligations.DriverWriteStores := by
  unfold Obligations.DriverWriteStores
  intro s a bytes
  refine ⟨fun hover => exec_nvWrite_overflow hover s, fun hworks hidle hmem hfits => ?_⟩
  obtain ⟨hsel, hframe, -⟩ := idle_of_driverIdle hidle
  obtain ⟨-, hnv, -⟩ := (memoriesOk_iff s).1 hmem
  refine ⟨nvStore s.nv a.toNat bytes, fun hquiet => ?quiet, fun hserves hraces => ?raced,
    fun j hj => nvStore_read hnv hfits hj, fun x hx => nvStore_read_outside s.nv hfits hx⟩
  case quiet => rw [exec_nvWrite_of_ok (nvWriteOp_works a.toNat bytes hworks hquiet (fun _ => ⟨hsel, hframe⟩) hfits)]
  case raced =>
    obtain ⟨t, ht, -, hstore⟩ :=
      nvWriteOp_mild ⟨hserves, (racesInWindow_iff s).1 hraces, uncut_of_serialWorks hworks⟩ hfits
    obtain ⟨hcells, hlatch⟩ := Prod.mk.inj (hstore hworks)
    exact ⟨_, exec_nvWrite_of_ok ht, hcells, hlatch⟩

end Sys2Proof.Machine

namespace Sys2Proof.Machine

/-! ### One chunk of the region persisted (R216, R218) -/

@[simp] theorem writeFrames_nil (addr : Nat) : writeFrames addr [] = [] := rfl

/-- The first chunk's frames, then those of the rest. -/
theorem writeFrames_of_ne_nil {bs : List Byte} (h : bs ≠ []) (addr : Nat) :
    writeFrames addr bs =
      ((writePair addr (bs.take 16)).map fun tx => ⟨tx, []⟩) ++ writeFrames (addr + 16) (bs.drop 16) := by
  have hpos := List.length_pos_iff.2 h
  have hcount : chunkCount bs.length = chunkCount (bs.drop 16).length + 1 := by
    simp only [chunkCount, List.length_drop]
    omega
  rw [← chunkFrames_chunksOf, ← chunkFrames_chunksOf, hcount, chunksOf, chunkFrames]

theorem writeFrames_one_chunk {bs : List Byte} (h : bs ≠ []) (hle : bs.length ≤ 16) (addr : Nat) :
    writeFrames addr bs = (writePair addr bs).map fun tx => ⟨tx, []⟩ := by
  rw [writeFrames_of_ne_nil h, List.take_of_length_le hle, List.drop_eq_nil_of_le hle, writeFrames_nil, List.append_nil]

/-- A chunk of the region is neither empty nor longer than 16 bytes, and ends inside the region. -/
theorem chunkLen_range {len i : Nat} (h : i < len) :
    0 < chunkLen len i ∧ chunkLen len i ≤ 16 ∧ i + chunkLen len i ≤ len := by
  unfold chunkLen
  omega

/-- With a quiet host the chunk is read as it is, then written. -/
theorem persistChunk_quiet {s : State} {i : Nat} (hq : s.hostQuiet = true) (hi : i < s.cfg.len) :
    persistChunk i s =
      nvWriteOp i (s.shadowBytes i (chunkLen s.cfg.len i)) (s.afterAccesses (chunkLen s.cfg.len i)) := by
  obtain ⟨-, -, hfits⟩ := chunkLen_range hi
  rw [persistChunk, softReads_quiet _ hq hfits, bind_ok, nvImageBase, Nat.zero_add]

theorem shadowBytes_ne_nil (s : State) (i : Nat) {n : Nat} (h : 0 < n) : s.shadowBytes i n ≠ [] :=
  List.ne_nil_of_length_pos (by rwa [shadowBytes_length])

section

variable {s : State} {i : Nat} (hq : s.hostQuiet = true) (hi : i < s.cfg.len) (hlen : s.cfg.len ≤ 65536)
include hq hi hlen

/-- With a working store its bytes come to stand in the store. -/
theorem persistChunk_works (hw : s.serialWorks = true) : persistChunk i s = .ok ()
    { (s.afterFrames ((writePair i (s.shadowBytes i (chunkLen s.cfg.len i))).map fun tx => ⟨tx, []⟩)).afterAccesses
        (chunkLen s.cfg.len i + 2) with
      nv := nvStore s.nv i (s.shadowBytes i (chunkLen s.cfg.len i)), wel := false } := by
  obtain ⟨hpos, hle, hfits⟩ := chunkLen_range hi
  have hne := shadowBytes_ne_nil s i hpos
  have hframes : 2 * ((chunkLen s.cfg.len i + 15) / 16) = 2 := by omega
  rw [persistChunk_quiet hq hi, nvWriteOp_works (s := s.afterAccesses _) i _ hw (hostQuiet_drop hq _)
    (fun h => absurd h hne) (by rw [shadowBytes_length]; omega), writeFrames_one_chunk hne (by rwa [shadowBytes_length]),
    shadowBytes_length, hframes, if_neg hne]
  simp [State.afterFrames, State.afterAccesses, List.drop_drop]

/-- Whatever the outcomes, its two frames are sent. -/
theorem persistChunk_sent (hu : s.uncut) : ∃ t, persistChunk i s = .ok () t ∧
    Sent ((writePair i (s.shadowBytes i (chunkLen s.cfg.len i))).map fun tx => ⟨tx, []⟩)
      (chunkLen s.cfg.len i + 2) s t := by
  obtain ⟨hpos, hle, hfits⟩ := chunkLen_range hi
  have hne := shadowBytes_ne_nil s i hpos
  have hframes : 2 * ((chunkLen s.cfg.len i + 15) / 16) = 2 := by omega
  obtain ⟨t, ht, hsent⟩ := nvWriteOp_sent (s := s.afterAccesses (chunkLen s.cfg.len i)) (addr := i)
    (bs := s.shadowBytes i (chunkLen s.cfg.len i)) (hostQuiet_drop hq _) hu (fun h => absurd h hne)
    (by rw [shadowBytes_length]; omega)
  rw [writeFrames_one_chunk hne (by rwa [shadowBytes_length]), shadowBytes_length, hframes] at hsent
  exact ⟨t, by rw [persistChunk_quiet hq hi, ht], hsent.of_afterAccesses⟩

end

/-! ### backup_tick (R216, R217) -/

theorem exec_backupTick_of_ok {s t : State} {c : Nat} (hc : nextCursor s.cfg.len s.cursor = c)
    (h : persistChunk c { s with cursor := c } = .ok () t) : exec .backupTick s = .next { t with result := .done } := by
  show finish ((backupTickOp s).bind _) = _
  rw [backupTickOp, hc, h]
  rfl

theorem shadowBytes_getElem {s : State} {i n j : Nat} (h : j < (s.shadowBytes i n).length) :
    (s.shadowBytes i n)[j] = s.shadow (i + j) := by simp [State.shadowBytes]

/-- Settles O39: one chunk is persisted, at the cursor's new position. -/
theorem backupTickPersists : Obligations.BackupTickPersists := by
  unfold Obligations.BackupTickPersists
  rintro s c n hwf hworks hquiet hmem hc rfl
  obtain ⟨hpos, hmax⟩ := len_range hwf
  obtain ⟨-, hnv, -⟩ := (memoriesOk_iff s).1 hmem
  have hnext : nextCursor s.cfg.len s.cursor = c := hc.symm
  have hlt : c < s.cfg.len := hnext ▸ nextCursor_lt hpos s.cursor
  obtain ⟨-, -, hend⟩ := chunkLen_range hlt
  have hfits : c + (s.shadowBytes c (chunkLen s.cfg.len c)).length ≤ 65536 := by
    rw [shadowBytes_length]
    omega
  have hop := persistChunk_works (s := { s with cursor := c }) hquiet hlt hmax hworks
  refine ⟨nvStore s.nv c (s.shadowBytes c (chunkLen s.cfg.len c)), exec_backupTick_of_ok hnext hop, fun j hj => ?_,
    fun x hx => nvStore_read_outside s.nv hfits (by rwa [shadowBytes_length])⟩
  rw [nvStore_read hnv hfits (by rwa [shadowBytes_length]), shadowBytes_getElem]

/-- The two frames' bytes that persist chunk `c` of the region. -/
def State.chunkPair (s : State) (c : Nat) : List (List Byte) :=
  writePair (16 * c) (s.shadowBytes (16 * c) (min 16 (s.cfg.len - 16 * c)))

/-- The cursor goes from chunk to chunk and from the last to the first. -/
theorem nextCursor_chunk {len q : Nat} (hq : q < (len + 15) / 16) :
    nextCursor len (16 * q) = 16 * ((q + 1) % ((len + 15) / 16)) := by
  by_cases hlast : q + 1 = (len + 15) / 16
  · rw [nextCursor, if_pos (by omega), hlast, Nat.mod_self]
  · rw [nextCursor, if_neg (by omega), Nat.mod_eq_of_lt (by omega)]
    rfl

/-- One tick, whatever the outcomes, with the cursor at chunk `q`. -/
theorem backupTick_sent {s : State} {q : Nat} (hwf : s.cfg.wf = true) (hquiet : s.hostQuiet = true) (hu : s.uncut)
    (hc : s.cursor = 16 * q) (hq : q < (s.cfg.len + 15) / 16) :
    ∃ t, exec .backupTick s = .next t ∧ t.cfg = s.cfg ∧ t.chunkPair = s.chunkPair ∧ t.hostQuiet = true ∧ t.uncut ∧
      t.cursor = 16 * ((q + 1) % ((s.cfg.len + 15) / 16)) ∧
      t.frames.map FrameRecord.tx =
        s.frames.map FrameRecord.tx ++ s.chunkPair ((q + 1) % ((s.cfg.len + 15) / 16)) := by
  obtain ⟨hpos, hmax⟩ := len_range hwf
  have hnext := nextCursor_chunk hq
  obtain ⟨t, ht, hsent⟩ := persistChunk_sent (s := { s with cursor := 16 * ((q + 1) % ((s.cfg.len + 15) / 16)) }) hquiet
    (hnext ▸ nextCursor_lt hpos (16 * q)) hmax hu
  have hq' := hsent.hostQuiet hquiet
  have hu' := hsent.uncut hu
  refine ⟨_, exec_backupTick_of_ok (by rw [hc, hnext]) ht, ?_⟩
  obtain ⟨-, m, w, k, lg, rfl⟩ := hsent
  exact ⟨rfl, rfl, hq', hu', rfl, List.map_append⟩

/-- `k` ticks persist the `k` chunks after the cursor's, in the cursor's order. -/
theorem backupTicks_sent (k : Nat) {s : State} {q : Nat} (hwf : s.cfg.wf = true) (hquiet : s.hostQuiet = true)
    (hu : s.uncut) (hc : s.cursor = 16 * q) (hq : q < (s.cfg.len + 15) / 16) :
    ∃ t, execAll (List.replicate k .backupTick) s = .next t ∧
      t.cursor = 16 * ((q + k) % ((s.cfg.len + 15) / 16)) ∧
      t.frames.map FrameRecord.tx = s.frames.map FrameRecord.tx ++
        ((List.range k).map fun i => (q + 1 + i) % ((s.cfg.len + 15) / 16)).flatMap s.chunkPair := by
  induction k generalizing s q with
  | zero => exact ⟨s, rfl, by rw [hc, Nat.add_zero, Nat.mod_eq_of_lt hq], by simp⟩
  | succ k ih =>
    obtain ⟨t, ht, hcfg, hpair, hquiet', hu', hcur, hframes⟩ := backupTick_sent hwf hquiet hu hc hq
    obtain ⟨v, hv, hvcur, hvframes⟩ := ih (hcfg ▸ hwf) hquiet' hu' hcur
      (by rw [hcfg]; exact Nat.mod_lt _ (Nat.zero_lt_of_lt hq))
    have hrotate : ∀ j, ((q + 1) % ((s.cfg.len + 15) / 16) + j) % ((s.cfg.len + 15) / 16) =
        (q + 1 + j) % ((s.cfg.len + 15) / 16) := fun j => Nat.mod_add_mod _ _ _
    rw [hcfg] at hvcur hvframes
    refine ⟨v, by rw [List.replicate_succ, execAll, ht]; exact hv, ?_, ?_⟩
    · rw [hvcur, hrotate, Nat.add_right_comm, Nat.add_assoc]
    · rw [hvframes, hframes, hpair, List.range_succ_eq_map, List.map_cons, List.map_map, List.flatMap_cons,
        List.append_assoc]
      simp only [Function.comp_def, Nat.succ_eq_add_one, Nat.add_zero, Nat.add_assoc, hrotate]
      simp only [← Nat.add_assoc, Nat.add_right_comm _ 1]

/-- The chunks from `r` on, around the region, are all its chunks. -/
theorem map_mod_range_eq_rotate (n r : Nat) : ((List.range n).map fun i => (r + i) % n) = (List.range n).rotate r := by
  refine List.ext_getElem (by simp) fun i _ _ => ?_
  simp [List.getElem_rotate, Nat.add_comm]

/-- Settles O40: the chunks persisted are a rotation of the region's. -/
theorem cursorCoverage : Obligations.CursorCoverage := by
  unfold Obligations.CursorCoverage
  rintro s n hwf hquiet hpower - hcursor rfl
  obtain ⟨hpos, -⟩ := len_range hwf
  simp only [State.cursorOk, Bool.and_eq_true, Bool.or_eq_true, decide_eq_true_eq] at hcursor
  obtain ⟨q, hc⟩ := Nat.dvd_of_mod_eq_zero hcursor.1
  obtain ⟨t, ht, hcur, hframes⟩ :=
    backupTicks_sent ((s.cfg.len + 15) / 16) hwf hquiet (uncut_of_powerStays hpower) hc (by omega)
  refine ⟨t, _, ht, ?_, ?_, hframes⟩
  · rw [hcur, Nat.add_mod_right, Nat.mod_eq_of_lt (by omega), hc]
  · rw [map_mod_range_eq_rotate]
    exact List.rotate_perm _ _

end Sys2Proof.Machine

namespace Sys2Proof.Machine

/-! ### Restore (R214, R215) -/

/-- `n` cells of the store from address `i` on. -/
def State.nvBytes (s : State) (i n : Nat) : List Byte := (List.range n).map fun j => s.nvByte (i + j)

@[simp] theorem nvBytes_length (s : State) (i n : Nat) : (s.nvBytes i n).length = n := by simp [State.nvBytes]

theorem nvBytes_getElem? {s : State} {i n j : Nat} (h : j < n) : (s.nvBytes i n)[j]? = some (s.nvByte (i + j)) := by
  simp [State.nvBytes, h]

/-- What of an image arrives with an outcome (R191; log 34). -/
def arrived (o : Option FrameOutcome) (image : List Byte) : List Byte :=
  match o with
  | none | some .ok => image
  | some (.short rx) => rx.take (image.length - 1)
  | some .fail | some .cut => []

theorem arrived_length_le (o : Option FrameOutcome) (image : List Byte) : (arrived o image).length ≤ image.length := by
  unfold arrived
  split <;> simp

theorem frameReply_read {i n : Nat} (h : i + n ≤ 65536) (s : State) :
    frameReply (.read (storeAddr i) n) s = arrived s.env.outcomes.head? (s.nvBytes i n) := by
  unfold frameReply arrived
  split <;> simp [devOk, nvRange_eq h, State.nvBytes, WireCmd.count]

/-- The bytes that arrive for the stride at `i` when `c` frames come before its own. -/
def State.strideRx (s : State) (i c : Nat) : List Byte :=
  arrived s.env.outcomes[c]? (s.nvBytes i (chunkLen s.cfg.len i))

theorem strideRx_length_le (s : State) (i c : Nat) : (s.strideRx i c).length ≤ chunkLen s.cfg.len i := by
  simpa [State.strideRx] using arrived_length_le s.env.outcomes[c]? (s.nvBytes i (chunkLen s.cfg.len i))

theorem strideRx_works {s : State} (h : s.serialWorks = true) (i c : Nat) :
    s.strideRx i c = s.nvBytes i (chunkLen s.cfg.len i) := by
  simp only [State.serialWorks, List.all_eq_true, decide_eq_true_eq] at h
  cases ho : s.env.outcomes[c]? with
  | none => rw [State.strideRx, ho, arrived]
  | some o => rw [State.strideRx, ho, h o (List.mem_of_getElem? ho), arrived]

/-- The READ frame of the stride at `i`. -/
def strideFrame (i : Nat) (rx : List Byte) : FrameRecord := ⟨[0x03, addrHi (storeAddr i), addrLo (storeAddr i)], rx⟩

/-- The frames of `n` strides from index `i` on. -/
def State.passFrames (s : State) (i n : Nat) : List FrameRecord :=
  (List.range n).map fun c => strideFrame (i + 16 * c) (s.strideRx (i + 16 * c) c)

theorem passFrames_succ {s t : State} (h : ∀ i c, t.strideRx i c = s.strideRx i (c + 1)) (i n : Nat) :
    s.passFrames i (n + 1) = [strideFrame i (s.strideRx i 0)] ++ t.passFrames (i + 16) n := by
  simp only [State.passFrames, h, List.range_succ_eq_map, List.map_cons, List.map_map, List.singleton_append]
  simp [Function.comp_def, Nat.mul_add, Nat.add_assoc, Nat.add_comm 16]

theorem stride_length {rx : List Byte} {m : Nat} (h : rx.length ≤ m) (k : Nat) :
    (rx ++ freeBytes k (m - rx.length)).length = m := by
  simp only [List.length_append, freeBytes, List.length_map, List.length_range]
  omega

/-- What a stride stores: the bytes that arrived, then free ones for the cells no byte arrived for (R215). -/
theorem softWrites_fillStride {s : State} {i m : Nat} {rx : List Byte} (hq : s.hostQuiet = true) (hle : rx.length ≤ m)
    (hfits : i + m ≤ s.cfg.len) : softWrites i (fillStride m rx s).1 (fillStride m rx s).2 = .ok ()
      ({ s with
        ram := Memory.writeList s.ram (s.cfg.baseOffset + i) (rx ++ freeBytes s.fresh (m - rx.length))
        fresh := s.fresh + (m - rx.length) }.afterAccesses m) := by
  have hlength := stride_length hle s.fresh
  have hstores := softWrites_quiet (rx ++ freeBytes s.fresh (m - rx.length))
    (s := { s with fresh := s.fresh + (m - rx.length) }) (i := i) hq (by rwa [hlength])
  rw [hlength] at hstores
  simpa only [fillStride, List.take_of_length_le hle] using hstores

/-- One stride, whatever its frame's outcome (R214, R215). -/
theorem restoreStride_quiet {s : State} {i : Nat} (hq : s.hostQuiet = true) (hu : s.uncut) (hi : i < s.cfg.len)
    (hlen : s.cfg.len ≤ 65536) :
    ∃ lg, restoreStride i s = .ok ()
        { (s.afterFrames [strideFrame i (s.strideRx i 0)]).afterAccesses (chunkLen s.cfg.len i + 1) with
          ram := Memory.writeList s.ram (s.cfg.baseOffset + i)
            (s.strideRx i 0 ++ freeBytes s.fresh (chunkLen s.cfg.len i - (s.strideRx i 0).length))
          fresh := s.fresh + (chunkLen s.cfg.len i - (s.strideRx i 0).length)
          log := lg } ∧
      LogsFailures 1 s { s with log := lg } := by
  obtain ⟨hpos, -, hfits⟩ := chunkLen_range hi
  obtain ⟨lg, hx, hlogs⟩ := xferLogged_sent (s := s.afterAccesses 1) .read i (chunkLen s.cfg.len i)
    (.read (storeAddr i) (chunkLen s.cfg.len i)) hu
  have hrx : arrived (s.afterAccesses 1).env.outcomes.head? ((s.afterAccesses 1).nvBytes i (chunkLen s.cfg.len i)) =
      s.strideRx i 0 := by
    rw [List.head?_eq_getElem?]
    rfl
  rw [frameDevice_read, frameReply_read (by omega), hrx] at hx
  refine ⟨lg, ?_, hlogs⟩
  rw [restoreStride, raceWindow_quiet hq, bind_ok, nvImageBase, Nat.zero_add, nvReadOp_frame hpos (by omega), hx, bind_ok]
  refine (softWrites_fillStride ?quiet (strideRx_length_le s i 0) ?fits).trans ?_
  case quiet => exact hostQuiet_drop (s := s) hq 1
  case fits => exact hfits
  simp [State.afterFrames, State.afterAccesses, strideFrame, WireCmd.tx]

/-- What `n` strides of the restore pass from index `i` on made of `s`: their frames, a log entry for each that failed, and the
bytes that arrived stored; no byte outside their cells changed, and none is free where every frame works. -/
structure Restored (i n : Nat) (s t : State) : Prop where
  state : ∃ m k lg, t = { (s.afterFrames (s.passFrames i n)).afterAccesses (min (16 * n) (s.cfg.len - i) + n) with
    ram := m, fresh := k, log := lg }
  logs : LogsFailures n s t
  canonical : Memory.wf t.ram = true
  cells : ∀ c < n, ∀ j b, (s.strideRx (i + 16 * c) c)[j]? = some b →
    Memory.read t.ram (s.cfg.baseOffset + (i + 16 * c + j)) = b
  outside : ∀ la, la < s.cfg.baseOffset + i ∨ s.cfg.baseOffset + min s.cfg.len (i + 16 * n) ≤ la →
    Memory.read t.ram la = Memory.read s.ram la
  fresh : s.serialWorks = true → t.fresh = s.fresh

theorem restored_zero {s : State} (i : Nat) (hs : s.nvSel = false ∧ s.frame = []) (hm : Memory.wf s.ram = true) :
    Restored i 0 s s where
  state := ⟨s.ram, s.fresh, s.log, by
    rw [show s.passFrames i 0 = [] from rfl, afterFrames_nil s hs.1 hs.2, Nat.mul_zero, Nat.zero_min]
    rfl⟩
  logs := logsFailures_zero rfl
  canonical := hm
  cells c hc := absurd hc (Nat.not_lt_zero c)
  outside _ _ := rfl
  fresh _ := rfl

/-- The first stride, then the others. -/
theorem Restored.cons {i n : Nat} {s t u : State} (h : Restored i 1 s t) (k : Restored (i + 16) n t u) :
    Restored i (n + 1) s u := by
  obtain ⟨m, f, lg, ht⟩ := h.state
  obtain ⟨m', f', lg', hu⟩ := k.state
  have hcfg : t.cfg = s.cfg := by rw [ht]; rfl
  have hout : t.env.outcomes = s.env.outcomes.drop 1 := by rw [ht]; rfl
  have hrx : ∀ j c, t.strideRx j c = s.strideRx j (c + 1) := fun j c => by
    rw [State.strideRx, State.strideRx, hout, List.getElem?_drop, Nat.add_comm 1 c, hcfg, ht]
    rfl
  have hframes : s.passFrames i (n + 1) = s.passFrames i 1 ++ t.passFrames (i + 16) n := passFrames_succ hrx i n
  have hcount : min (16 * (n + 1)) (s.cfg.len - i) + (n + 1) =
      min (16 * 1) (s.cfg.len - i) + 1 + (min (16 * n) (s.cfg.len - (i + 16)) + n) := by omega
  have hcells := k.cells
  have houtside := k.outside
  rw [hcfg] at hu hcells houtside
  refine ⟨⟨m', f', lg', ?_⟩, Nat.add_comm 1 n ▸ h.logs.trans k.logs hout, k.canonical, fun c hc j b hb => ?_,
    fun la hla => ?_, fun hw => ?_⟩
  · rw [hu, hframes, hcount, ← afterFrames_append, ← afterAccesses_add]
    generalize t.passFrames (i + 16) n = l
    rw [ht]
    simp [State.afterFrames, State.afterAccesses, List.drop_drop, Nat.add_assoc]
  · cases c with
    | zero =>
      obtain ⟨hj, -⟩ := List.getElem?_eq_some_iff.1 hb
      have hle := strideRx_length_le s (i + 16 * 0) 0
      have hlt : j < 16 := by
        unfold chunkLen at hle
        omega
      rw [houtside _ (.inl (by omega))]
      exact h.cells 0 Nat.zero_lt_one j b hb
    | succ c =>
      have hidx : i + 16 * (c + 1) = i + 16 + 16 * c := by omega
      rw [hidx] at hb ⊢
      exact hcells c (by omega) j b (by rwa [hrx])
  · rw [houtside la (by omega), h.outside la (by omega)]
  · have hw' : t.serialWorks = true := by
      rw [ht]
      exact serialWorks_drop (s := s) hw _
    rw [k.fresh hw', h.fresh hw]

theorem restoreStride_restored {s : State} {i : Nat} (hq : s.hostQuiet = true) (hu : s.uncut) (hi : i < s.cfg.len)
    (hlen : s.cfg.len ≤ 65536) (hm : Memory.wf s.ram = true) :
    ∃ t, restoreStride i s = .ok () t ∧ Restored i 1 s t := by
  obtain ⟨lg, hx, hlogs⟩ := restoreStride_quiet hq hu hi hlen
  have hle := strideRx_length_le s i 0
  have hlength := stride_length hle s.fresh
  have hchunk : min (16 * 1) (s.cfg.len - i) = chunkLen s.cfg.len i := rfl
  refine ⟨_, hx, ⟨_, _, _, rfl⟩, hlogs, memory_writeList_wf _ hm _, fun c hc j b hb => ?_, fun la hla => ?_,
    fun hw => ?_⟩
  · obtain rfl : c = 0 := by omega
    rw [Nat.mul_zero, Nat.add_zero] at hb ⊢
    obtain ⟨hj, rfl⟩ := List.getElem?_eq_some_iff.1 hb
    have hread := memory_read_writeList
      (s.strideRx i 0 ++ freeBytes s.fresh (chunkLen s.cfg.len i - (s.strideRx i 0).length)) hm (s.cfg.baseOffset + i) j
      (by rw [List.length_append]; exact Nat.lt_add_right _ hj)
    rw [List.getElem_append_left hj, Nat.add_assoc] at hread
    exact hread
  · refine memory_read_writeList_outside _ s.ram ?_
    rw [hlength]
    omega
  · show s.fresh + (chunkLen s.cfg.len i - (s.strideRx i 0).length) = s.fresh
    rw [strideRx_works hw, nvBytes_length, Nat.sub_self, Nat.add_zero]

/-- The strides of the pass from index `i` to the end of the region. -/
theorem restoreStrides_restored (n : Nat) {s : State} {i : Nat} (hn : n = chunkCount (s.cfg.len - i))
    (hq : s.hostQuiet = true) (hu : s.uncut) (hlen : s.cfg.len ≤ 65536) (hs : s.nvSel = false ∧ s.frame = [])
    (hm : Memory.wf s.ram = true) : ∃ t, restoreStrides n i s = .ok () t ∧ Restored i n s t := by
  induction n generalizing i s with
  | zero => exact ⟨s, rfl, restored_zero i hs hm⟩
  | succ n ih =>
    unfold chunkCount at hn
    obtain ⟨t, ht, hstride⟩ := restoreStride_restored hq hu (i := i) (by omega) hlen hm
    have hcanonical := hstride.canonical
    obtain ⟨u, hu', hrest⟩ : ∃ u, restoreStrides n (i + chunk) t = .ok () u ∧ Restored (i + chunk) n t u := by
      obtain ⟨m, f, lg, rfl⟩ := hstride.state
      refine ih ?_ (hostQuiet_drop (s := s) hq _) (fun o ho => hu o (List.mem_of_mem_drop ho)) hlen ⟨rfl, rfl⟩ hcanonical
      show n = chunkCount (s.cfg.len - (i + 16))
      unfold chunkCount
      omega
    exact ⟨u, by rw [restoreStrides, ht, bind_ok, hu'], hstride.cons hrest⟩

theorem exec_restore_armed {s : State} (h : s.armed = true) : exec .restore s = .refused .softwareWriteWhileArmed := by
  show finish ((restoreOp s).bind _) = _
  rw [restoreOp, if_pos h]
  rfl

/-- The whole pass. -/
theorem exec_restore_restored {s : State} (ha : s.armed = false) (hwf : s.cfg.wf = true) (hq : s.hostQuiet = true)
    (hu : s.uncut) (hs : s.nvSel = false ∧ s.frame = []) (hm : Memory.wf s.ram = true) :
    ∃ t, exec .restore s = .next { t with result := .done } ∧ Restored 0 (chunkCount s.cfg.len) s t := by
  obtain ⟨-, hmax⟩ := len_range hwf
  obtain ⟨t, ht, hrestored⟩ := restoreStrides_restored (chunkCount s.cfg.len) (i := 0) rfl hq hu hmax hs hm
  refine ⟨t, ?_, hrestored⟩
  show finish ((restoreOp s).bind _) = _
  rw [restoreOp, if_neg (by simp [ha]), ht]
  rfl

theorem accesses_of_pass (len : Nat) : min (16 * chunkCount len) (len - 0) + chunkCount len = len + (len + 15) / 16 := by
  unfold chunkCount
  omega

/-- With a working store each stride's frame hands its part of the image over. -/
theorem passFrames_works {s : State} (h : s.serialWorks = true) : s.passFrames 0 (chunkCount s.cfg.len) = s.restoreFrames := by
  simp only [State.passFrames, State.restoreFrames, strideRx_works h, Nat.zero_add]
  rfl

theorem failures_of_serialWorks {s : State} (h : s.serialWorks = true) (n : Nat) : s.failures n = 0 := by
  simp only [State.serialWorks, List.all_eq_true, decide_eq_true_eq] at h
  simpa [State.failures, List.countP_eq_zero] using fun o ho => h o (List.mem_of_mem_take ho)

/-- Settles O37: every stride's image arrives whole. -/
theorem restoreCopiesImage : Obligations.RestoreCopiesImage := by
  unfold Obligations.RestoreCopiesImage
  refine fun s => ⟨exec_restore_armed, fun ha hwf hworks hquiet hidle hmem => ?_⟩
  obtain ⟨hsel, hframe, -⟩ := idle_of_driverIdle hidle
  obtain ⟨hram, -⟩ := (memoriesOk_iff s).1 hmem
  obtain ⟨t, ht, hrestored⟩ :=
    exec_restore_restored ha hwf hquiet (uncut_of_serialWorks hworks) ⟨hsel, hframe⟩ hram
  obtain ⟨m, k, lg, rfl⟩ := hrestored.state
  obtain ⟨lg', hlog, hnone, -⟩ := hrestored.logs
  rw [failures_of_serialWorks hworks, List.length_eq_zero_iff] at hnone
  obtain rfl : lg = s.log := by rw [hnone, List.append_nil] at hlog; exact hlog
  obtain rfl : k = s.fresh := hrestored.fresh hworks
  rw [passFrames_works hworks, accesses_of_pass] at ht
  refine ⟨m, ht, fun i hi => ?_, fun la hla => hrestored.outside la (by unfold chunkCount; omega)⟩
  have hsplit : 16 * (i / 16) + i % 16 = i := Nat.div_add_mod i 16
  have hin : i % 16 < chunkLen s.cfg.len (0 + 16 * (i / 16)) := by
    unfold chunkLen
    omega
  have hread := hrestored.cells (i / 16) (by unfold chunkCount; omega) (i % 16) (s.nvByte i) (by
    rw [strideRx_works hworks, nvBytes_getElem? hin, Nat.zero_add, hsplit])
  rw [Nat.zero_add, hsplit] at hread
  exact hread

/-- Settles O38: what arrives for a stride is stored, and every stride is tried. -/
theorem restoreBestEffort : Obligations.RestoreBestEffort := by
  unfold Obligations.RestoreBestEffort
  intro s ha hwf hpower hquiet hidle hmem
  obtain ⟨hsel, hframe, -⟩ := idle_of_driverIdle hidle
  obtain ⟨hram, -⟩ := (memoriesOk_iff s).1 hmem
  obtain ⟨t, ht, hrestored⟩ :=
    exec_restore_restored ha hwf hquiet (uncut_of_powerStays hpower) ⟨hsel, hframe⟩ hram
  obtain ⟨m, k, lg', rfl⟩ := hrestored.state
  obtain ⟨lg, hlog, hcount, -⟩ := hrestored.logs
  obtain rfl : lg' = s.log ++ lg := hlog
  rw [accesses_of_pass] at ht
  refine ⟨m, k, lg, _, ht, by simp [State.passFrames, chunkCount], hcount, fun c j hlen hj => ?_,
    fun la hla => hrestored.outside la (by unfold chunkCount; omega)⟩
  have hc : c < chunkCount s.cfg.len := by
    unfold chunkCount
    omega
  have hread := hrestored.cells c hc j
  simp only [Nat.zero_add, State.strideRx] at hread
  refine ⟨fun hworks => hread _ ?works, fun rx b hshort hshorter hb => hread b ?short⟩
  case works =>
    have hin : j < chunkLen s.cfg.len (16 * c) := by
      unfold chunkLen
      omega
    rcases hworks with ho | ho <;> rw [ho, arrived, nvBytes_getElem? hin]
  case short =>
    rw [hshort, arrived, nvBytes_length, List.getElem?_take_of_lt (by unfold chunkLen; omega), hb]

end Sys2Proof.Machine

namespace Sys2Proof.Machine

/-! ### write_all_now (R218) -/

theorem shadowBytes_take (s : State) (i n k : Nat) : (s.shadowBytes i n).take k = s.shadowBytes i (min k n) := by
  rw [State.shadowBytes, ← List.map_take, List.take_range]
  rfl

theorem shadowBytes_drop (s : State) (i n k : Nat) : (s.shadowBytes i n).drop k = s.shadowBytes (i + k) (n - k) := by
  refine List.ext_getElem (by simp) fun j _ _ => ?_
  rw [List.getElem_drop, shadowBytes_getElem, shadowBytes_getElem, Nat.add_assoc]

/-- Storing the first 16 bytes, then the rest. -/
theorem nvStore_take_drop (bs : List Byte) (m : List Host.Cell) (a : Nat) :
    nvStore (nvStore m a (bs.take 16)) (a + 16) (bs.drop 16) = nvStore m a bs := by
  conv_rhs => rw [← List.take_append_drop 16 bs, nvStore_append]
  by_cases hlong : 16 ≤ bs.length
  · rw [List.length_take, Nat.min_eq_left hlong]
  · rw [List.drop_eq_nil_of_le (by omega)]
    rfl

/-- The region from index `i` to its end. -/
def State.regionFrom (s : State) (i : Nat) : List Byte := s.shadowBytes i (s.cfg.len - i)

theorem regionFrom_take (s : State) (i : Nat) : (s.regionFrom i).take 16 = s.shadowBytes i (chunkLen s.cfg.len i) :=
  shadowBytes_take s i (s.cfg.len - i) 16

theorem regionFrom_drop (s : State) (i : Nat) : (s.regionFrom i).drop 16 = s.regionFrom (i + 16) := by
  rw [State.regionFrom, shadowBytes_drop, Nat.sub_sub]
  rfl

theorem regionFrom_ne_nil {s : State} {i : Nat} (h : i < s.cfg.len) : s.regionFrom i ≠ [] :=
  shadowBytes_ne_nil s i (by omega)

/-- The chunks from index `i` to the end of the region persisted with a working store. -/
theorem sweepChunks_works (n : Nat) {s : State} {i : Nat} (hn : n = chunkCount (s.cfg.len - i)) (hw : s.serialWorks = true)
    (hq : s.hostQuiet = true) (hlen : s.cfg.len ≤ 65536) (hs : n = 0 → s.nvSel = false ∧ s.frame = []) :
    sweepChunks n i s = .ok ()
      { (s.afterFrames (writeFrames i (s.regionFrom i))).afterAccesses (s.cfg.len - i + 2 * n) with
        nv := nvStore s.nv i (s.regionFrom i), wel := if n = 0 then s.wel else false } := by
  induction n generalizing i s with
  | zero =>
    have hend : s.cfg.len - i = 0 := by
      unfold chunkCount at hn
      omega
    rw [State.regionFrom, hend, show s.shadowBytes i 0 = [] from rfl, writeFrames_nil, afterFrames_nil s (hs rfl).1 (hs rfl).2]
    rfl
  | succ n ih =>
    unfold chunkCount at hn
    have hi : i < s.cfg.len := by omega
    have hcount : s.cfg.len - i + 2 * (n + 1) = chunkLen s.cfg.len i + 2 + (s.cfg.len - (i + 16) + 2 * n) := by
      unfold chunkLen
      omega
    have hchunk := persistChunk_works hq hi hlen hw
    obtain ⟨t, ht⟩ : ∃ t, persistChunk i s = .ok () t := ⟨_, hchunk⟩
    obtain ⟨-, hstate⟩ := Res.ok.inj (ht.symm.trans hchunk)
    have hcfg : t.cfg = s.cfg := by rw [hstate]; rfl
    have hregion : t.regionFrom (i + 16) = s.regionFrom (i + 16) := by rw [hstate]; rfl
    have hrest := ih (s := t) (i := i + 16) (by rw [hcfg, chunkCount]; omega)
      (by rw [hstate]; exact serialWorks_drop (s := s) hw _) (by rw [hstate]; exact hostQuiet_drop (s := s) hq _)
      (by rwa [hcfg]) (fun _ => by rw [hstate]; exact ⟨rfl, rfl⟩)
    rw [hregion, hcfg] at hrest
    rw [sweepChunks, ht, bind_ok, show i + chunk = i + 16 from rfl, hrest, writeFrames_of_ne_nil (regionFrom_ne_nil hi),
      ← nvStore_take_drop (s.regionFrom i), regionFrom_take, regionFrom_drop, hcount, hstate]
    simp [State.afterFrames, State.afterAccesses, List.drop_drop, Nat.add_assoc]

/-- The whole of `write_all_now`; `PAUSED` is 0 after it. -/
theorem exec_writeAllNow_works {s : State} (hwf : s.cfg.wf = true) (hw : s.serialWorks = true) (hq : s.hostQuiet = true) :
    exec .writeAllNow s = .next
      { (s.afterFrames (writeFrames 0 (s.shadowBytes 0 s.cfg.len))).afterAccesses
          (s.cfg.len + 2 * ((s.cfg.len + 15) / 16)) with
        nv := nvStore s.nv 0 (s.shadowBytes 0 s.cfg.len), wel := false, paused := false, result := .done } := by
  obtain ⟨hpos, hmax⟩ := len_range hwf
  have hcount : chunkCount s.cfg.len ≠ 0 := by
    unfold chunkCount
    omega
  have hsweep := sweepChunks_works (chunkCount s.cfg.len) (s := s.setPaused true) (i := 0) rfl hw hq hmax
    fun h => absurd h hcount
  show finish ((writeAllNowOp s).bind _) = _
  rw [writeAllNowOp, hsweep, if_neg hcount]
  rfl

/-- The region stored at the bottom of the store. -/
theorem nvStore_region_read {s : State} (hwf : s.cfg.wf = true) (hnv : Memory.wf s.nv = true) {i : Nat} (hi : i < s.cfg.len) :
    Memory.read (nvStore s.nv 0 (s.shadowBytes 0 s.cfg.len)) i = s.shadow i := by
  obtain ⟨-, hmax⟩ := len_range hwf
  have hread := nvStore_read hnv (addr := 0) (bs := s.shadowBytes 0 s.cfg.len) (j := i)
    (by rwa [shadowBytes_length, Nat.zero_add]) (by rwa [shadowBytes_length])
  rwa [shadowBytes_getElem, Nat.zero_add] at hread

/-- Settles O41: the chunks of the sweep are the region, cut. -/
theorem fullSweepPersists : Obligations.FullSweepPersists := by
  unfold Obligations.FullSweepPersists
  intro s hwf hworks hquiet hidle hmem
  obtain ⟨-, hmax⟩ := len_range hwf
  obtain ⟨-, hnv, -⟩ := (memoriesOk_iff s).1 hmem
  obtain ⟨-, -, hpaused⟩ := idle_of_driverIdle hidle
  refine ⟨nvStore s.nv 0 (s.shadowBytes 0 s.cfg.len), ?_, fun i hi => nvStore_region_read hwf hnv hi, fun x hx =>
    nvStore_read_outside s.nv (by rwa [shadowBytes_length, Nat.zero_add]) (.inr (by rwa [shadowBytes_length, Nat.zero_add]))⟩
  rw [exec_writeAllNow_works hwf hworks hquiet, ← hpaused]
  rfl

/-! ### The round trip (R219) -/

/-- Settles O42: RESET keeps the store, so restore reads what the sweep stored. -/
theorem roundTripIdentity : Obligations.RoundTripIdentity := by
  unfold Obligations.RoundTripIdentity
  intro s hwf hworks hquiet hmem
  obtain ⟨-, hnv, -⟩ := (memoriesOk_iff s).1 hmem
  have hsweep := exec_writeAllNow_works hwf hworks hquiet
  obtain ⟨t, ht, hcfg, hstore, htworks, htquiet⟩ : ∃ t, exec .writeAllNow s = .next t ∧ t.cfg = s.cfg ∧
      t.nv = nvStore s.nv 0 (s.shadowBytes 0 s.cfg.len) ∧ t.serialWorks = true ∧ t.hostQuiet = true :=
    ⟨_, hsweep, rfl, rfl, serialWorks_drop (s := s) hworks _, hostQuiet_drop (s := s) hquiet _⟩
  have htmem : t.memoriesOk = true := exec_keeps steady_memoriesOk .writeAllNow hmem ht
  obtain ⟨-, hrestore⟩ := restoreCopiesImage (hardReset t)
  obtain ⟨m, hv, hcells, -⟩ := hrestore rfl (by rwa [hardReset_cfg, hcfg]) htworks htquiet rfl (hardReset_memoriesOk htmem)
  refine ⟨t, hardReset t, _, ht, step_withEvent t .reset, hv, fun i hi => ?_⟩
  calc Memory.read m ((hardReset t).cfg.baseOffset + i)
    _ = (hardReset t).nvByte i := hcells i (by rwa [hardReset_cfg, hcfg])
    _ = Memory.read (nvStore s.nv 0 (s.shadowBytes 0 s.cfg.len)) i := by rw [State.nvByte, hardReset_nv, hstore]
    _ = s.shadow i := nvStore_region_read hwf hnv hi

end Sys2Proof.Machine

namespace Sys2Proof.Machine

/-! ### The probe (R231, R232, R255) -/

/-- The count of the next probe is the environment's next choice, or 0 where none is pending (log 8). -/
theorem nextProbe_eq (s : State) : nextProbe s =
    (s.env.probes.headD 0, { s with env := { s.env with probes := s.env.probes.tail } }) := by
  unfold nextProbe
  split
  · next h =>
    have henv : ({ s.env with probes := [] } : Env) = s.env := by rw [← h]
    rw [h, List.headD_nil, List.tail_nil, henv]
  · next n ns h => rw [h, List.headD_cons, List.tail_cons]

/-- `s` once a probe has counted: the environment's count is used up, and `PROBE_COUNT` holds it. -/
def State.probed (s : State) : State :=
  { s with env := { s.env with probes := s.env.probes.tail }, probeCount := s.env.probes.headD 0 }

/-- The comparison is strict, and a failure is raised outside `B_RUNNING` only (log 41). -/
theorem probeOp_eq (s : State) : probeOp s =
    if s.cfg.probeMax < s.env.probes.headD 0 then
      .ok (.busActivityFault (s.env.probes.headD 0))
        (if s.boot = .bRunning then s.probed else enterFault s.probed .busActivity)
    else .ok .ok s.probed := by
  simp only [probeOp, nextProbe_eq]
  rfl

/-- The operation is the call, with its answer kept. -/
theorem exec_probe (s : State) : exec .probe s = finish (probeOp s) := rfl

/-- Settles O44, by the comparison and the value of `BOOT`. -/
theorem probeVerdict : Obligations.ProbeVerdict := by
  unfold Obligations.ProbeVerdict
  rintro s n rfl
  refine ⟨fun hle => ?pass, fun hlt hboot => ?raised, fun hlt hboot => ?running⟩
  case pass =>
    rw [exec_probe, probeOp_eq, if_neg (Nat.not_lt.2 hle)]
    rfl
  case raised =>
    rw [exec_probe, probeOp_eq, if_pos hlt, if_neg hboot]
    rfl
  case running =>
    rw [exec_probe, probeOp_eq, if_pos hlt, if_pos hboot]
    rfl

end Sys2Proof.Machine

namespace Sys2Proof.Machine

/-! ### The parts of a call no RESET cuts (R281)

`Kept` follows a property through a call whether it ends or is cut. Where no RESET is pending no part of a call is cut, so a
property that RESET would not keep can be followed to the call's end. -/

/-- This part of a call is not cut, and the state it ends in has the property. -/
def Res.Lasts {α : Type} (P : State → Prop) : Res α → Prop
  | .ok _ s => P s
  | .cut _ => False
  | .fault _ => True
  | .refused _ => True

/-- This part of a call is not cut. -/
def Res.Uncut {α : Type} (r : Res α) : Prop := ∀ s, r ≠ .cut s

@[simp] theorem uncut_ok {α : Type} (a : α) (s : State) : (Res.ok a s).Uncut := fun _ h => by cases h
@[simp] theorem uncut_fault {α : Type} (f : Fault) : (Res.fault f : Res α).Uncut := fun _ h => by cases h

theorem lasts_of_keeps {α : Type} {P : State → Prop} {r : Res α} (hk : r.Keeps P) (hu : r.Uncut) : r.Lasts P := by
  cases r with
  | ok a s => exact hk
  | cut s => exact absurd rfl (hu s)
  | fault f => trivial
  | refused f => trivial

theorem Res.Lasts.mono {α : Type} {P Q : State → Prop} {r : Res α} (h : r.Lasts P) (hpq : ∀ s, P s → Q s) :
    r.Lasts Q := by
  cases r with
  | ok a s => exact hpq s h
  | cut s => exact h
  | fault f => trivial
  | refused f => trivial

theorem lasts_bind {α β : Type} {P Q : State → Prop} {r : Res α} {k : α → State → Res β} (hr : r.Lasts P)
    (hk : ∀ a s, P s → (k a s).Lasts Q) : (r.bind k).Lasts Q := by
  cases r with
  | ok a s => exact hk a s hr
  | cut s => exact hr
  | fault f => trivial
  | refused f => trivial

/-- Acts without a RESET do not cut a call. -/
theorem serveActs_uncut (acts : List HostAct) (s : State) (ha : ∀ a ∈ acts, a ≠ .reset) : (serveActs acts s).Uncut := by
  induction acts generalizing s with
  | nil => exact uncut_ok _ _
  | cons a acts ih =>
    obtain ⟨hhead, htail⟩ := List.forall_mem_cons.1 ha
    cases a with
    | reset => exact absurd rfl hhead
    | lines l => exact ih _ htail
    | cycle c d f g x | glitch =>
      unfold serveActs
      split
      exacts [uncut_fault _, ih _ htail]
    | agent a =>
      unfold serveActs
      split
      exacts [ih _ htail, uncut_fault _, ih _ htail]

theorem powerStays_iff (s : State) : s.powerStays = true ↔ s.uncut ∧ ∀ l ∈ s.env.races, ∀ a ∈ l, a ≠ .reset := by
  simp only [State.powerStays, State.uncut, Bool.and_eq_true, List.all_eq_true, decide_eq_true_eq]

theorem raceWindow_uncut {s : State} (h : s.powerStays = true) : (raceWindow s).Uncut := by
  obtain ⟨-, hraces⟩ := (powerStays_iff s).1 h
  unfold raceWindow
  split
  · exact uncut_ok _ _
  · next acts rest hr => exact serveActs_uncut acts _ (hraces acts (by rw [hr]; exact List.mem_cons_self))

theorem nvXfer_uncut {s : State} (c : WireCmd) (h : s.uncut) : (nvXfer c s).Uncut := by
  have hcut : (nextOutcome (openFrame c s)).1 ≠ .cut := by
    unfold nextOutcome
    split
    · simp
    · next o os ho => exact h o (by rw [show s.env.outcomes = o :: os from ho]; exact List.mem_cons_self)
  unfold nvXfer
  split
  · exact uncut_ok _ _
  · exact uncut_ok _ _
  · exact uncut_ok _ _
  · next he => exact absurd (congrArg Prod.fst he) hcut

/-- A property of states with no RESET pending that every shared operation below a call keeps. -/
structure Powered (P : State → Prop) : Prop extends Kept P where
  power : ∀ {s}, P s → s.powerStays = true

section

variable {P : State → Prop} (H : Powered P) {s : State}
include H

theorem raceWindow_lasts (h : P s) : (raceWindow s).Lasts P :=
  lasts_of_keeps (raceWindow_keeps H.toKept h) (raceWindow_uncut (H.power h))

theorem softReads_lasts (n i : Nat) (h : P s) : (softReads n i s).Lasts P := by
  induction n generalizing i s with
  | zero => exact h
  | succ n ih =>
    refine lasts_bind (P := P) (lasts_bind (raceWindow_lasts H h) fun _ s1 p1 => ?_) fun _ s1 p1 =>
      lasts_bind (ih (i + 1) p1) fun _ s2 p2 => p2
    split_ifs
    exacts [p1, trivial]

theorem softWrites_lasts (i : Nat) (vs : List Byte) (h : P s) : (softWrites i vs s).Lasts P := by
  induction vs generalizing i s with
  | nil => exact h
  | cons v vs ih =>
    refine lasts_bind (P := P) (lasts_bind (raceWindow_lasts H h) fun _ s1 p1 => ?_) fun _ s1 p1 => ih (i + 1) p1
    split_ifs with hi
    exacts [H.cell v p1 hi, trivial]

theorem xferLogged_lasts (op : XferOp) (addr n : Nat) (c : WireCmd) (h : P s) : (xferLogged op addr n c s).Lasts P := by
  obtain ⟨huncut, -⟩ := (powerStays_iff s).1 (H.power h)
  refine lasts_bind (lasts_of_keeps (nvXfer_keeps H.toKept c h) (nvXfer_uncut c huncut)) fun r s1 p1 => ?_
  show P (if r.worked then s1 else s1.logged (.transportFail op addr n))
  split_ifs
  exacts [p1, H.log _ p1]

theorem nvReadOp_lasts (addr n : Nat) (h : P s) : (nvReadOp addr n s).Lasts P := by
  unfold nvReadOp
  split_ifs
  exacts [trivial, h, xferLogged_lasts H _ _ _ _ h]

theorem driverFrame_lasts (op : XferOp) (addr n : Nat) (c : WireCmd) (h : P s) : (driverFrame op addr n c s).Lasts P :=
  lasts_bind (raceWindow_lasts H h) fun _ _ p1 => xferLogged_lasts H _ _ _ _ p1

theorem nvWriteChunks_lasts (addr : Nat) (ps : List (List Byte)) (h : P s) : (nvWriteChunks addr ps s).Lasts P := by
  induction ps generalizing addr s with
  | nil => exact h
  | cons p ps ih =>
    refine lasts_bind (P := P) (lasts_bind (driverFrame_lasts H _ _ _ _ h) fun _ s1 p1 => ?_) fun _ s2 p2 => ih _ p2
    exact lasts_bind (driverFrame_lasts H _ _ _ _ p1) fun _ s2 p2 => p2

theorem nvWriteOp_lasts (addr : Nat) (bs : List Byte) (h : P s) : (nvWriteOp addr bs s).Lasts P := by
  unfold nvWriteOp
  split_ifs
  exacts [trivial, nvWriteChunks_lasts H _ _ h]

theorem restoreStrides_lasts (n i : Nat) (h : P s) : (restoreStrides n i s).Lasts P := by
  induction n generalizing i s with
  | zero => exact h
  | succ n ih =>
    refine lasts_bind (P := P) (lasts_bind (raceWindow_lasts H h) fun _ s0 p0 => ?_) fun _ s2 p2 => ih _ p2
    exact lasts_bind (nvReadOp_lasts H _ _ p0) fun rx s1 p1 => softWrites_lasts H _ _ (H.draw _ p1)

theorem restoreOp_lasts (h : P s) : (restoreOp s).Lasts P := by
  unfold restoreOp
  split_ifs
  exacts [trivial, restoreStrides_lasts H _ _ h]

theorem persistChunk_lasts (i : Nat) (h : P s) : (persistChunk i s).Lasts P :=
  lasts_bind (softReads_lasts H _ _ h) fun _ _ p1 => nvWriteOp_lasts H _ _ p1

theorem sweepChunks_lasts (n i : Nat) (h : P s) : (sweepChunks n i s).Lasts P := by
  induction n generalizing i s with
  | zero => exact h
  | succ n ih => exact lasts_bind (persistChunk_lasts H i h) fun _ _ p1 => ih _ p1

theorem repairOp_lasts (h : P s) : (repairOp s).Lasts P := by
  refine lasts_bind (softReads_lasts H _ _ h) fun _ s1 p1 => lasts_bind (softReads_lasts H _ _ p1) fun _ s2 p2 => ?_
  split_ifs
  · exact p2
  · exact lasts_bind (softWrites_lasts H _ _ p2) fun _ s3 p3 => H.log _ p3

theorem importOp_lasts (src : List Int) (h : P s) : (importOp src s).Lasts P := by
  unfold importOp
  split_ifs
  · trivial
  · exact H.log _ h
  · exact lasts_bind (softWrites_lasts H _ _ h) fun _ _ p1 => p1

end

/-! ### What no step without a RESET undoes (R230, R237, R173) -/

/-- From `s` to `t` the boot state, the causes in `FAULT` and `ARMED` stayed, `LOG` only grew, and no RESET came up. -/
structure Calm (s t : State) : Prop where
  boot : t.boot = s.boot
  fault : t.fault = s.fault
  armed : t.armed = s.armed
  log : s.log <+: t.log
  power : t.powerStays = true

theorem calm_refl {s : State} (h : s.powerStays = true) : Calm s s := ⟨rfl, rfl, rfl, List.prefix_rfl, h⟩

theorem calm_result {s : State} (r : CallResult) (h : s.powerStays = true) : Calm s { s with result := r } :=
  ⟨rfl, rfl, rfl, List.prefix_rfl, h⟩

theorem powerStays_of_read {s : State} {e : Env} (h : s.powerStays = true) (he : EnvRead s.env e) :
    ({ s with env := e } : State).powerStays = true := by
  obtain ⟨houtcomes, hraces⟩ := (powerStays_iff s).1 h
  exact (powerStays_iff _).2
    ⟨fun o ho => houtcomes o (he.outcomes.subset ho), fun l hl => hraces l (he.races.subset hl)⟩

/-- A call's shared operations move none of this: that is left to the boot sequencer and RESET. -/
theorem powered_calm (s : State) : Powered (Calm s) where
  agent {_ t u} h ha := by
    obtain ⟨-, -, -, -, -, -, -, -, -, hboot, -, hfault, hlog, -, henv, harmed, -⟩ := (move_of_agentStep ha).2.software
    refine ⟨hboot.trans h.boot, hfault.trans h.fault, harmed.trans h.armed, hlog ▸ h.log, ?_⟩
    rw [State.powerStays, henv]
    exact h.power
  lines _ h := ⟨h.boot, h.fault, h.armed, h.log, h.power⟩
  unanswered h := ⟨h.boot, h.fault, h.armed, h.log, h.power⟩
  env h he := ⟨h.boot, h.fault, h.armed, h.log, powerStays_of_read h.power he⟩
  cell _ h _ := ⟨h.boot, h.fault, h.armed, h.log, h.power⟩
  draw _ h := ⟨h.boot, h.fault, h.armed, h.log, h.power⟩
  log e h := ⟨h.boot, h.fault, h.armed, h.log.trans (List.prefix_append _ [e]), h.power⟩
  sel _ h := ⟨h.boot, h.fault, h.armed, h.log, h.power⟩
  desel _ _ h := ⟨h.boot, h.fault, h.armed, h.log, h.power⟩
  devOk c h := by cases c <;> exact ⟨h.boot, h.fault, h.armed, h.log, h.power⟩
  devFailed c h := by cases c <;> exact ⟨h.boot, h.fault, h.armed, h.log, h.power⟩
  power h := h.power

/-- From `s` to `t` nothing was undone that only RESET undoes, and no RESET came up. -/
structure Onward (s t : State) : Prop where
  rank : s.boot.rank ≤ t.boot.rank
  running : s.boot = .bRunning → s.armed = true → t.boot = .bRunning
  engineArm : s.fault.engineArm = true → t.fault.engineArm = true
  busActivity : s.fault.busActivity = true → t.fault.busActivity = true
  armed : s.armed = true → t.armed = true
  faulted : s.boot = .bFault → t.armed = s.armed
  log : s.log <+: t.log
  power : t.powerStays = true

theorem bFault_of_rank {b : BootState} (h : BootState.bFault.rank ≤ b.rank) : b = .bFault := by
  cases b with
  | bFault => rfl
  | _ => exact absurd h (by decide)

theorem Onward.trans {s t u : State} (h : Onward s t) (k : Onward t u) : Onward s u where
  rank := h.rank.trans k.rank
  running hb ha := k.running (h.running hb ha) (h.armed ha)
  engineArm hf := k.engineArm (h.engineArm hf)
  busActivity hf := k.busActivity (h.busActivity hf)
  armed ha := k.armed (h.armed ha)
  faulted hb := (k.faulted (bFault_of_rank (hb ▸ h.rank))).trans (h.faulted hb)
  log := h.log.trans k.log
  power := k.power

theorem Calm.onward {s t : State} (h : Calm s t) : Onward s t where
  rank := by rw [h.boot]
  running hb _ := h.boot.trans hb
  engineArm hf := by rwa [h.fault]
  busActivity hf := by rwa [h.fault]
  armed ha := by rwa [h.armed]
  faulted _ := h.armed
  log := h.log
  power := h.power

/-- `BOOT` moves up in the order of R230 from a state the boot does not end in. -/
theorem onward_boot {s : State} {b : BootState} (n : Nat) (h : s.powerStays = true) (hb : s.boot.final = false)
    (hr : s.boot.rank ≤ b.rank) : Onward s { s with cursor := n, boot := b } where
  rank := hr
  running hrun _ := by simp [hrun, BootState.final] at hb
  engineArm hf := hf
  busActivity hf := hf
  armed ha := ha
  faulted _ := rfl
  log := List.prefix_rfl
  power := h

/-- After `s` went on to `t`, the stage `t` is in ended. -/
theorem Onward.stage {s t : State} {b c : BootState} (h : Onward s t) (hb : t.boot = b) (hf : b.final = false)
    (hr : b.rank ≤ c.rank) : Onward s { t with boot := c } :=
  h.trans (onward_boot t.cursor h.power (hb ▸ hf) (hb ▸ hr))

theorem rank_le_bFault (b : BootState) : b.rank ≤ BootState.bFault.rank := by cases b <;> decide

/-- The fault state is entered from anywhere but a running, armed block. -/
theorem onward_enterFault {s : State} (c : FaultCause) (h : s.powerStays = true)
    (hrun : s.boot = .bRunning → s.armed = false) : Onward s (enterFault s c) where
  rank := rank_le_bFault _
  running hb ha := by simp [hrun hb] at ha
  engineArm hf := by cases c <;> simp [FaultSet.add, hf]
  busActivity hf := by cases c <;> simp [FaultSet.add, hf]
  armed ha := ha
  faulted _ := rfl
  log := List.prefix_rfl
  power := h

/-- The engine is started outside the fault state only (R173). -/
theorem onward_armRegisters {s : State} (base : Nat) (pats : Nat × Nat) (h : s.powerStays = true)
    (hb : s.boot ≠ .bFault) : Onward s (armRegisters base pats s) where
  rank := Nat.le_refl _
  running hrun _ := hrun
  engineArm hf := hf
  busActivity hf := hf
  armed _ := rfl
  faulted hf := absurd hf hb
  log := List.prefix_rfl
  power := h

theorem calm_probed {s : State} (h : s.powerStays = true) : Calm s s.probed := ⟨rfl, rfl, rfl, List.prefix_rfl, h⟩

theorem calm_allocated {s : State} (p q : List Nat) (h : s.powerStays = true) : Calm s (s.allocated p q) :=
  ⟨rfl, rfl, rfl, List.prefix_rfl, h⟩

theorem probeOp_onward {s : State} (h : s.powerStays = true) : (probeOp s).Lasts (Onward s) := by
  have hprobed := (calm_probed h).onward
  rw [probeOp_eq]
  split_ifs with hlt hrun
  · exact hprobed
  · exact hprobed.trans (onward_enterFault _ hprobed.power fun hb => absurd hb hrun)
  · exact hprobed

/-- `arm` is refused, or it is called unarmed and its allocation's answer and `BOOT` decide (R171, R173). -/
theorem armOp_outcomes (base : Nat) (pats : Nat × Nat) (s : State) :
    (∃ r, armOp base pats s = .refused r) ∨ s.armed = false ∧ ∃ p q,
      (s.boot ≠ .bFault ∧ armOp base pats s = .ok .ok (armRegisters base pats (s.allocated p q))) ∨
      armOp base pats s = .ok (.engineFault p q) (s.allocated p q) ∨
      armOp base pats s = .ok (.engineFault p q) (enterFault (s.allocated p q) .engineArm) := by
  cases ha : s.armed with
  | true => exact .inl ⟨_, armOp_of_armed ha base pats⟩
  | false =>
    by_cases hb : base % 2 ^ (s.cfg.ahW + s.cfg.alW) = 0
    · obtain ⟨p, q, hgot⟩ : ∃ p q, (p, q) = s.env.allocs.headD (s.cfg.expectedSeq, s.cfg.expectedMov) := ⟨_, _, rfl⟩
      refine .inr ⟨rfl, p, q, ?_⟩
      rw [armOp_of_aligned ha hb hgot]
      split_ifs with hids hfault
      exacts [.inr (.inl rfl), .inl ⟨hfault, rfl⟩, .inr (.inr rfl)]
    · exact .inl ⟨_, armOp_of_misaligned ha hb pats⟩

theorem armOp_onward {s : State} (base : Nat) (pats : Nat × Nat) (h : s.powerStays = true) :
    (armOp base pats s).Lasts (Onward s) := by
  rcases armOp_outcomes base pats s with ⟨r, ho⟩ | ⟨ha, p, q, ⟨hb, ho⟩ | ho | ho⟩ <;> rw [ho]
  · trivial
  · exact (calm_allocated p q h).onward.trans (onward_armRegisters base pats h hb)
  · exact (calm_allocated p q h).onward
  · exact (calm_allocated p q h).onward.trans (onward_enterFault _ h fun _ => ha)

/-- A boot stage moves `BOOT` up, or enters the fault state. -/
theorem bootStage_onward {s : State} (h : s.powerStays = true) : (bootStage s).Lasts (Onward s) := by
  unfold bootStage
  split
  · next hb => exact onward_boot 0 h (by rw [hb]; rfl) (by rw [hb]; decide)
  · next hb =>
    have hprobed := (calm_probed h).onward
    rw [probeOp_eq]
    split_ifs with hlt hrun
    · simp [hb] at hrun
    · exact hprobed.trans (onward_enterFault _ hprobed.power fun hb => absurd hb hrun)
    · exact hprobed.stage (t := s.probed) hb rfl (by decide)
  · next hb =>
    exact lasts_bind (restoreOp_lasts (powered_calm s) (calm_refl h)) fun _ t ht =>
      ht.onward.stage (ht.boot.trans hb) rfl (by decide)
  · next hb =>
    rcases armOp_outcomes s.cfg.baseOffset (s.cfg.dirpatOut, s.cfg.dirpatIn) s with
      ⟨r, ho⟩ | ⟨ha, p, q, ⟨hf, ho⟩ | ho | ho⟩ <;> rw [ho]
    · trivial
    · exact ((calm_allocated p q h).onward.trans (onward_armRegisters _ _ h hf)).stage hb rfl (by decide)
    · exact (calm_allocated p q h).onward
    · exact (calm_allocated p q h).onward.trans (onward_enterFault _ h fun _ => ha)
  · next hb =>
    exact lasts_bind (repairOp_lasts (powered_calm s) (calm_refl h)) fun _ t ht =>
      ht.onward.stage (ht.boot.trans hb) rfl (by decide)
  · exact (calm_refl h).onward
  · exact (calm_refl h).onward

theorem bootRun_onward (n : Nat) {s : State} (h : s.powerStays = true) : (bootRun n s).Lasts (Onward s) := by
  induction n generalizing s with
  | zero => exact (calm_refl h).onward
  | succ n ih =>
    unfold bootRun
    split_ifs
    · exact (calm_refl h).onward
    · exact lasts_bind (bootStage_onward h) fun _ _ ht => (ih ht.power).mono fun _ hu => ht.trans hu

theorem onward_of_finish {r : Res CallResult} {s t : State} (hr : r.Lasts (Onward s)) (ht : finish r = .next t) :
    Onward s t := by
  rcases finish_eq_next.1 ht with ⟨a, u, rfl, rfl⟩ | ⟨u, rfl, -⟩
  · exact hr.trans (calm_result a hr.power).onward
  · exact hr.elim

/-- A call that hands on what a part of it gave. -/
theorem onward_of_call {α : Type} {r : Res α} {f : α → CallResult} {s t : State} (hr : r.Lasts (Onward s))
    (ht : finish (r.bind fun a u => .ok (f a) u) = .next t) : Onward s t := by
  refine onward_of_finish (lasts_bind hr fun _ _ hu => ?_) ht
  exact hu

theorem writeAllNowOp_calm {s : State} (h : s.powerStays = true) : (writeAllNowOp s).Lasts (Calm s) :=
  lasts_bind (sweepChunks_lasts (powered_calm s) _ _ ⟨rfl, rfl, rfl, List.prefix_rfl, h⟩) fun _ _ ht =>
    ⟨ht.boot, ht.fault, ht.armed, ht.log, ht.power⟩

theorem backupTickOp_calm {s : State} (h : s.powerStays = true) : (backupTickOp s).Lasts (Calm s) :=
  persistChunk_lasts (powered_calm s) _ ⟨rfl, rfl, rfl, List.prefix_rfl, h⟩

theorem exec_onward (i : Instr) {s t : State} (h : s.powerStays = true) (ht : exec i s = .next t) : Onward s t := by
  have H := powered_calm s
  have hs := calm_refl h
  have cycle : ∀ {r : Except Fault State}, (∀ u, r = .ok u → Calm s u) → ofCycle r = .next t → Onward s t :=
    fun hr ht => (ofCycle_keeps hr ht).onward
  have call : ∀ {α : Type} {r : Res α} {f : α → CallResult}, r.Lasts (Calm s) →
      finish (r.bind fun a u => .ok (f a) u) = .next t → Onward s t :=
    fun hr ht => onward_of_call (hr.mono fun _ hu => hu.onward) ht
  cases i with
  | prd f g => exact cycle (fun u hu => busCycle_kept H.toKept hs hu) ht
  | pwr f g b => exact cycle (fun u hu => busCycle_kept H.toKept hs hu) ht
  | srd f g => exact cycle (fun u hu => busCycle_kept H.toKept hs hu) ht
  | swr f g b => exact cycle (fun u hu => busCycle_kept H.toKept hs hu) ht
  | nocyc c d => exact cycle (fun u hu => settle_kept H.toKept (H.lines _ hs) hu) ht
  | wren | wrdi | rdsr | wrsr v | read a n | write a p => exact call (xferLogged_lasts H _ _ _ _ hs) ht
  | boot => exact onward_of_call (bootRun_onward 5 h) ht
  | probe => exact onward_of_finish (probeOp_onward h) ht
  | restore => exact call (restoreOp_lasts H hs) ht
  | arm b o i => exact onward_of_finish (armOp_onward _ _ h) ht
  | repair => exact call (repairOp_lasts H hs) ht
  | nvRead a n => exact call (nvReadOp_lasts H _ _ hs) ht
  | nvWrite a bs => exact call (nvWriteOp_lasts H _ _ hs) ht
  | backupTick => exact call (backupTickOp_calm h) ht
  | writeAllNow => exact call (writeAllNowOp_calm h) ht
  | exportImage => exact call (softReads_lasts H _ _ hs) ht
  | importImage src => exact onward_of_finish ((importOp_lasts H src hs).mono fun _ hu => hu.onward) ht

theorem bootEvent_onward {s t : State} (h : s.powerStays = true) (ht : bootEvent s = .next t) : Onward s t := by
  have hb := bootStage_onward h
  unfold bootEvent at ht
  split at ht
  · next he => rw [he] at hb; cases ht; exact hb
  · next he => rw [he] at hb; exact hb.elim
  · cases ht
  · cases ht

theorem handle_onward {e : Event} (he : e ≠ .reset) {s t : State} (h : s.powerStays = true) (ht : handle e s = .next t) :
    Onward s t := by
  have K := (powered_calm s).toKept
  have hs := calm_refl h
  cases e with
  | packet p =>
    simp only [handle] at ht
    split at ht
    · exact exec_onward _ h ht
    · cases ht
  | reset => exact absurd rfl he
  | tick =>
    simp only [handle, tick] at ht
    split_ifs at ht
    · exact exec_onward .backupTick h ht
    · cases ht; exact hs.onward
  | glitch => exact (ofCycle_keeps (fun u hu => glitch_kept K hs hu) ht).onward
  | swRead c i =>
    simp only [handle, swRead] at ht
    split_ifs at ht
    · cases ht; exact (calm_result _ h).onward
    · cases ht; exact hs.onward
  | lines l => cases ht; exact (K.lines l hs).onward
  | agent a =>
    simp only [handle, agentEvent] at ht
    split at ht
    · exact bootEvent_onward h ht
    · exact (ofMicro_keeps hs (fun u hu => K.agent hs hu) ht).onward

theorem step_onward {s t : State} (h : s.powerStays = true) (he : s.env.events.head? ≠ some .reset)
    (ht : step s = .next t) : Onward s t := by
  have hs := calm_refl h
  unfold step fetch at ht
  cases hev : s.env.events with
  | nil =>
    simp only [hev, idle] at ht
    split_ifs at ht
    · exact (ofMicro_keeps hs (fun u hu => engineStep_kept (powered_calm s).toKept hs hu) ht).onward
    · exact bootEvent_onward h ht
  | cons e es =>
    simp only [hev] at ht he
    have htaken : Calm s { s with env := { s.env with events := es } } := ⟨rfl, rfl, rfl, List.prefix_rfl, h⟩
    exact htaken.onward.trans (handle_onward (by simpa using he) htaken.power ht)

/-- Settles O52: every part of a step goes onward, and going onward composes. -/
theorem onlyResetUndoes : Obligations.OnlyResetUndoes := by
  unfold Obligations.OnlyResetUndoes
  intro s t hpower hevent ht
  obtain ⟨hrank, hrunning, harmFault, hbusFault, harmed, hfaulted, hlog, -⟩ := step_onward hpower hevent ht
  exact ⟨hrank, hrunning, harmFault, hbusFault, harmed, hfaulted, hlog⟩

end Sys2Proof.Machine

namespace Sys2Proof.Machine

/-! ### The bus engine's domain (R192, R264) -/

theorem engineStep_software {s t : State} (h : engineStep s = some (.ok t)) : sameSoftwareDomain s t := by
  obtain ⟨a, -, ha⟩ := List.exists_of_findSome?_eq_some h
  exact (move_of_agentStep ha).2.software

theorem engineRun_software (n : Nat) {s t : State} (h : engineRun n s = .ok t) : sameSoftwareDomain s t := by
  induction n generalizing s with
  | zero => cases h; exact sameSoftwareDomain_refl _
  | succ n ih =>
    unfold engineRun at h
    split at h
    · cases h; exact sameSoftwareDomain_refl _
    · cases h
    · next hu => exact sameSoftwareDomain_trans (engineStep_software hu) (ih h)

/-- The host's lines and its samples belong to neither domain, so the engine's runs are all that counts. -/
theorem busCycle_software {c : Channel} {d : Dir} {f g : Nat} {x : Byte} {s t : State} (h : busCycle c d f g x s = .ok t) :
    sameSoftwareDomain s t := by
  unfold busCycle at h
  split at h
  · cases h
  · next s1 h1 =>
    have hpresented : sameSoftwareDomain s s1 := engineRun_software (s := presentCycle c d f g x s) _ h1
    split at h
    · cases h
    · next s2 h2 =>
      have hended : sameSoftwareDomain s s2 :=
        sameSoftwareDomain_trans hpresented (engineRun_software (s := endCycle s1) _ h2)
      cases h
      split_ifs
      exacts [hended, hended]

/-- Settles O24: whatever state the cycle starts in, only micro-steps and the host's lines lie between. -/
theorem busEngineIsolated : Obligations.BusEngineIsolated := by
  unfold Obligations.BusEngineIsolated
  refine fun s t => ⟨fun h ht => ?cycle, fun c d ht => ?none⟩
  case cycle =>
    rw [exec_cycle] at ht
    exact ofCycle_keeps (fun u hu => busCycle_software hu) ht
  case none =>
    exact ofCycle_keeps (P := sameSoftwareDomain s)
      (fun u hu => engineRun_software (s := presentNoCycle c d s) _ hu) ht

end Sys2Proof.Machine

namespace Sys2Proof.Machine

/-! ### The image read out and read in (R240, R241) -/

/-- Settles O54: the reads of a quiet host see the cells as they are. -/
theorem exportAnswersRegion : Obligations.ExportAnswersRegion := by
  unfold Obligations.ExportAnswersRegion
  intro s hquiet
  have hreads := softReads_quiet s.cfg.len (i := 0) hquiet (Nat.zero_add _).le
  show finish (exportOp s) = _
  rw [exportOp, hreads, bind_ok, finish, State.shadowBytes, List.map_map]
  simp only [Function.comp_def, Nat.zero_add]

theorem exec_import (src : List Int) (s : State) : exec (.importImage src) s = finish (importOp src s) := rfl

/-- The byte of an integer is its non-negative remainder (R241, R244). -/
theorem byteOfInt_toNat (z : Int) : ((byteOfInt z).toNat : Int) = z % 256 := by
  rw [byteOfInt, BitVec.toNat_ofInt, Int.toNat_of_nonneg (Int.emod_nonneg z (by decide))]
  rfl

/-- An array that fits is written byte by byte from the first cell on. -/
theorem importOp_fits {s : State} {src : List Int} (ha : s.armed = false) (hfits : src.length ≤ s.cfg.len)
    (hq : s.hostQuiet = true) : importOp src s = .ok .accepted
      ({ s with ram := Memory.writeList s.ram s.cfg.baseOffset (src.map byteOfInt) }.afterAccesses src.length) := by
  have hlen : (src.map byteOfInt).length = src.length := List.length_map _
  rw [importOp, if_neg (by simp [ha]), if_neg (by omega), softWrites_quiet _ hq (by omega), hlen]
  rfl

/-- Settles O55, by its two checks in the order R261 gives them. -/
theorem importGuard : Obligations.ImportGuard := by
  unfold Obligations.ImportGuard
  refine fun s src => ⟨fun ha => ?armed, fun ha hlong => ?long, fun ha hfits hquiet hmem => ?fits⟩
  case armed =>
    rw [exec_import, importOp, if_pos ha]
    rfl
  case long =>
    rw [exec_import, importOp, if_neg (by simp [ha]), if_pos hlong]
    rfl
  case fits =>
    obtain ⟨hram, -⟩ := (memoriesOk_iff s).1 hmem
    refine ⟨Memory.writeList s.ram s.cfg.baseOffset (src.map byteOfInt), ?_, fun i z hz => ?_, fun la hla =>
      memory_read_writeList_outside _ s.ram (by rwa [List.length_map])⟩
    · rw [exec_import, importOp_fits ha hfits hquiet]
      rfl
    · obtain ⟨hi, rfl⟩ := List.getElem?_eq_some_iff.1 hz
      rw [memory_read_writeList _ hram _ i (by rwa [List.length_map]), List.getElem_map, byteOfInt_toNat]

/-! ### Repair (R236) -/

/-- The bytes the checksum field should hold. -/
def State.wantedChecksum (s : State) : List Byte := checksum s.cfg (s.shadowBytes 0 s.cfg.len)

/-- The bytes it holds. -/
def State.checksumField (s : State) : List Byte := s.shadowBytes s.cfg.ckOffset s.cfg.ckLen

@[simp] theorem wantedChecksum_length (s : State) : s.wantedChecksum.length = s.cfg.ckLen := by
  simp [State.wantedChecksum, checksum]

/-- The checksum field lies in the region (R11). -/
theorem checksumField_range {g : Config} (h : g.wf = true) : g.ckOffset + g.ckLen ≤ g.len := by
  obtain ⟨-, -, -, -, -, -, -, -, -, -, -, -, -, -, -, -, -, hck⟩ := (cfg_wf_iff g).1 h
  exact hck

/-- `s` with the checksum field rewritten, and the entry that says so. -/
def State.fixed (s : State) : State :=
  { s with ram := Memory.writeList s.ram (s.cfg.baseOffset + s.cfg.ckOffset) s.wantedChecksum
           log := s.log ++ [.checksumFixed] }

/-- With a quiet host the field and the region are read as they are, and only a wrong field is written. -/
theorem repairOp_quiet {s : State} (hwf : s.cfg.wf = true) (hq : s.hostQuiet = true) : repairOp s = .ok ()
    (if s.checksumField = s.wantedChecksum then s.afterAccesses (s.cfg.ckLen + s.cfg.len)
      else s.fixed.afterAccesses (s.cfg.ckLen + s.cfg.len + s.cfg.ckLen)) := by
  have hck := checksumField_range hwf
  have hfield := softReads_quiet s.cfg.ckLen (i := s.cfg.ckOffset) hq hck
  have hregion := softReads_quiet (s := s.afterAccesses s.cfg.ckLen) s.cfg.len (i := 0) (hostQuiet_drop hq _)
    (Nat.zero_add _).le
  have hstore := softWrites_quiet s.wantedChecksum (s := s.afterAccesses (s.cfg.ckLen + s.cfg.len)) (i := s.cfg.ckOffset)
    (hostQuiet_drop hq _) (by rwa [wantedChecksum_length])
  rw [afterAccesses_add] at hregion
  rw [repairOp, hfield, bind_ok]
  show ((softReads s.cfg.len 0 (s.afterAccesses s.cfg.ckLen)).bind _) = _
  rw [hregion, bind_ok]
  show (if s.checksumField = s.wantedChecksum then _ else
    (softWrites s.cfg.ckOffset s.wantedChecksum (s.afterAccesses (s.cfg.ckLen + s.cfg.len))).bind _) = _
  rw [hstore, bind_ok, wantedChecksum_length, ← afterAccesses_add s.fixed]
  split_ifs <;> rfl

/-- A cell outside the field is as it was. -/
theorem fixed_outside (s : State) {la : Nat}
    (h : la < s.cfg.baseOffset + s.cfg.ckOffset ∨ s.cfg.baseOffset + (s.cfg.ckOffset + s.cfg.ckLen) ≤ la) :
    Memory.read s.fixed.ram la = Memory.read s.ram la :=
  memory_read_writeList_outside _ s.ram (by rw [wantedChecksum_length]; omega)

/-- Settles O48, by whether the field is consistent. -/
theorem repairFixesField : Obligations.RepairFixesField := by
  unfold Obligations.RepairFixesField
  rintro s cur want hwf hquiet hmem rfl rfl
  have hexec : exec .repair s = finish ((repairOp s).bind fun _ s1 => .ok .done s1) := rfl
  refine ⟨fun (hsame : s.checksumField = s.wantedChecksum) => ?consistent,
    fun (hne : s.checksumField ≠ s.wantedChecksum) => ⟨s.fixed.ram, ?rewritten, fun j b hb => ?inside,
      fun la hla => fixed_outside s hla⟩⟩
  case consistent =>
    rw [hexec, repairOp_quiet hwf hquiet, if_pos hsame]
    rfl
  case rewritten =>
    rw [hexec, repairOp_quiet hwf hquiet, if_neg hne]
    rfl
  case inside =>
    obtain ⟨hram, -⟩ := (memoriesOk_iff s).1 hmem
    obtain ⟨hj, rfl⟩ := List.getElem?_eq_some_iff.1 hb
    rw [← Nat.add_assoc]
    exact memory_read_writeList s.wantedChecksum hram _ j hj

end Sys2Proof.Machine

namespace Sys2Proof.Machine

/-! ### The stages of a boot (R230) -/

/-- A boot that is not at its end goes on with its next stage. -/
theorem bootRun_stage {s t : State} (n : Nat) (hf : s.boot.final = false) (h : bootStage s = .ok () t) :
    bootRun (n + 1) s = bootRun n t := by
  rw [bootRun, if_neg (by simp [hf]), h, bind_ok]

/-- `B_RUNNING` and `B_FAULT` are its ends. -/
theorem bootRun_final {s : State} (n : Nat) (hf : s.boot.final = true) : bootRun n s = .ok () s := by
  cases n with
  | zero => rfl
  | succ n => rw [bootRun, if_pos hf]

theorem exec_boot_of_ok {s t : State} (h : bootRun 5 s = .ok () t) : exec .boot s = .next { t with result := .done } := by
  show finish ((bootRun 5 s).bind _) = _
  rw [h]
  rfl

theorem bootStage_reset {s : State} (h : s.boot = .bReset) :
    bootStage s = .ok () { s with cursor := 0, boot := .bProbe } := by
  simp only [bootStage, h]

theorem bootStage_probe_passes {s : State} (h : s.boot = .bProbe) (hle : s.env.probes.headD 0 ≤ s.cfg.probeMax) :
    bootStage s = .ok () { s.probed with boot := .bRestore } := by
  simp only [bootStage, h, probeOp_eq, if_neg (Nat.not_lt.2 hle)]
  rfl

theorem bootStage_probe_fails {s : State} (h : s.boot = .bProbe) (hlt : s.cfg.probeMax < s.env.probes.headD 0) :
    bootStage s = .ok () (enterFault s.probed .busActivity) := by
  simp only [bootStage, h, probeOp_eq, if_pos hlt]
  rfl

theorem bootStage_restore {s t : State} (h : s.boot = .bRestore) (ht : restoreOp s = .ok () t) :
    bootStage s = .ok () { t with boot := .bArm } := by
  simp only [bootStage, h, ht, bind_ok]

theorem bootStage_repair {s t : State} (h : s.boot = .bRepair) (ht : repairOp s = .ok () t) :
    bootStage s = .ok () { t with boot := .bRunning } := by
  simp only [bootStage, h, ht, bind_ok]

theorem bootStage_arm_starts {s t : State} (h : s.boot = .bArm)
    (ht : armOp s.cfg.baseOffset (s.cfg.dirpatOut, s.cfg.dirpatIn) s = .ok .ok t) :
    bootStage s = .ok () { t with boot := .bRepair } := by
  simp only [bootStage, h, ht, bind_ok, if_true]

theorem bootStage_arm_fails {s t : State} {p q : List Nat} (h : s.boot = .bArm)
    (ht : armOp s.cfg.baseOffset (s.cfg.dirpatOut, s.cfg.dirpatIn) s = .ok (.engineFault p q) t) :
    bootStage s = .ok () t := by
  simp only [bootStage, h, ht, bind_ok, reduceCtorEq, if_false]

/-! ### A boot that faults in the probe (R232) -/

/-- Settles O50: the probe is the second stage and the boot's last. -/
theorem bootProbeFault : Obligations.BootProbeFault := by
  unfold Obligations.BootProbeFault
  intro s n hboot hcount hlt
  have hhead : s.env.probes.headD 0 = n := by rw [List.headD_eq_head?_getD, hcount, Option.getD_some]
  have hrun : bootRun 5 s = .ok () (enterFault (State.probed { s with cursor := 0, boot := .bProbe }) .busActivity) := by
    rw [bootRun_stage 4 (by rw [hboot]; rfl) (bootStage_reset hboot),
      bootRun_stage 3 rfl (bootStage_probe_fails rfl (hhead ▸ hlt)), bootRun_final 3 rfl]
  rw [exec_boot_of_ok hrun, ← hhead]
  rfl

/-! ### A boot as far as its restore pass (R230, R214) -/

/-- `s` at the restore stage of a boot whose probe passed. -/
def State.restoring (s : State) : State :=
  { s with
    env := { s.env with probes := s.env.probes.tail }, cursor := 0, probeCount := s.env.probes.headD 0, boot := .bRestore }

/-- The restore pass of an unarmed block; a frame in progress ends with the pass's first. -/
theorem restoreOp_restored {s : State} (ha : s.armed = false) (hwf : s.cfg.wf = true) (hq : s.hostQuiet = true)
    (hu : s.uncut) (hm : Memory.wf s.ram = true) :
    ∃ t, restoreOp s = .ok () t ∧ Restored 0 (chunkCount s.cfg.len) s t := by
  obtain ⟨hpos, hmax⟩ := len_range hwf
  obtain ⟨n, hn⟩ : ∃ n, chunkCount s.cfg.len = n + 1 := Nat.exists_eq_add_one.2 (by unfold chunkCount; omega)
  obtain ⟨t, ht, hstride⟩ := restoreStride_restored hq hu hpos hmax hm
  have hcanonical := hstride.canonical
  obtain ⟨v, hv, hrest⟩ : ∃ v, restoreStrides n (0 + chunk) t = .ok () v ∧ Restored (0 + chunk) n t v := by
    obtain ⟨m, f, lg, rfl⟩ := hstride.state
    refine restoreStrides_restored n ?_ (hostQuiet_drop (s := s) hq _) (fun o ho => hu o (List.mem_of_mem_drop ho)) hmax
      ⟨rfl, rfl⟩ hcanonical
    show n = chunkCount (s.cfg.len - (0 + 16))
    unfold chunkCount at hn ⊢
    omega
  rw [restoreOp, if_neg (by simp [ha]), hn]
  exact ⟨v, by rw [restoreStrides, ht, bind_ok, hv], hstride.cons hrest⟩

/-- With a working store the pass leaves the image in `SHADOW`. -/
theorem Restored.image {s t : State} (h : Restored 0 (chunkCount s.cfg.len) s t) (hw : s.serialWorks = true) {i : Nat}
    (hi : i < s.cfg.len) : Memory.read t.ram (s.cfg.baseOffset + i) = s.nvByte i := by
  have hsplit : 0 + 16 * (i / 16) + i % 16 = i := by omega
  have hread := h.cells (i / 16) (by unfold chunkCount; omega) (i % 16) (s.nvByte i) (by
    rw [strideRx_works hw, nvBytes_getElem? (by unfold chunkLen; omega), hsplit])
  rwa [hsplit] at hread

/-- The pass changes no byte outside `SHADOW`. -/
theorem Restored.outside_region {s t : State} (h : Restored 0 (chunkCount s.cfg.len) s t) {la : Nat}
    (hla : la < s.cfg.baseOffset ∨ s.cfg.baseOffset + s.cfg.len ≤ la) : Memory.read t.ram la = Memory.read s.ram la :=
  h.outside la (by unfold chunkCount; omega)

/-- Whatever arrives, the pass sends the READ frames of the image. -/
theorem passFrames_tx (s : State) :
    (s.passFrames 0 (chunkCount s.cfg.len)).map FrameRecord.tx = s.restoreFrames.map FrameRecord.tx := by
  simp only [State.passFrames, State.restoreFrames, List.map_map, Function.comp_def, strideFrame, Nat.zero_add, chunkCount]

/-- What the restore pass of a boot from `s` leaves: local RAM `m`, the free values' counter `k`, the entries `lg`, the
frames `frs`, and `e` of the environment's choices. -/
structure RestorePass (s : State) (m : List Host.Cell) (k : Nat) (lg : List LogEvent) (frs : List FrameRecord) (e : Env) :
    Prop where
  events : e.events = s.env.events
  allocs : e.allocs = s.env.allocs
  quiet : e.races.all List.isEmpty = true
  sent : frs.map FrameRecord.tx = s.restoreFrames.map FrameRecord.tx
  outside : ∀ la, la < s.cfg.baseOffset ∨ s.cfg.baseOffset + s.cfg.len ≤ la → Memory.read m la = Memory.read s.ram la
  image : s.serialWorks = true → ∀ i < s.cfg.len, Memory.read m (s.cfg.baseOffset + i) = s.nvByte i
  works : s.serialWorks = true → k = s.fresh ∧ lg = [] ∧ frs = s.restoreFrames

/-- `s` at the arm stage of a boot, after that pass. -/
def State.arming (s : State) (m : List Host.Cell) (k : Nat) (lg : List LogEvent) (frs : List FrameRecord) (e : Env) :
    State :=
  { s with
    env := e, ram := m, fresh := k, log := s.log ++ lg, frames := s.frames ++ frs, nvSel := false, frame := []
    cursor := 0, probeCount := s.env.probes.headD 0, boot := .bArm }

theorem restorePass_of_restored {s t : State} (hq : s.hostQuiet = true)
    (h : Restored 0 (chunkCount s.cfg.len) s.restoring t) :
    ∃ m k lg frs e, { t with boot := .bArm } = s.arming m k lg frs e ∧ RestorePass s m k lg frs e := by
  have himage : s.serialWorks = true → ∀ i < s.cfg.len, Memory.read t.ram (s.cfg.baseOffset + i) = s.nvByte i :=
    fun hw i hi => Restored.image (s := s.restoring) h hw hi
  have houtside : ∀ la, la < s.cfg.baseOffset ∨ s.cfg.baseOffset + s.cfg.len ≤ la →
      Memory.read t.ram la = Memory.read s.ram la := fun la hla => Restored.outside_region (s := s.restoring) h hla
  have hfresh := h.fresh
  obtain ⟨lg, hlog, hcount, -⟩ := h.logs
  obtain ⟨m, k, lg', rfl⟩ := h.state
  obtain rfl : lg' = s.log ++ lg := hlog
  refine ⟨m, k, lg, s.restoring.passFrames 0 (chunkCount s.cfg.len), _, rfl, rfl, rfl,
    hostQuiet_drop (s := s.restoring) hq _, passFrames_tx s.restoring, houtside, himage, fun hw => ?_⟩
  have hnone : lg.length = 0 := hcount.trans (failures_of_serialWorks (s := s.restoring) hw _)
  exact ⟨hfresh hw, List.length_eq_zero_iff.1 hnone, passFrames_works (s := s.restoring) hw⟩

/-- The first three stages of a boot whose probe passes. -/
theorem bootRun_arming {s : State} (n : Nat) (hboot : s.boot = .bReset) (ha : s.armed = false) (hwf : s.cfg.wf = true)
    (hq : s.hostQuiet = true) (hu : s.uncut) (hm : s.memoriesOk = true) (hle : s.env.probes.headD 0 ≤ s.cfg.probeMax) :
    ∃ m k lg frs e, bootRun (n + 3) s = bootRun n (s.arming m k lg frs e) ∧ RestorePass s m k lg frs e := by
  obtain ⟨hram, -⟩ := (memoriesOk_iff s).1 hm
  obtain ⟨t, ht, hrestored⟩ := restoreOp_restored (s := s.restoring) ha hwf hq hu hram
  obtain ⟨m, k, lg, frs, e, hstate, hpass⟩ := restorePass_of_restored hq hrestored
  refine ⟨m, k, lg, frs, e, ?_, hpass⟩
  calc bootRun (n + 3) s
    _ = bootRun (n + 2) { s with cursor := 0, boot := .bProbe } :=
        bootRun_stage (n + 2) (by rw [hboot]; rfl) (bootStage_reset hboot)
    _ = bootRun (n + 1) s.restoring := bootRun_stage (n + 1) rfl (bootStage_probe_passes rfl hle)
    _ = bootRun n { t with boot := .bArm } := bootRun_stage (s := s.restoring) n rfl (bootStage_restore rfl ht)
    _ = bootRun n (s.arming m k lg frs e) := by rw [hstate]

/-! ### A boot that faults in arm (R235) -/

/-- BASE_OFFSET is aligned and fits LOCAL_W (R11, R66). -/
theorem baseOffset_fits {g : Config} (h : g.wf = true) :
    g.baseOffset % 2 ^ (g.ahW + g.alW) = 0 ∧ g.baseOffset < 2 ^ g.localW := by
  obtain ⟨halign, hfit, -⟩ := base_align h .primary
  exact ⟨halign, hfit⟩

/-- Settles O51: the image is restored, and arm is the boot's last stage. -/
theorem bootArmFault : Obligations.BootArmFault := by
  unfold Obligations.BootArmFault
  intro s seqs movs hboot ha hwf hquiet hworks hidle hmem hle hgot hne
  obtain ⟨hsel, hframe, -⟩ := idle_of_driverIdle hidle
  obtain ⟨halign, -⟩ := baseOffset_fits hwf
  obtain ⟨m, k, lg, frs, e, hrun, hpass⟩ :=
    bootRun_arming 2 hboot ha hwf hquiet (uncut_of_serialWorks hworks) hmem hle
  obtain ⟨rfl, rfl, rfl⟩ := hpass.works hworks
  have hanswer : (seqs, movs) = e.allocs.headD (s.cfg.expectedSeq, s.cfg.expectedMov) := by
    rw [hpass.allocs, List.headD_eq_head?_getD, hgot, Option.getD_some]
  have harm := armOp_of_unexpected (s := s.arming m s.fresh [] s.restoreFrames e) ha halign hanswer hne
    (s.cfg.dirpatOut, s.cfg.dirpatIn)
  refine ⟨m, { e with allocs := e.allocs.tail }, ?_, hpass.events, hpass.image hworks, hpass.outside⟩
  rw [exec_boot_of_ok ((hrun.trans (bootRun_stage 1 rfl (bootStage_arm_fails rfl harm))).trans (bootRun_final 1 rfl))]
  simp only [State.allocated, State.arming, enterFault, State.releaseData, FaultSet.add, List.append_nil, hsel, hframe]

/-! ### A boot that reaches `B_RUNNING` (R230, R234) -/

/-- A repair by a quiet host changes the checksum field and the log, and nothing else of the block. -/
theorem repairOp_outcome {s : State} (hwf : s.cfg.wf = true) (hq : s.hostQuiet = true) :
    ∃ n m lg, repairOp s = .ok () { s.afterAccesses n with ram := m, log := s.log ++ lg } ∧
      ∀ la, la < s.cfg.baseOffset + s.cfg.ckOffset ∨ s.cfg.baseOffset + (s.cfg.ckOffset + s.cfg.ckLen) ≤ la →
        Memory.read m la = Memory.read s.ram la := by
  by_cases hsame : s.checksumField = s.wantedChecksum
  · refine ⟨s.cfg.ckLen + s.cfg.len, s.ram, [], ?_, fun _ _ => rfl⟩
    rw [repairOp_quiet hwf hq, if_pos hsame, List.append_nil]
    rfl
  · refine ⟨s.cfg.ckLen + s.cfg.len + s.cfg.ckLen, s.fixed.ram, [.checksumFixed], ?_, fun la hla => fixed_outside s hla⟩
    rw [repairOp_quiet hwf hq, if_neg hsame]
    rfl

/-- `s` armed on the configured windows with the sets got, at the repair stage of a boot (R171, R230). -/
def State.repairing (s : State) (seqs movs : List Nat) : State :=
  { s.allocated seqs movs with
    fabBase := s.cfg.baseOffset, dirpat := (s.cfg.dirpatOut, s.cfg.dirpatIn)
    chP := { s.chP.idled with baseReg := s.cfg.baseOffset }
    chS := { s.chS.idled with baseReg := s.cfg.secBaseOffset }
    done := none, ddir := .inward, cls := .idle, armed := true, boot := .bRepair }

theorem bootStage_arm_expected {s : State} {seqs movs : List Nat} (hboot : s.boot = .bArm) (ha : s.armed = false)
    (hwf : s.cfg.wf = true) (hgot : (seqs, movs) = s.env.allocs.headD (s.cfg.expectedSeq, s.cfg.expectedMov))
    (hseq : ∀ x, x ∈ seqs ↔ x ∈ s.cfg.expectedSeq) (hmov : ∀ x, x ∈ movs ↔ x ∈ s.cfg.expectedMov) :
    bootStage s = .ok () (s.repairing seqs movs) := by
  obtain ⟨halign, hfit⟩ := baseOffset_fits hwf
  have harm := armOp_starts ha halign hgot hseq hmov (by simp [hboot]) (s.cfg.dirpatOut, s.cfg.dirpatIn)
  rw [armRegisters_of_fitting (s := s.allocated seqs movs) hwf hfit] at harm
  exact bootStage_arm_starts hboot harm

/-- Settles O49: the five stages in turn; the last changes `SHADOW` inside the checksum field only. -/
theorem bootReachesRunning : Obligations.BootReachesRunning := by
  unfold Obligations.BootReachesRunning
  intro s seqs movs hboot ha hwf hquiet hpower hmem hle hgot hseq hmov
  have hck := checksumField_range hwf
  obtain ⟨-, -, -, -, -, -, -, -, -, -, -, -, -, -, -, -, hpatterns, -⟩ := (cfg_wf_iff s.cfg).1 hwf
  obtain ⟨m, k, lg, frs, e, hrun, hpass⟩ :=
    bootRun_arming 2 hboot ha hwf hquiet (uncut_of_powerStays hpower) hmem hle
  rw [← hpass.allocs] at hgot
  have harm := bootStage_arm_expected (s := s.arming m k lg frs e) rfl ha hwf hgot hseq hmov
  obtain ⟨n, m', lg', hrepair, hsame⟩ :=
    repairOp_outcome (s := (s.arming m k lg frs e).repairing seqs movs) hwf hpass.quiet
  have hall := (hrun.trans (bootRun_stage 1 rfl harm)).trans (bootRun_stage 0 rfl (bootStage_repair rfl hrepair))
  have hsame : ∀ la, la < s.cfg.baseOffset + s.cfg.ckOffset ∨ s.cfg.baseOffset + (s.cfg.ckOffset + s.cfg.ckLen) ≤ la →
      Memory.read m' la = Memory.read m la := hsame
  refine ⟨_, m', k, lg ++ lg', frs, { e with allocs := e.allocs.tail, races := e.races.drop n }, exec_boot_of_ok hall,
    ?serves, ?state, hpass.events, hpass.sent, fun la hla => (hsame la (by omega)).trans (hpass.outside la hla),
    fun hworks i hi hfield => (hsame _ (by omega)).trans (hpass.image hworks i hi)⟩
  case serves => exact serves_iff.2 ⟨hwf, ⟨rfl, rfl⟩, ⟨rfl, hpatterns⟩, ⟨rfl, rfl⟩, ⟨⟨rfl, rfl⟩, rfl⟩, rfl⟩
  case state =>
    rw [← List.append_assoc]
    rfl

end Sys2Proof.Machine
